-- ==== Sys2Proof/Word.lean ====
section
/-! DEFINITION. The fixed widths of the engine: 8-bit elements and characters (R8, R65), 16-bit registers and host
addresses (R9, R20), 32-bit data and command words (R9, R91). Everything is unsigned (R10). -/

namespace Sys2Proof

/-- An 8-bit element of a buffer or table, a character code, a digit, a carry (R8, R20, R65). -/
abbrev Byte := BitVec 8

/-- A 16-bit register of R20, a host word address (R9) or the field imm16 (R91). -/
abbrev Half := BitVec 16

/-- A 32-bit host data word or command word (R9, R91). -/
abbrev Word := BitVec 32

end Sys2Proof
end

