-- ==== Sys2Proof/Config.lean ====
section
/-! DEFINITION. What an implementation fixes (R16): the parameters LMAX and DOMAIN (R6, R7), CMAX, which follows from
LMAX, and the named constants of R5 and R9. The spec leaves no value of the engine open (93_implementation_defined.md,
part 1), so there is no opaque constant here. -/

namespace Sys2Proof

/-- The open parameters of the engine with the ranges R6 and R7 give them; the default values are the spec's.
The bounds travel with the numbers, so a configuration outside them cannot be written down. -/
structure Config where
  /-- LMAX, the largest byte length (R6). -/
  lmax : Nat := 32
  /-- DOMAIN, the number of entries of the reverse table (R7). -/
  domain : Nat := 128
  lmax_pos : 1 ≤ lmax := by decide
  lmax_le : lmax ≤ 512 := by decide
  domain_ge : 2 ≤ domain := by decide
  domain_le : domain ≤ 256 := by decide
  deriving DecidableEq, Repr

/-- CMAX = 8 × LMAX, the capacity of the digit buffer and of the string buffer (R6). -/
def Config.cmax (c : Config) : Nat := 8 * c.lmax

/-- LMAX = 32, DOMAIN = 128 (R6, R7). -/
def Config.standard : Config := {}

/-- NMIN, the least radix (R5). -/
def radixMin : Nat := 2

/-- NMAX, the largest radix (R5). -/
def radixMax : Nat := 255

/-- INVALID, the sentinel of the reverse table; never a digit (R9, R36). -/
def invalidMark : Byte := 0xFF#8

end Sys2Proof
end

