-- ==== Sys2Proof/Machine/State.lean ====
section
/-! DEFINITION. The state of the machine as plain data: everything R20 lists (the five buffers in one memory), the
parameters of R16, and the model's own view of the host (the events presented, the last response). The reset values
are those of R42. -/

namespace Sys2Proof.Machine

/-- The outcome code ERR holds (R200). Codes 9 to 15 never occur, so the type has nine values
(93_implementation_defined.md, part 2); `ErrCode.code` gives the number. -/
inductive ErrCode where
  /-- 0, OK -/
  | ok
  /-- 1, ERR_CONSTRUCT -/
  | construct
  /-- 2, ERR_INVCHAR -/
  | invchar
  /-- 3, ERR_OVERFLOW -/
  | overflow
  /-- 4, ERR_INVLEN -/
  | invlen
  /-- 5, ERR_NOALPHA -/
  | noalpha
  /-- 6, ERR_BADARG -/
  | badarg
  /-- 7, ERR_ILLCMD -/
  | illcmd
  /-- 8, ERR_CAPACITY -/
  | capacity
  deriving DecidableEq, Repr

/-- The five buffers and tables (R32 to R36). -/
inductive Buf where
  /-- BB, the byte buffer (R32) -/
  | bb
  /-- DB, the digit buffer (R33) -/
  | db
  /-- SB, the string buffer (R34) -/
  | sb
  /-- FWD, the forward table (R35) -/
  | fwd
  /-- REV, the reverse table (R36) -/
  | rev
  deriving DecidableEq, Repr

/-- The response code of a host transaction (R12). -/
inductive Resp where
  | okay
  | slverr
  deriving DecidableEq, Repr

/-- What a transaction gives back: a read gives a response and data (R61), a write a response (R62). -/
inductive Reply where
  | read (resp : Resp) (data : Word)
  | write (resp : Resp)
  deriving DecidableEq, Repr

/-- What the outside world does to the engine: the two transactions of R12 and the reset event of R230. -/
inductive Event where
  | hostRead (addr : Half)
  | hostWrite (addr : Half) (data : Word)
  | reset
  deriving DecidableEq, Repr

/-- The contents of the buffers: (host word address, element) pairs of R64, in the canonical form `Memory.wf`. -/
abbrev Memory := List Host.Cell

/-- The machine. The comment of each field names the rule that gives it. -/
structure State where
  /-- the parameters LMAX and DOMAIN (R6, R7); configuration, never changed -/
  cfg : Config
  /-- ERR (R22) -/
  err : ErrCode
  /-- AVALID (R22) -/
  avalid : Bool
  /-- WVALID (R22) -/
  wvalid : Bool
  /-- N, the radix (R23) -/
  n : Byte
  /-- L, the byte length (R24) -/
  l : Half
  /-- W, the cached padded width (R25) -/
  w : Half
  /-- UB, the cached upper bound (R26) -/
  ub : Half
  /-- DLEN, the number of digits held (R27) -/
  dlen : Half
  /-- SLEN, the number of characters held (R28) -/
  slen : Half
  /-- CARRY, the carry left by the last inject (R29) -/
  carry : Byte
  /-- BB, DB, SB, FWD and REV (R32 to R36) -/
  mem : Memory
  /-- the model's own: events presented and not yet taken, oldest first. DESIGN CHOICE, log entry 1 -/
  pending : List Event
  /-- the model's own: the response to the last transaction. DESIGN CHOICE, log entry 1 -/
  reply : Option Reply
  deriving DecidableEq, Repr

/-- Why a step stops. None of these can happen in a state that meets the invariants of R41, which is what R78 and R131
say; each marks a use the spec gives no behaviour for. All are safe: the model stops where no run of the hardware is. -/
inductive Fault where
  /-- Raised by the block operations on a buffer (`readElems`, `storeElems`) and by `fwdElem` when an element number
  lies at or beyond the buffer's size: "An index out of range cannot occur and the hardware has no behaviour for it"
  (R78). Safe. Log entry 5. -/
  | elementOutOfRange
  /-- Raised by the encode inject when the divmod engine is given operands outside its contract (R130; U2 of
  93_implementation_defined.md): the outputs are unspecified and unreachable. Safe. Log entry 6. -/
  | divmodContract
  /-- Raised by the width computation when the upper bound is asked for outside its domain 2 ≤ N, L ≤ 512 (R190,
  R191). Safe. Log entry 6. -/
  | boundDomain
  deriving DecidableEq, Repr

/-- Why the model gives no meaning. -/
inductive Refusal where
  /-- Raised by an arm of `exec` whose instruction has no meaning yet; no arm of this model raises it. Safe. -/
  | notModelled (mnemonic : String)
  deriving DecidableEq, Repr

/-- The state after reset (R42) of an engine with parameters `c`: every register 0, AVALID and WVALID 0, and every
buffer element at its reset value, so that the memory lists nothing (log entry 4). -/
def State.resetWith (c : Config) : State :=
  { cfg := c, err := .ok, avalid := false, wvalid := false, n := 0, l := 0, w := 0, ub := 0, dlen := 0, slen := 0,
    carry := 0, mem := [], pending := [], reply := none }

/-- The state after reset (R42) with the default parameters of R6 and R7 (log entry 3). -/
def State.reset : State := State.resetWith Config.standard

end Sys2Proof.Machine
end

