-- ==== Sys2Proof/Machine/Ops.lean ====
section
/-! DEFINITION. The named operations over memory and registers: the buffers as one memory in canonical form (R64),
block access to a buffer with its range check (R11, R78), the three groups of writes of R39, and the failure primitive
of R13, which is all the engine has in the place of an exception (R205). -/

namespace Sys2Proof.Machine

/-! ### Memory -/

/-- What an address that the memory does not list reads as: the reset contents of R42, 0xFF in the REV window and 0 in
the other four (log entry 4). -/
def Memory.unlisted (a : Nat) : Byte :=
  if 0x5000 ≤ a ∧ a < 0x6000 then invalidMark else 0#8

/-- The element at a word address. -/
def Memory.read : Memory → Nat → Byte
  | [], a => Memory.unlisted a
  | (b, v) :: m, a => if a = b then v else Memory.read m a

/-- The list with an entry for address `a` before the first higher address. -/
def Memory.insert (a : Nat) (v : Byte) : Memory → Memory
  | [] => [(a, v)]
  | (b, x) :: m => if a < b then (a, v) :: (b, x) :: m else (b, x) :: Memory.insert a v m

/-- Store one element, keeping the canonical form: the address is listed only where its element differs from what an
unlisted address reads as. -/
def Memory.write (m : Memory) (a : Nat) (v : Byte) : Memory :=
  let others : Memory := m.filter fun c => c.1 != a
  if v = Memory.unlisted a then others else Memory.insert a v others

/-- Store consecutive elements from address `a` up. -/
def Memory.store : Memory → Nat → List Byte → Memory
  | m, _, [] => m
  | m, a, v :: vs => Memory.store (Memory.write m a v) (a + 1) vs

/-- Put `k` consecutive elements from address `a` up back to their reset contents. -/
def Memory.restore (m : Memory) (a k : Nat) : Memory :=
  m.filter fun c => !(decide (a ≤ c.1) && decide (c.1 < a + k))

/-- The canonical form: addresses strictly rising, and no entry equal to what an unlisted address reads as. -/
abbrev Memory.wf (m : Memory) : Prop :=
  m.Pairwise (fun c d => c.1 < d.1) ∧ ∀ c ∈ m, c.2 ≠ Memory.unlisted c.1

/-! ### Buffers -/

/-- The word address of element 0 (R64). -/
def Buf.base : Buf → Nat
  | .bb => 0x1000
  | .db => 0x2000
  | .sb => 0x3000
  | .fwd => 0x4000
  | .rev => 0x5000

/-- The number of elements (R20). -/
def Buf.size (c : Config) : Buf → Nat
  | .bb => c.lmax
  | .db => c.cmax
  | .sb => c.cmax
  | .fwd => 255
  | .rev => c.domain

/-- Element `i` of a buffer: `BB[i]`, `DB[i]`, `SB[i]`, `FWD[i]`, `REV[i]` (R11). -/
def State.elem (s : State) (b : Buf) (i : Nat) : Byte := s.mem.read (b.base + i)

/-- Elements 0 to k − 1 of a buffer, in index order. -/
def State.elems (s : State) (b : Buf) (k : Nat) : List Byte := (List.range k).map (s.elem b)

/-- What a command computes: the state it leaves, or the fault of a use the spec gives no behaviour for. -/
abbrev Run := Except Fault State

/-- Read elements 0 to k − 1; every one must exist (R78). -/
def readElems (b : Buf) (k : Nat) (s : State) : Except Fault (List Byte) :=
  if k ≤ b.size s.cfg then .ok (s.elems b k) else .error .elementOutOfRange

/-- Write elements 0 to k − 1, k the length of the list; every one must exist (R78). -/
def storeElems (b : Buf) (vs : List Byte) (s : State) : Run :=
  if vs.length ≤ b.size s.cfg then .ok { s with mem := s.mem.store b.base vs } else .error .elementOutOfRange

/-- Put every element of a buffer back to its reset value: `BB[0..LMAX-1] <- 0`, `DB[0..CMAX-1] <- 0`,
`REV[0..DOMAIN-1] <- 0xFF`. -/
def restoreBuf (b : Buf) (s : State) : State :=
  { s with mem := s.mem.restore b.base (b.size s.cfg) }

/-- `reverse X[0..k-1]` (R11). -/
def reverseElems (b : Buf) (k : Nat) (s : State) : Run := do
  let xs ← readElems b k s
  storeElems b xs.reverse s

/-- `BB[0..L-1] <- 0` (R167). -/
def zeroBytes (s : State) : Run := storeElems .bb (List.replicate s.l.toNat 0#8) s

/-! ### The groups of writes of R39 -/

/-- `invalidate_width()` (R39). -/
def invalidateWidth (s : State) : State := { s with wvalid := false, w := 0, ub := 0 }

/-- `clear_digits()` (R39). -/
def clearDigits (s : State) : State := { restoreBuf .db s with dlen := 0 }

/-- `invalidate_alphabet()` (R39). -/
def invalidateAlphabet (s : State) : State :=
  clearDigits (invalidateWidth (restoreBuf .rev { s with avalid := false, n := 0 }))

/-! ### The end of a command

There is no trap and no trap return (R205, R206): a failing command sets ERR and ends, the write to CMD returns OKAY,
and the next command overwrites ERR. -/

/-- `fail E`: set ERR and end; every state change made before it stands (R13). -/
def fail (e : ErrCode) (s : State) : State := { s with err := e }

/-- The end of a command that did not fail: `ERR <- 0` (R13). -/
def finish (s : State) : State := { s with err := .ok }

/-- What a command computed, as the outcome of a step. -/
def conclude : Run → Host.Outcome State Fault Refusal
  | .ok s => .next s
  | .error f => .fault f

end Sys2Proof.Machine
end

