-- ==== Sys2Proof/Machine/Operands.lean ====
section
/-! DEFINITION. The four uses of the immediate and their range checks (R92), each `none` where the operand is out of
range. The checks come after decoding and after the alphabet check (R101). -/

namespace Sys2Proof.Machine

/-- SETL's byte length: l ≤ LMAX (R92, R111). -/
def lengthOperand (l : Nat) (s : State) : Option Half :=
  if l ≤ s.cfg.lmax then some (BitVec.ofNat 16 l) else none

/-- ABUILD's character count: 2 ≤ n ≤ 255 (R92, R113). -/
def countOperand (n : Nat) : Option Byte :=
  if radixMin ≤ n ∧ n ≤ radixMax then some (BitVec.ofNat 8 n) else none

/-- EINJ's byte: b ≤ 255 (R92, R135). -/
def byteOperand (b : Nat) : Option Byte :=
  if b ≤ 255 then some (BitVec.ofNat 8 b) else none

/-- DINJ's digit: d < N, which covers d > 255 (R92, R165). -/
def digitOperand (d : Nat) (s : State) : Option Byte :=
  if d < s.n.toNat then some (BitVec.ofNat 8 d) else none

end Sys2Proof.Machine
end

