-- ==== Sys2Proof/Machine/Flags.lean ====
section
/-! DEFINITION. ERR, AVALID and WVALID: the numbers of the outcome codes (R200), the STATUS word (R22) and the alphabet
check common to eight commands (R31, R101). The engine has no arithmetic condition codes (R31). -/

namespace Sys2Proof.Machine

/-- The number of an outcome code (R200). -/
def ErrCode.code : ErrCode → BitVec 4
  | .ok => 0
  | .construct => 1
  | .invchar => 2
  | .overflow => 3
  | .invlen => 4
  | .noalpha => 5
  | .badarg => 6
  | .illcmd => 7
  | .capacity => 8

/-- STATUS: ERR in bits 3:0, AVALID in bit 4, WVALID in bit 5, the rest 0 (R22). -/
def State.statusWord (s : State) : Word :=
  0#26 ++ BitVec.ofBool s.wvalid ++ BitVec.ofBool s.avalid ++ s.err.code

/-- `if AVALID = 0: fail ERR_NOALPHA`, with no other state change (R101). -/
def withAlphabet (s : State) (body : Run) : Run :=
  if s.avalid then body else .ok (fail .noalpha s)

end Sys2Proof.Machine
end

