-- ==== Sys2Proof/Machine/Units.lean ====
section
/-! DEFINITION. The arithmetic of the engine, without state: the divmod engine (R130), the multiply-accumulate unit
(R160), the passes over a digit list and a byte list that use them (R132, R162), and the length functions (R190, R191).
Each computes on naturals and narrows to the port's width at the end. -/

namespace Sys2Proof.Machine

/-- The divmod engine (R130): quotient and remainder of a 16-bit dividend by an 8-bit divisor, `none` outside the
contract n ≥ 2, a < 256 × n, where the outputs are unspecified (R131, U2; log entry 6). -/
def divmod (a : Half) (n : Byte) : Option (Byte × Byte) :=
  if 2 ≤ n.toNat ∧ a.toNat < 256 * n.toNat then
    some (BitVec.ofNat 8 (a.toNat / n.toNat), BitVec.ofNat 8 (a.toNat % n.toNat))
  else none

/-- The multiply-accumulate unit (R160): low byte and carry byte of b × n + c. -/
def mac (b n c : Byte) : Byte × Byte :=
  let v := b.toNat * n.toNat + c.toNat
  (BitVec.ofNat 8 (v % 256), BitVec.ofNat 8 (v / 256))

/-- The position loop of the encode inject (R132): from the least significant digit up, the dividend is the digit in
the high byte and the carry in the low byte. Gives the new digits and the carry out. -/
def encPositions (n : Byte) : Byte → List Byte → Option (List Byte × Byte)
  | c, [] => some ([], c)
  | c, d :: ds => do
    let (q, r) ← divmod (d ++ c) n
    let (rs, c') ← encPositions n q ds
    return (r :: rs, c')

/-- The append loop of the encode inject (R132): `room` is CMAX − DLEN. Gives the appended digits and the carry left. -/
def encAppend (n : Byte) : Nat → Byte → Option (List Byte × Byte)
  | 0, c => some ([], c)
  | room + 1, c =>
    if c = 0#8 then some ([], c)
    else do
      let (q, r) ← divmod (0#8 ++ c) n
      let (rs, c') ← encAppend n room q
      return (r :: rs, c')

/-- One encode inject on the digits held (R132): multiply by 256 and add the byte `b`. -/
def encDigits (n b : Byte) (room : Nat) (ds : List Byte) : Option (List Byte × Byte) := do
  let (rs, c) ← encPositions n b ds
  let (as, c') ← encAppend n room c
  return (rs ++ as, c')

/-- One decode inject on the bytes held (R162): from the least significant byte up. Gives the new bytes and the carry
out. -/
def decBytes (n : Byte) : Byte → List Byte → List Byte × Byte
  | c, [] => ([], c)
  | c, b :: bs =>
    let (lo, hi) := mac b n c
    let (los, c') := decBytes n hi bs
    (lo :: los, c')

/-- `bitwidth(n)` for n ≥ 1: one more than the index of the most significant 1 bit (R190). -/
def bitwidth (n : Nat) : Nat := Nat.log2 n + 1

/-- `ub(L, N)` (R191): ceil(8 × L / fl) with fl = bitwidth(N) − 1 (90_conflicts.md C8), `none` outside the ranges R190
and R191 give it, 2 ≤ N and L ≤ 512. -/
def upperBound (l n : Nat) : Option Half :=
  if 2 ≤ n ∧ l ≤ 512 then
    let fl := bitwidth n - 1
    some (BitVec.ofNat 16 ((8 * l + fl - 1) / fl))
  else none

end Sys2Proof.Machine
end

