-- ==== Sys2Proof/Machine/Sequencer.lean ====
section
/-! DEFINITION. The digit sequencer's operations on the state that several commands share: `enc_inject` (R132),
`dec_inject` (R162), `width_compute` (R192), the alphabet lookups `fwd` and `lookup` (R114, R115), and the loops over
input bytes and characters. A command is atomic to the host (R90), so a loop over a buffer is written as: read the
elements, compute, write them back (log entry 8). -/

namespace Sys2Proof.Machine

/-! ### Alphabet -/

/-- `fwd(d) = FWD[d]` (R115); FWD has 255 elements. -/
def fwdElem (s : State) (d : Byte) : Except Fault Byte :=
  if d.toNat < Buf.fwd.size s.cfg then .ok (s.elem .fwd d.toNat) else .error .elementOutOfRange

/-- `lookup(c)` (R114): the digit of a character code, `none` for the verdict *invalid*. -/
def lookup (s : State) (c : Byte) : Option Byte :=
  if s.cfg.domain ≤ c.toNat then none
  else if s.elem .rev c.toNat = invalidMark then none
  else some (s.elem .rev c.toNat)

/-- The loop of ABUILD (R113): enter the characters from digit `i` up into REV; `none` where one is outside the domain
or already entered. -/
def enterChars : Nat → List Byte → State → Option State
  | _, [], s => some s
  | i, c :: cs, s =>
    if s.cfg.domain ≤ c.toNat then none
    else if s.elem .rev c.toNat ≠ invalidMark then none
    else enterChars (i + 1) cs { s with mem := s.mem.write (Buf.rev.base + c.toNat) (BitVec.ofNat 8 i) }

/-- `SB[i] <- FWD[DB[i]]` for i < k, then `SLEN <- k` (R137, R138, R139). -/
def mapDigits (k : Half) (s : State) : Run := do
  let ds ← readElems .db k.toNat s
  let cs ← ds.mapM (fwdElem s)
  let s ← storeElems .sb cs s
  return { s with slen := k }

/-! ### Encode -/

/-- `enc_inject(b)` (R132). -/
def encInject (b : Byte) (s : State) : Run := do
  let ds ← readElems .db s.dlen.toNat s
  match encDigits s.n b (s.cfg.cmax - s.dlen.toNat) ds with
  | none => .error .divmodContract
  | some (ds', c) =>
    let s ← storeElems .db ds' s
    return { s with dlen := BitVec.ofNat 16 ds'.length, carry := c }

/-- `enc_inject` of every byte of a list, in order. -/
def encInjectAll : List Byte → State → Run
  | [], s => .ok s
  | b :: bs, s => do
    let s ← encInject b s
    encInjectAll bs s

/-- `width_compute()` (R192): encode L bytes of 0xFF from a clear digit buffer and measure. -/
def widthCompute (s : State) : Run :=
  match upperBound s.l.toNat s.n.toNat with
  | none => .error .boundDomain
  | some u => do
    let s ← encInjectAll (List.replicate s.l.toNat 0xFF#8) (clearDigits { s with ub := u, carry := 0 })
    return { s with w := s.dlen, wvalid := true }

/-- `if WVALID = 0: width_compute()` (R138, R167). -/
def ensureWidth (s : State) : Run := if s.wvalid then .ok s else widthCompute s

/-- The accumulation of ENCF and ENCM (R138, R139): `CARRY <- 0`, `clear_digits()`, then inject BB[0..L−1] from the most
significant byte down. -/
def accumulateBytes (s : State) : Run := do
  let bytes ← readElems .bb s.l.toNat s
  encInjectAll bytes (clearDigits { s with carry := 0 })

/-! ### Decode -/

/-- `dec_inject(d)` (R162). -/
def decInject (d : Byte) (s : State) : Run := do
  let bs ← readElems .bb s.l.toNat s
  let (bs', c) := decBytes s.n d bs
  let s ← storeElems .bb bs' s
  return { s with carry := c }

/-- The character loop of DECF and DECM and what follows it (R167, R168): the first character that fails decides the
error, its lookup before its inject; a failure clears BB[0..L−1]; success leaves big-endian order. -/
def decodeChars : List Byte → State → Run
  | [], s => do
    let s ← reverseElems .bb s.l.toNat s
    return finish s
  | c :: cs, s =>
    match lookup s c with
    | none => do
      let s ← zeroBytes s
      return fail .invchar s
    | some d => do
      let s ← decInject d s
      if s.carry ≠ 0#8 then
        let s ← zeroBytes s
        return fail .overflow s
      else decodeChars cs s

end Sys2Proof.Machine
end

