-- ==== Sys2Proof/Machine/ConfigCommands.lean ====
section
/-! DEFINITION. The configuration commands NOP, SETL and ABUILD (40_config_alphabet.md). -/

namespace Sys2Proof.Machine

/-- NOP (R110): ERR <- 0 and nothing else. -/
def execNop (s : State) : Host.Outcome State Fault Refusal := conclude (.ok (finish s))

/-- SETL l (R111). -/
def execSetl (l : Nat) (s : State) : Host.Outcome State Fault Refusal :=
  conclude <| .ok <|
    match lengthOperand l s with
    | none => fail .badarg s
    | some v => finish (invalidateWidth { s with l := v })

/-- The failing end of ABUILD (R113): no alphabet is held. -/
def dropAlphabet (s : State) : State :=
  fail .construct { restoreBuf .rev s with n := 0, avalid := false }

/-- ABUILD n (R113). -/
def execAbuild (n : Nat) (s : State) : Host.Outcome State Fault Refusal :=
  let s := restoreBuf .rev (clearDigits (invalidateWidth s))
  conclude <|
    match countOperand n with
    | none => .ok (dropAlphabet s)
    | some r => do
      let chars ← readElems .fwd n s
      match enterChars 0 chars s with
      | none => return dropAlphabet s
      | some t => return finish { t with n := r, avalid := true }

end Sys2Proof.Machine
end

