-- ==== Sys2Proof/Machine/DecodeCommands.lean ====
section
/-! DEFINITION. The digit-to-byte commands BCLR, DINJ, BREV, DECF and DECM (42_decode.md). -/

namespace Sys2Proof.Machine

/-- BCLR (R164): all LMAX elements. -/
def execBclr (s : State) : Host.Outcome State Fault Refusal := conclude (.ok (finish (restoreBuf .bb s)))

/-- DINJ d (R165). On ERR_OVERFLOW BB keeps the wrapped value and CARRY the overflow. -/
def execDinj (d : Nat) (s : State) : Host.Outcome State Fault Refusal :=
  conclude <| withAlphabet s <|
    match digitOperand d s with
    | none => .ok (fail .badarg s)
    | some v => do
      let s ← decInject v s
      if s.carry ≠ 0#8 then return fail .overflow s else return finish s

/-- BREV (R166). -/
def execBrev (s : State) : Host.Outcome State Fault Refusal :=
  conclude do
    let s ← reverseElems .bb s.l.toNat s
    return finish s

/-- DECF, `decode_fixed` (R167): the length test comes after the width computation and the clearing of BB[0..L−1], and
before any character is examined. -/
def execDecf (s : State) : Host.Outcome State Fault Refusal :=
  conclude <| withAlphabet s do
    let s ← ensureWidth s
    let s ← zeroBytes { s with carry := 0 }
    if s.slen ≠ s.w then return fail .invlen s
    else
      let cs ← readElems .sb s.slen.toNat s
      decodeChars cs s

/-- DECM, `decode_minimal` (R168): no width and no length test. -/
def execDecm (s : State) : Host.Outcome State Fault Refusal :=
  conclude <| withAlphabet s do
    let s ← zeroBytes { s with carry := 0 }
    let cs ← readElems .sb s.slen.toNat s
    decodeChars cs s

end Sys2Proof.Machine
end

