-- ==== Sys2Proof/Machine/EncodeCommands.lean ====
section
/-! DEFINITION. The byte-to-digit commands DCLR, EINJ, DREV, DMAP, ENCF and ENCM (41_encode.md). -/

namespace Sys2Proof.Machine

/-- DCLR (R134). -/
def execDclr (s : State) : Host.Outcome State Fault Refusal := conclude (.ok (finish (clearDigits s)))

/-- EINJ b (R135). On ERR_CAPACITY DB, DLEN and CARRY keep what the inject left. -/
def execEinj (b : Nat) (s : State) : Host.Outcome State Fault Refusal :=
  conclude <| withAlphabet s <|
    match byteOperand b with
    | none => .ok (fail .badarg s)
    | some v => do
      let s ← encInject v s
      if s.carry ≠ 0#8 then return fail .capacity s else return finish s

/-- DREV (R136). -/
def execDrev (s : State) : Host.Outcome State Fault Refusal :=
  conclude do
    let s ← reverseElems .db s.dlen.toNat s
    return finish s

/-- DMAP (R137). -/
def execDmap (s : State) : Host.Outcome State Fault Refusal :=
  conclude <| withAlphabet s do
    let s ← mapDigits s.dlen s
    return finish s

/-- ENCF, `encode_fixed` (R138): the digits of BB[0..L−1], padded with zero digits to the width W. -/
def execEncf (s : State) : Host.Outcome State Fault Refusal :=
  conclude <| withAlphabet s do
    let s ← ensureWidth s
    let s ← accumulateBytes s
    let s ← reverseElems .db s.w.toNat { s with dlen := s.w }
    let s ← mapDigits s.w s
    return finish s

/-- ENCM, `encode_minimal` (R139): the digits of BB[0..L−1] with no leading zero digit; the width cache is not used. -/
def execEncm (s : State) : Host.Outcome State Fault Refusal :=
  conclude <| withAlphabet s do
    let s ← accumulateBytes s
    let s ← reverseElems .db s.dlen.toNat s
    let s ← mapDigits s.dlen s
    return finish s

end Sys2Proof.Machine
end

