-- ==== Sys2Proof/Machine/LengthCommands.lean ====
section
/-! DEFINITION. The length command PWIDTH (43_length.md). -/

namespace Sys2Proof.Machine

/-- PWIDTH, `padded_width` (R193): the width computation runs whether or not WVALID is already 1. -/
def execPwidth (s : State) : Host.Outcome State Fault Refusal :=
  conclude <| withAlphabet s do
    let s ← widthCompute s
    return finish s

end Sys2Proof.Machine
end

