-- ==== Sys2Proof/Syntax.lean ====
section
/-! DEFINITION. The RCE command set, version 1.0: one constructor per row of spec/opcode_table.json (R93). -/

namespace Sys2Proof

/-- A command. The operand of a format I command is the number written in the statement of R98; the encoding admits
0 to 65535 (`Instr.WellFormed`), and the range checks of R92 come after decoding. -/
inductive Instr where
  /-- NOP (R110). -/
  | nop
  /-- SETL l, set the byte length (R111). -/
  | setl (l : Nat)
  /-- ABUILD n, construct the alphabet (R113). -/
  | abuild (n : Nat)
  /-- DCLR, clear the digit buffer (R134). -/
  | dclr
  /-- BCLR, clear the byte buffer (R164). -/
  | bclr
  /-- EINJ b, inject a byte into the digit accumulator (R135). -/
  | einj (b : Nat)
  /-- DINJ d, inject a digit into the byte accumulator (R165). -/
  | dinj (d : Nat)
  /-- DREV, reverse the digit buffer (R136). -/
  | drev
  /-- BREV, reverse the byte buffer (R166). -/
  | brev
  /-- DMAP, map digits to characters (R137). -/
  | dmap
  /-- PWIDTH, the padded width (R193). -/
  | pwidth
  /-- ENCF, encode_fixed (R138). -/
  | encf
  /-- ENCM, encode_minimal (R139). -/
  | encm
  /-- DECF, decode_fixed (R167). -/
  | decf
  /-- DECM, decode_minimal (R168). -/
  | decm
  deriving DecidableEq, Repr

/-- The mnemonic of R93. -/
def Instr.mnemonic : Instr → String
  | .nop => "NOP"
  | .setl _ => "SETL"
  | .abuild _ => "ABUILD"
  | .dclr => "DCLR"
  | .bclr => "BCLR"
  | .einj _ => "EINJ"
  | .dinj _ => "DINJ"
  | .drev => "DREV"
  | .brev => "BREV"
  | .dmap => "DMAP"
  | .pwidth => "PWIDTH"
  | .encf => "ENCF"
  | .encm => "ENCM"
  | .decf => "DECF"
  | .decm => "DECM"

end Sys2Proof
end

