-- ==== Sys2Proof/Machine/Dispatch.lean ====
section
/-! DEFINITION. One arm per command of R93; each is one call of the command's meaning. -/

namespace Sys2Proof.Machine

def exec (i : Instr) (s : State) : Host.Outcome State Fault Refusal :=
  match i with
  | .nop => Sys2Proof.Machine.execNop s
  | .setl l => Sys2Proof.Machine.execSetl l s
  | .abuild n => Sys2Proof.Machine.execAbuild n s
  | .dclr => Sys2Proof.Machine.execDclr s
  | .bclr => Sys2Proof.Machine.execBclr s
  | .einj b => Sys2Proof.Machine.execEinj b s
  | .dinj d => Sys2Proof.Machine.execDinj d s
  | .drev => Sys2Proof.Machine.execDrev s
  | .brev => Sys2Proof.Machine.execBrev s
  | .dmap => Sys2Proof.Machine.execDmap s
  | .pwidth => Sys2Proof.Machine.execPwidth s
  | .encf => Sys2Proof.Machine.execEncf s
  | .encm => Sys2Proof.Machine.execEncm s
  | .decf => Sys2Proof.Machine.execDecf s
  | .decm => Sys2Proof.Machine.execDecm s

end Sys2Proof.Machine
end

