-- ==== Sys2Proof/WellFormed.lean ====
section
/-! DEFINITION. Which terms of `Instr` are commands of the engine: the operand of a format I statement must be 0 to
65535 (R98), since imm16 has 16 bits (R91, R92). A format Z command has no operand and nothing to check. -/

namespace Sys2Proof

/-- The operand fits the field imm16 (R92, R98). -/
abbrev OperandFits (v : Nat) : Prop := v ≤ 0xFFFF

/-- The term has an encoding (R94: every (command, operand) pair with operand ≤ 0xFFFF has exactly one word). -/
def Instr.wellFormed : Instr → Bool
  | .nop => true
  | .setl l => decide (OperandFits l)
  | .abuild n => decide (OperandFits n)
  | .dclr => true
  | .bclr => true
  | .einj b => decide (OperandFits b)
  | .dinj d => decide (OperandFits d)
  | .drev => true
  | .brev => true
  | .dmap => true
  | .pwidth => true
  | .encf => true
  | .encm => true
  | .decf => true
  | .decm => true

/-- `Instr.wellFormed` as a proposition. -/
abbrev Instr.WellFormed (i : Instr) : Prop := i.wellFormed = true

end Sys2Proof
end

