-- ==== Sys2Proof/Decode.lean ====
section
/-! DEFINITION. The decoder of R94, total on every 32-bit word and rejecting by name (R95), and after it the encoder
of R94 and the opcode table of R93. The command word is one 32-bit value on the host's data bus: there is no byte
order and no second word (R69, R97). -/

namespace Sys2Proof

/-- Why a word is an illegal command (R95). The engine reports one code for all of them. -/
inductive Reject where
  /-- bits 15:8 are not zero -/
  | zero8
  /-- a format Z opcode with bits 31:16 not zero -/
  | zero16
  /-- the opcode is not one of the fifteen of R93 -/
  | opcode
  deriving DecidableEq, Repr

/-- opcode = w[7:0] (R91). -/
def opcodeField (w : Word) : Byte := w.extractLsb' 0 8

/-- zero8 = w[15:8] (R91). -/
def zero8Field (w : Word) : Byte := w.extractLsb' 8 8

/-- imm16 (format I) or zero16 (format Z) = w[31:16] (R91, R92). -/
def highField (w : Word) : Half := w.extractLsb' 16 16

/-- A format Z command: bits 31:16 must be zero (R94). -/
def formatZ (w : Word) (i : Instr) : Except Reject Instr :=
  if highField w ≠ 0 then .error .zero16 else .ok i

/-- A format I command: imm16 is used as it is, unsigned (R92). -/
def formatI (w : Word) (mk : Nat → Instr) : Except Reject Instr :=
  .ok (mk (highField w).toNat)

/-- Decode of one command word (R94). -/
def decode (w : Word) : Except Reject Instr :=
  if zero8Field w ≠ 0 then .error .zero8
  else match (opcodeField w).toNat with
    | 0x01 => formatI w .setl
    | 0x02 => formatI w .abuild
    | 0x0A => formatI w .einj
    | 0x0B => formatI w .dinj
    | 0x00 => formatZ w .nop
    | 0x08 => formatZ w .dclr
    | 0x09 => formatZ w .bclr
    | 0x0C => formatZ w .drev
    | 0x0D => formatZ w .brev
    | 0x0E => formatZ w .dmap
    | 0x10 => formatZ w .pwidth
    | 0x20 => formatZ w .encf
    | 0x21 => formatZ w .encm
    | 0x30 => formatZ w .decf
    | 0x31 => formatZ w .decm
    | _ => .error .opcode

/-- The instruction the decoder reads from a row's `nbits` bits `w`; every bit above them is zero. A word that does
not fit the engine's 32 bits is no command. -/
def decodeTableWord (nbits w : Nat) : Option Instr :=
  let v := w % 2 ^ nbits
  if v < 2 ^ 32 then (decode (BitVec.ofNat 32 v)).toOption else none

/-- The opcode of R93. -/
def Instr.opcode : Instr → Nat
  | .nop => 0x00
  | .setl _ => 0x01
  | .abuild _ => 0x02
  | .dclr => 0x08
  | .bclr => 0x09
  | .einj _ => 0x0A
  | .dinj _ => 0x0B
  | .drev => 0x0C
  | .brev => 0x0D
  | .dmap => 0x0E
  | .pwidth => 0x10
  | .encf => 0x20
  | .encm => 0x21
  | .decf => 0x30
  | .decm => 0x31

/-- The number imm16 or zero16 holds: the operand of a format I command, 0 in format Z (R91). -/
def Instr.operand : Instr → Nat
  | .nop => 0
  | .setl l => l
  | .abuild n => n
  | .dclr => 0
  | .bclr => 0
  | .einj b => b
  | .dinj d => d
  | .drev => 0
  | .brev => 0
  | .dmap => 0
  | .pwidth => 0
  | .encf => 0
  | .encm => 0
  | .decf => 0
  | .decm => 0

/-- encode(op) = op and encode(op, imm) = (imm << 16) | op (R94). -/
def encode (i : Instr) : Word :=
  (BitVec.ofNat 32 i.operand <<< 16) ||| BitVec.ofNat 32 i.opcode

/-- One row of the opcode map of R93. -/
structure OpcodeRow where
  mnemonic : String
  mask : Word
  pattern : Word
  deriving DecidableEq, Repr

/-- The opcode map of R93: a word is the row's command exactly when (w & mask) = match. -/
def opcodeTable : List OpcodeRow :=
  [⟨"NOP", 0xFFFFFFFF#32, 0x00000000#32⟩,
   ⟨"SETL", 0x0000FFFF#32, 0x00000001#32⟩,
   ⟨"ABUILD", 0x0000FFFF#32, 0x00000002#32⟩,
   ⟨"DCLR", 0xFFFFFFFF#32, 0x00000008#32⟩,
   ⟨"BCLR", 0xFFFFFFFF#32, 0x00000009#32⟩,
   ⟨"EINJ", 0x0000FFFF#32, 0x0000000A#32⟩,
   ⟨"DINJ", 0x0000FFFF#32, 0x0000000B#32⟩,
   ⟨"DREV", 0xFFFFFFFF#32, 0x0000000C#32⟩,
   ⟨"BREV", 0xFFFFFFFF#32, 0x0000000D#32⟩,
   ⟨"DMAP", 0xFFFFFFFF#32, 0x0000000E#32⟩,
   ⟨"PWIDTH", 0xFFFFFFFF#32, 0x00000010#32⟩,
   ⟨"ENCF", 0xFFFFFFFF#32, 0x00000020#32⟩,
   ⟨"ENCM", 0xFFFFFFFF#32, 0x00000021#32⟩,
   ⟨"DECF", 0xFFFFFFFF#32, 0x00000030#32⟩,
   ⟨"DECM", 0xFFFFFFFF#32, 0x00000031#32⟩]

end Sys2Proof
end

