-- ==== Sys2Proof/Machine/Port.lean ====
section
/-! DEFINITION. The host port: the address map (R64), HostRead and HostWrite (R61, R62) with every cause of SLVERR (R63),
the execution of a command word (R90), and the reset event (R230). `run` stands for the meaning of a decoded command;
Step.lean supplies it. -/

namespace Sys2Proof.Machine

/-- A location of the address map (R64). -/
inductive Location where
  | cmd
  | status
  | radix
  | len
  | width
  | ubound
  | dlen
  | slen
  | carry
  /-- element `i` of a buffer -/
  | elem (b : Buf) (i : Nat)
  /-- no location: SLVERR on read and on write -/
  | unmapped
  deriving DecidableEq, Repr

/-- Whether a word address is that of an existing element of the buffer (R64). -/
def Buf.holds (c : Config) (b : Buf) (a : Nat) : Bool :=
  decide (b.base ≤ a) && decide (a < b.base + b.size c)

/-- The location a word address names (R64). -/
def locate (c : Config) (addr : Half) : Location :=
  match addr.toNat with
  | 0x0000 => .cmd
  | 0x0001 => .status
  | 0x0002 => .radix
  | 0x0003 => .len
  | 0x0004 => .width
  | 0x0005 => .ubound
  | 0x0006 => .dlen
  | 0x0007 => .slen
  | 0x0008 => .carry
  | a =>
    match [Buf.bb, Buf.db, Buf.sb, Buf.fwd, Buf.rev].find? (fun b => b.holds c a) with
    | some b => .elem b (a - b.base)
    | none => .unmapped

/-- The value a read of the location gives, zero-extended to 32 bits (R61, R64); `none` where nothing is mapped. CMD
reads 0 (R30). -/
def readLocation (s : State) : Location → Option Word
  | .cmd => some 0
  | .status => some s.statusWord
  | .radix => some (s.n.setWidth 32)
  | .len => some (s.l.setWidth 32)
  | .width => some (s.w.setWidth 32)
  | .ubound => some (s.ub.setWidth 32)
  | .dlen => some (s.dlen.setWidth 32)
  | .slen => some (s.slen.setWidth 32)
  | .carry => some (s.carry.setWidth 32)
  | .elem b i => some ((s.elem b i).setWidth 32)
  | .unmapped => none

/-- `HostRead(addr)` (R61): a read changes no state of the engine (R68). -/
def hostRead (addr : Half) (s : State) : State :=
  match readLocation s (locate s.cfg addr) with
  | some v => { s with reply := some (.read .okay v) }
  | none => { s with reply := some (.read .slverr 0) }

/-- Whether the host may write elements of the buffer (R20, R64). -/
def Buf.hostWritable : Buf → Bool
  | .bb => true
  | .db => false
  | .sb => true
  | .fwd => true
  | .rev => false

/-- A host write to a buffer element: an element is stored only if the host may write it and the data fits 8 bits
(R63, R65); an accepted write to FWD also drops the alphabet (R67). -/
def writeElem (b : Buf) (i : Nat) (data : Word) (s : State) : Option State :=
  if b.hostWritable ∧ data.toNat ≤ 255 then
    let t := { s with mem := s.mem.write (b.base + i) (data.setWidth 8) }
    some (if b = .fwd then invalidateAlphabet t else t)
  else none

/-- A host write to SLEN: stored if data ≤ CMAX (R66). -/
def writeSlen (data : Word) (s : State) : Option State :=
  if data.toNat ≤ s.cfg.cmax then some { s with slen := data.setWidth 16 } else none

/-- A host write to a location other than CMD; `none` where the engine does not admit it (R62, R63). -/
def writeLocation (data : Word) (s : State) : Location → Option State
  | .slen => writeSlen data s
  | .elem b i => writeElem b i data s
  | .cmd => none
  | .status => none
  | .radix => none
  | .len => none
  | .width => none
  | .ubound => none
  | .dlen => none
  | .carry => none
  | .unmapped => none

/-- Execution of a command word (R90): an undecodable word sets ERR to ERR_ILLCMD and changes nothing else (R95). -/
def runWord (run : Instr → State → Host.Outcome State Fault Refusal) (w : Word) (s : State) :
    Host.Outcome State Fault Refusal :=
  match decode w with
  | .ok i => run i s
  | .error _ => .next (fail .illcmd s)

/-- `HostWrite(addr, data)` (R62). A write to CMD always returns OKAY and executes the word; a write the engine does not
admit returns SLVERR and changes no state (R63; log entry 7). -/
def hostWrite (run : Instr → State → Host.Outcome State Fault Refusal) (addr : Half) (data : Word) (s : State) :
    Host.Outcome State Fault Refusal :=
  match locate s.cfg addr with
  | .cmd => runWord run data { s with reply := some (.write .okay) }
  | loc =>
    match writeLocation data s loc with
    | some t => .next { t with reply := some (.write .okay) }
    | none => .next { s with reply := some (.write .slverr) }

/-- The reset event (R230): every piece of state at its reset value; the events still to come are the outside world's and
stay (log entry 10). -/
def resetEvent (s : State) : State := { State.resetWith s.cfg with pending := s.pending }

/-- One event of the outside world. -/
def takeEvent (run : Instr → State → Host.Outcome State Fault Refusal) (s : State) :
    Event → Host.Outcome State Fault Refusal
  | .hostRead addr => .next (hostRead addr s)
  | .hostWrite addr data => hostWrite run addr data s
  | .reset => .next (resetEvent s)

/-- One step: the oldest event, whole (R60, R74); with none the engine is idle and keeps all state (R220; log entry 2). -/
def portStep (run : Instr → State → Host.Outcome State Fault Refusal) (s : State) :
    Host.Outcome State Fault Refusal :=
  match s.pending with
  | [] => .next s
  | e :: rest => takeEvent run { s with pending := rest } e

/-- The event that issues a command word: a host write to CMD (R90). -/
def commandEvent (w : Word) : Event := .hostWrite 0x0000#16 w

end Sys2Proof.Machine
end

