-- ==== Sys2Proof/Machine/Step.lean ====
section
/-! DEFINITION. The step of the machine: one event of the outside world (R15, R60), with `exec` as the meaning of a
decoded command word. -/

namespace Sys2Proof.Machine

/-- One step. -/
def step (s : State) : Host.Outcome State Fault Refusal := portStep exec s

/-- The host presents, before everything still pending, the write to CMD of the command word whose low `nbits` bits are
`w` (R21: commands come one at a time from the host; log entry 1). -/
def State.withFetchWord (s : State) (nbits w : Nat) : State :=
  { s with pending := commandEvent (BitVec.ofNat 32 (w % 2 ^ nbits)) :: s.pending }

end Sys2Proof.Machine
end

