-- ==== Sys2Proof/Safety.lean ====
section
/-! DEFINITION. The terms claims use: the numeric value of a buffer (R14), the widths as mathematics (R190 to R192), the
invariants of R41, what a valid alphabet is (R112), and what a safe step is. None of it is used by the machine. -/

namespace Sys2Proof.Machine

/-! ### Numeric values (R14) -/

/-- The number a list of digits spells in base `base`, least significant first: valLE for bytes and base 256, dvalLE for
digits and base N (R14). -/
def valueLE (base : Nat) : List Byte → Nat
  | [] => 0
  | d :: ds => d.toNat + base * valueLE base ds

/-- The number a list of digits spells in base `base`, most significant first: valBE and dvalBE (R14). -/
def valueBE (base : Nat) (ds : List Byte) : Nat := valueLE base ds.reverse

/-- valBE(BB, L) (R14). -/
def State.bytesBE (s : State) : Nat := valueBE 256 (s.elems .bb s.l.toNat)

/-- valLE(BB, L) (R14). -/
def State.bytesLE (s : State) : Nat := valueLE 256 (s.elems .bb s.l.toNat)

/-- dvalBE(DB, DLEN, N) (R14). -/
def State.digitsBE (s : State) : Nat := valueBE s.n.toNat (s.elems .db s.dlen.toNat)

/-- dvalLE(DB, DLEN, N) (R14). -/
def State.digitsLE (s : State) : Nat := valueLE s.n.toNat (s.elems .db s.dlen.toNat)

/-- 256^L, one more than the largest L-byte value. -/
def State.byteLimit (s : State) : Nat := 256 ^ s.l.toNat

/-- The encoded string SB[0..SLEN−1] (R18, R34). -/
def State.text (s : State) : List Byte := s.elems .sb s.slen.toNat

/-- The characters are the spelling of the digits: each looks up as its digit (R114, R169). -/
abbrev State.Spells (s : State) (chars digits : List Byte) : Prop :=
  chars.map (lookup s) = digits.map some

/-! ### Widths -/

/-- padded_width(L, N): the number of base-N digits of 256^L − 1, and 0 for L = 0 (R192). -/
def paddedWidth (l n : Nat) : Nat := (Nat.digits n (256 ^ l - 1)).length

/-- ceil(L × 8 / floor(log2(N))) (R191). -/
def analyticBound (l n : Nat) : Nat := (l * 8 + Nat.log 2 n - 1) / Nat.log 2 n

/-! ### Alphabets -/

/-- FWD[0..n−1] is a valid alphabet of radix n (R112). -/
abbrev State.ValidAlphabet (s : State) (n : Nat) : Prop :=
  (2 ≤ n ∧ n ≤ 255)
    ∧ (∀ i < n, (s.elem .fwd i).toNat < s.cfg.domain)
    ∧ ∀ j < n, ∀ i < j, s.elem .fwd i ≠ s.elem .fwd j

/-- REV is the reverse of FWD[0..n−1] and INVALID elsewhere (R36, R41 I4). -/
abbrev State.ReverseOf (s : State) (n : Nat) : Prop :=
  (∀ d < n, s.elem .rev (s.elem .fwd d).toNat = BitVec.ofNat 8 d)
    ∧ ∀ c < s.cfg.domain, (∀ d < n, (s.elem .fwd d).toNat ≠ c) → s.elem .rev c = invalidMark

/-! ### The invariants of R41

I7's first sentence (CARRY ≤ 255) and I8 (ERR ≤ 8) hold by the types of `State.carry` and `State.err`. -/

/-- I1: with an alphabet every digit is below N. -/
abbrev State.DigitsBelowRadix (s : State) : Prop :=
  s.avalid = true → ∀ i < s.cfg.cmax, (s.elem .db i).toNat < s.n.toNat

/-- I2: DB is zero at and beyond DLEN. -/
abbrev State.DigitsPadded (s : State) : Prop :=
  ∀ i < s.cfg.cmax, s.dlen.toNat ≤ i → s.elem .db i = 0#8

/-- I3: what holds without an alphabet. -/
abbrev State.ClearedWithoutAlphabet (s : State) : Prop :=
  s.avalid = false →
    s.n = 0#8 ∧ s.dlen = 0#16 ∧ (∀ i < s.cfg.cmax, s.elem .db i = 0#8)
      ∧ (∀ c < s.cfg.domain, s.elem .rev c = invalidMark) ∧ s.wvalid = false

/-- I4: the alphabet held is valid and REV is its reverse; N ≤ min(255, DOMAIN). -/
abbrev State.AlphabetHeld (s : State) : Prop :=
  s.avalid = true → s.n.toNat ≤ s.cfg.domain ∧ s.ValidAlphabet s.n.toNat ∧ s.ReverseOf s.n.toNat

/-- I5: the width cache is exact, or empty. -/
abbrev State.WidthCacheExact (s : State) : Prop :=
  (s.wvalid = true →
      s.avalid = true ∧ s.w.toNat = paddedWidth s.l.toNat s.n.toNat
        ∧ s.ub.toNat = analyticBound s.l.toNat s.n.toNat
        ∧ s.w.toNat ≤ s.ub.toNat ∧ s.ub.toNat ≤ 8 * s.l.toNat ∧ 8 * s.l.toNat ≤ s.cfg.cmax)
    ∧ (s.wvalid = false → s.w = 0#16 ∧ s.ub = 0#16)

/-- I6: the lengths are within the buffers. -/
abbrev State.LengthsInRange (s : State) : Prop :=
  s.l.toNat ≤ s.cfg.lmax ∧ s.dlen.toNat ≤ s.cfg.cmax ∧ s.slen.toNat ≤ s.cfg.cmax

/-- The invariants I1 to I6 of R41. -/
abbrev State.Inv (s : State) : Prop :=
  s.DigitsBelowRadix ∧ s.DigitsPadded ∧ s.ClearedWithoutAlphabet ∧ s.AlphabetHeld ∧ s.WidthCacheExact
    ∧ s.LengthsInRange

/-- The part of R41 that concerns the alphabet alone: I4, and N = 0 and REV all INVALID without one (from I3). -/
abbrev State.AlphabetInv (s : State) : Prop :=
  s.AlphabetHeld ∧ (s.avalid = false → s.n = 0#8 ∧ ∀ c < s.cfg.domain, s.elem .rev c = invalidMark)

/-- Every address the memory lists is that of an existing element (R20, R64). -/
abbrev State.MemoryMapped (s : State) : Prop :=
  ∀ c ∈ s.mem, ∃ b ∈ [Buf.bb, Buf.db, Buf.sb, Buf.fwd, Buf.rev], b.holds s.cfg c.1 = true

/-! ### The host port -/

/-- Addresses of elements 0 to k − 1 of a buffer. -/
abbrev Buf.Within (b : Buf) (k a : Nat) : Prop := b.base ≤ a ∧ a < b.base + k

/-- The word addresses the map of R64 gives a location. -/
abbrev MappedAddress (c : Config) (a : Nat) : Prop :=
  a ≤ 0x0008 ∨ Buf.bb.Within c.lmax a ∨ Buf.db.Within c.cmax a ∨ Buf.sb.Within c.cmax a ∨ Buf.fwd.Within 255 a
    ∨ Buf.rev.Within c.domain a

/-- The causes of SLVERR on a write, in the order of R63: (a) an unmapped address, (b) a read-only location, (c) data
wider than 8 bits to an element of BB, SB or FWD, (d) data above CMAX to SLEN. -/
abbrev WriteNotAdmitted (c : Config) (a data : Nat) : Prop :=
  ¬ MappedAddress c a
    ∨ (a ∈ [0x0001, 0x0002, 0x0003, 0x0004, 0x0005, 0x0006, 0x0008] ∨ Buf.db.Within c.cmax a ∨ Buf.rev.Within c.domain a)
    ∨ ((Buf.bb.Within c.lmax a ∨ Buf.sb.Within c.cmax a ∨ Buf.fwd.Within 255 a) ∧ 255 < data)
    ∨ (a = 0x0007 ∧ c.cmax < data)

/-! ### Outcomes -/

/-- The step or command gives a next state. -/
def Completes (o : Host.Outcome State Fault Refusal) : Prop := ∃ t, o = .next t

/-- The engine's side of the state agrees but for the outcome code: what a command turned away leaves (R101, R202). -/
abbrev FailsWith (e : ErrCode) (i : Instr) (s : State) : Prop := exec i s = .next { s with err := e }

/-- Memory is unchanged but for elements 0 to k − 1 of a buffer. -/
abbrev SameOutside (b : Buf) (k : Nat) (m m' : Memory) : Prop := ∀ a, ¬ b.Within k a → m'.read a = m.read a

/-- What the width computation leaves in DB, `width` being the new DLEN: the digits of 256^L − 1, least significant
first, and zero beyond (R192). -/
abbrev State.WidthDigits (s : State) (width : Half) (m : Memory) : Prop :=
  ({ s with dlen := width, mem := m } : State).digitsLE = s.byteLimit - 1
    ∧ (∀ i < width.toNat, (m.read (0x2000 + i)).toNat < s.n.toNat)
    ∧ ∀ i, width.toNat ≤ i → i < s.cfg.cmax → m.read (0x2000 + i) = 0#8

/-- What DECF leaves in DLEN and in every element but BB[0..L−1]: with the width cached nothing changes, and without it DB
and DLEN are as the width computation leaves them (R167). -/
abbrev State.DecfLeaves (s : State) (width len : Half) (m : Memory) : Prop :=
  (s.wvalid = true → len = s.dlen ∧ SameOutside .bb s.l.toNat s.mem m)
    ∧ (s.wvalid = false → len = width ∧ s.WidthDigits width m
        ∧ ∀ a, ¬ Buf.bb.Within s.l.toNat a → ¬ Buf.db.Within s.cfg.cmax a → m.read a = s.mem.read a)

/-- The commands that need an alphabet (R31, R101). -/
def needsAlphabet : Instr → Bool
  | .nop => false
  | .setl _ => false
  | .abuild _ => false
  | .dclr => false
  | .bclr => false
  | .einj _ => true
  | .dinj _ => true
  | .drev => false
  | .brev => false
  | .dmap => true
  | .pwidth => true
  | .encf => true
  | .encm => true
  | .decf => true
  | .decm => true

/-- The nonzero codes a decoded command can end with (R200, column "raised by"). -/
def mayRaise : Instr → List ErrCode
  | .nop => []
  | .setl _ => [.badarg]
  | .abuild _ => [.construct]
  | .dclr => []
  | .bclr => []
  | .einj _ => [.noalpha, .badarg, .capacity]
  | .dinj _ => [.noalpha, .badarg, .overflow]
  | .drev => []
  | .brev => []
  | .dmap => [.noalpha]
  | .pwidth => [.noalpha]
  | .encf => [.noalpha]
  | .encm => [.noalpha]
  | .decf => [.noalpha, .invlen, .invchar, .overflow]
  | .decm => [.noalpha, .invchar, .overflow]

end Sys2Proof.Machine
end

