-- ==== Sys2Proof/Certificates/Slice0/Obligations.lean ====
section
/-! DEFINITION. The statements for the provers. Each docstring names the rule of spec/ it formalises. -/

open Sys2Proof Sys2Proof.Machine

/-! ### Encoding (30_encoding.md) -/

/-- R94: decoding the word of a well-formed command gives the command back. -/
def Obligations.EncodedCommandDecodesToItself : Prop :=
  ∀ i : Instr, i.WellFormed → decode (encode i) = .ok i

/-- R94: a word that decodes is the one word of the command it decodes to, so distinct words never decode to the same
command with the same operand. -/
def Obligations.DecodedWordIsItsEncoding : Prop :=
  ∀ (w : Word) (i : Instr), decode w = .ok i → i.WellFormed ∧ encode i = w

/-- R93: a word is the command of a row of the opcode map exactly when (w & mask) = match, and the operand of a format I
row is w[31:16]. -/
def Obligations.OpcodeMapDecidesDecoding : Prop :=
  ∀ (w : Word), ∀ row ∈ opcodeTable,
    (w &&& row.mask = row.pattern ↔ ∃ i, decode w = .ok i ∧ i.mnemonic = row.mnemonic)
      ∧ ∀ i, decode w = .ok i → i.mnemonic = row.mnemonic →
          i.operand = if row.mask = 0x0000FFFF#32 then w.toNat / 65536 else 0

/-- R98: words written out from the table of statements decode to the commands they stand for. -/
def Obligations.WrittenOutWordsDecode : Prop :=
  decode 0x00080001#32 = .ok (.setl 8) ∧ decode 0x003A0002#32 = .ok (.abuild 58)
    ∧ decode 0x00FF000A#32 = .ok (.einj 255) ∧ decode 0x0005000B#32 = .ok (.dinj 5)
    ∧ decode 0x00000010#32 = .ok .pwidth ∧ decode 0x00000021#32 = .ok .encm ∧ decode 0x00000030#32 = .ok .decf

/-- R95: the illegal words are those with an unassigned opcode, with bits 15:8 not zero, or of format Z with bits 31:16
not zero; a write of one to CMD sets ERR to 7 (ERR_ILLCMD), changes nothing else and returns OKAY. -/
def Obligations.IllegalWordSetsIllcmd : Prop :=
  ∀ (s : State) (w : Word) (rest : List Event), s.pending = .hostWrite 0x0000#16 w :: rest →
    ((w.toNat % 256) ∉ [0x00, 0x01, 0x02, 0x08, 0x09, 0x0A, 0x0B, 0x0C, 0x0D, 0x0E, 0x10, 0x20, 0x21, 0x30, 0x31]
      ∨ w.toNat / 256 % 256 ≠ 0
      ∨ ((w.toNat % 256) ∈ [0x00, 0x08, 0x09, 0x0C, 0x0D, 0x0E, 0x10, 0x20, 0x21, 0x30, 0x31] ∧ w.toNat / 65536 ≠ 0)) →
    (∀ i, decode w ≠ .ok i)
      ∧ step s = .next { s with pending := rest, reply := some (.write .okay), err := .illcmd }
      ∧ ErrCode.illcmd.code = 7#4

/-! ### The step and the host port (20_memory.md, 70_reset_and_hazards.md) -/

/-- R90: a write of a word that decodes to a command runs that command within the write, which returns OKAY. -/
def Obligations.CommandWriteRunsDecodedCommand : Prop :=
  ∀ (s : State) (w : Word) (rest : List Event) (i : Instr),
    s.pending = .hostWrite 0x0000#16 w :: rest → decode w = .ok i →
      step s = exec i { s with pending := rest, reply := some (.write .okay) }

/-- The model's choice (log entry 2), from R220: with no event waiting the engine is idle and keeps all state. -/
def Obligations.IdleStepKeepsState : Prop :=
  ∀ s : State, s.pending = [] → step s = .next s

/-- R61 with the read column of R64: the response and the data of every read, and that a read changes no state of the
engine (R68). -/
def Obligations.HostReadAnswersAddressMap : Prop :=
  ∀ (s : State) (addr : Half) (rest : List Event), s.pending = .hostRead addr :: rest →
    ∃ r, step s = .next { s with pending := rest, reply := some r }
      ∧ (addr = 0x0000#16 → r = .read .okay 0)
      ∧ (addr = 0x0001#16 → ∃ v : Word, r = .read .okay v ∧ v.extractLsb' 0 4 = s.err.code
          ∧ v.getLsbD 4 = s.avalid ∧ v.getLsbD 5 = s.wvalid ∧ v.toNat < 64)
      ∧ (addr = 0x0002#16 → r = .read .okay (BitVec.ofNat 32 s.n.toNat))
      ∧ (addr = 0x0003#16 → r = .read .okay (BitVec.ofNat 32 s.l.toNat))
      ∧ (addr = 0x0004#16 → r = .read .okay (BitVec.ofNat 32 s.w.toNat))
      ∧ (addr = 0x0005#16 → r = .read .okay (BitVec.ofNat 32 s.ub.toNat))
      ∧ (addr = 0x0006#16 → r = .read .okay (BitVec.ofNat 32 s.dlen.toNat))
      ∧ (addr = 0x0007#16 → r = .read .okay (BitVec.ofNat 32 s.slen.toNat))
      ∧ (addr = 0x0008#16 → r = .read .okay (BitVec.ofNat 32 s.carry.toNat))
      ∧ (∀ i < s.cfg.lmax, addr.toNat = 0x1000 + i → r = .read .okay (BitVec.ofNat 32 (s.elem .bb i).toNat))
      ∧ (∀ i < s.cfg.cmax, addr.toNat = 0x2000 + i → r = .read .okay (BitVec.ofNat 32 (s.elem .db i).toNat))
      ∧ (∀ i < s.cfg.cmax, addr.toNat = 0x3000 + i → r = .read .okay (BitVec.ofNat 32 (s.elem .sb i).toNat))
      ∧ (∀ i < 255, addr.toNat = 0x4000 + i → r = .read .okay (BitVec.ofNat 32 (s.elem .fwd i).toNat))
      ∧ (∀ i < s.cfg.domain, addr.toNat = 0x5000 + i → r = .read .okay (BitVec.ofNat 32 (s.elem .rev i).toNat))
      ∧ (¬ MappedAddress s.cfg addr.toNat → r = .read .slverr 0)

/-- R63: SLVERR has exactly the causes listed there, and a transaction that returns it changes no state. -/
def Obligations.SlverrExactlyOnListedCauses : Prop :=
  (∀ (s : State) (addr : Half) (rest : List Event), s.pending = .hostRead addr :: rest →
      (¬ MappedAddress s.cfg addr.toNat →
          step s = .next { s with pending := rest, reply := some (.read .slverr 0) })
        ∧ (MappedAddress s.cfg addr.toNat →
          ∃ v, step s = .next { s with pending := rest, reply := some (.read .okay v) }))
    ∧ ∀ (s : State) (addr : Half) (data : Word) (rest : List Event), s.pending = .hostWrite addr data :: rest →
      (WriteNotAdmitted s.cfg addr.toNat data.toNat →
          step s = .next { s with pending := rest, reply := some (.write .slverr) })
        ∧ (¬ WriteNotAdmitted s.cfg addr.toNat data.toNat →
          ∀ t, step s = .next t → t.reply = some (.write .okay))

/-- R66: a write to SLEN of at most CMAX is stored and changes nothing else; a greater one is refused with SLVERR. -/
def Obligations.SlenWriteStoresOrRefuses : Prop :=
  ∀ (s : State) (data : Word) (rest : List Event), s.pending = .hostWrite 0x0007#16 data :: rest →
    (data.toNat ≤ s.cfg.cmax → ∃ v : Half, v.toNat = data.toNat
        ∧ step s = .next { s with pending := rest, reply := some (.write .okay), slen := v })
      ∧ (s.cfg.cmax < data.toNat → step s = .next { s with pending := rest, reply := some (.write .slverr) })

/-- R65: a write of at most 255 to an element of BB or SB stores it and changes nothing else; a greater one stores
nothing and returns SLVERR. -/
def Obligations.ByteWriteStoresOneElement : Prop :=
  ∀ (s : State) (b : Buf) (i : Nat) (addr : Half) (data : Word) (rest : List Event),
    b = .bb ∨ b = .sb → i < b.size s.cfg → addr.toNat = b.base + i → s.pending = .hostWrite addr data :: rest →
      (data.toNat ≤ 255 → ∃ m, step s = .next { s with pending := rest, reply := some (.write .okay), mem := m }
          ∧ (m.read (b.base + i)).toNat = data.toNat ∧ ∀ a, a ≠ b.base + i → m.read a = s.mem.read a)
        ∧ (255 < data.toNat → step s = .next { s with pending := rest, reply := some (.write .slverr) })

/-- R67: an accepted write to an element of FWD stores it and drops the alphabet, the width cache and the digits; BB, SB,
SLEN, L, CARRY and ERR are not changed. -/
def Obligations.FwdWriteDropsAlphabet : Prop :=
  ∀ (s : State) (i : Nat) (addr : Half) (data : Word) (rest : List Event),
    i < 255 → addr.toNat = 0x4000 + i → data.toNat ≤ 255 → s.pending = .hostWrite addr data :: rest →
      ∃ m, step s = .next { s with
            pending := rest, reply := some (.write .okay), avalid := false, n := 0, wvalid := false, w := 0, ub := 0,
            dlen := 0, mem := m }
        ∧ (m.read (0x4000 + i)).toNat = data.toNat
        ∧ (∀ c < s.cfg.domain, m.read (0x5000 + c) = 0xFF#8)
        ∧ (∀ j < s.cfg.cmax, m.read (0x2000 + j) = 0#8)
        ∧ ∀ a, a ≠ 0x4000 + i → ¬ Buf.rev.Within s.cfg.domain a → ¬ Buf.db.Within s.cfg.cmax a →
            m.read a = s.mem.read a

/-- R42, R230: the reset state has every value of the table, whatever the parameters, and the reset event leaves it. That
the parameters are a field of the state, at LMAX 32 and DOMAIN 128 in `State.reset`, and that reset keeps them, is the
model's choice of log entry 3; that the reset event keeps the events still pending and clears the response is the model's
choice of log entry 10. -/
def Obligations.ResetGivesTableValues : Prop :=
  (∀ c : Config, (State.resetWith c).cfg = c ∧ (State.resetWith c).err.code = 0 ∧ (State.resetWith c).avalid = false
      ∧ (State.resetWith c).wvalid = false ∧ (State.resetWith c).n = 0 ∧ (State.resetWith c).l = 0
      ∧ (State.resetWith c).w = 0 ∧ (State.resetWith c).ub = 0 ∧ (State.resetWith c).dlen = 0
      ∧ (State.resetWith c).slen = 0 ∧ (State.resetWith c).carry = 0
      ∧ (∀ i < c.lmax, (State.resetWith c).elem .bb i = 0) ∧ (∀ i < c.cmax, (State.resetWith c).elem .db i = 0)
      ∧ (∀ i < c.cmax, (State.resetWith c).elem .sb i = 0) ∧ (∀ i < 255, (State.resetWith c).elem .fwd i = 0)
      ∧ ∀ i < c.domain, (State.resetWith c).elem .rev i = 0xFF#8)
    ∧ State.reset = State.resetWith { lmax := 32, domain := 128 }
    ∧ ∀ (s : State) (rest : List Event), s.pending = .reset :: rest →
        step s = .next { State.resetWith s.cfg with pending := rest }

/-! ### Invariants of the whole machine (10_state.md R41) -/

/-- R41: the reset state meets the invariants I1 to I6, whatever the parameters. That its memory has the canonical form and
lists only mapped addresses is about the model's own memory (log entry 4). -/
def Obligations.ResetMeetsInvariants : Prop :=
  ∀ c : Config, (State.resetWith c).Inv ∧ (State.resetWith c).mem.wf ∧ (State.resetWith c).MemoryMapped

/-- R41: every transaction keeps the invariants I1 to I6. -/
def Obligations.StepKeepsInvariants : Prop :=
  ∀ s t : State, s.Inv → step s = .next t → t.Inv

/-- R203 with R78 and R131: in a state that meets the invariants every step gives a next state. No element number is out
of range and the divmod contract holds wherever the engine uses the unit. -/
def Obligations.StepNeverStops : Prop :=
  ∀ s : State, s.Inv → Completes (step s)

/-- R41 I4 with the part of I3 that concerns the alphabet: kept by every step, whatever the rest of the state. -/
def Obligations.StepKeepsAlphabetTables : Prop :=
  ∀ s t : State, s.AlphabetInv → step s = .next t → t.AlphabetInv

/-- The model's choice (log entry 4): every step keeps the memory's canonical form. -/
def Obligations.StepKeepsMemoryCanonical : Prop :=
  ∀ s t : State, s.mem.wf → step s = .next t → t.mem.wf

/-- R20, R78, R79: no step makes the memory list an address that is no element of the five buffers. -/
def Obligations.StepKeepsMemoryMapped : Prop :=
  ∀ s t : State, s.MemoryMapped → step s = .next t → t.MemoryMapped

/-- R22 to R29: which registers a command leaves alone. -/
def Obligations.RegistersWrittenOnlyByNamedCommands : Prop :=
  ∀ (i : Instr) (s t : State), exec i s = .next t →
    t.cfg = s.cfg ∧ t.pending = s.pending ∧ t.reply = s.reply
      ∧ (i.mnemonic ≠ "SETL" → t.l = s.l)
      ∧ (i.mnemonic ≠ "ABUILD" → t.n = s.n ∧ t.avalid = s.avalid)
      ∧ (i.mnemonic ∉ ["DMAP", "ENCF", "ENCM"] → t.slen = s.slen)
      ∧ (i.mnemonic ∉ ["DCLR", "EINJ", "ENCF", "ENCM", "PWIDTH", "ABUILD", "DECF"] → t.dlen = s.dlen)
      ∧ (i.mnemonic ∉ ["SETL", "ABUILD", "PWIDTH", "ENCF", "DECF"] →
          t.wvalid = s.wvalid ∧ t.w = s.w ∧ t.ub = s.ub)
      ∧ (i.mnemonic ∉ ["EINJ", "DINJ", "PWIDTH", "ENCF", "ENCM", "DECF", "DECM"] → t.carry = s.carry)

/-- R32 to R36: which buffers a command leaves alone; no command writes FWD, and nothing outside the buffers changes. -/
def Obligations.BuffersWrittenOnlyByNamedCommands : Prop :=
  ∀ (i : Instr) (s t : State), exec i s = .next t → ∀ a : Nat,
    (t.mem.read a ≠ s.mem.read a →
      (Buf.bb.Within s.cfg.lmax a ∧ i.mnemonic ∈ ["BCLR", "DINJ", "BREV", "DECF", "DECM"])
        ∨ (Buf.db.Within s.cfg.cmax a
            ∧ i.mnemonic ∈ ["DCLR", "EINJ", "DREV", "ENCF", "ENCM", "PWIDTH", "ABUILD", "DECF"])
        ∨ (Buf.sb.Within s.cfg.cmax a ∧ i.mnemonic ∈ ["DMAP", "ENCF", "ENCM"])
        ∨ (Buf.rev.Within s.cfg.domain a ∧ i.mnemonic = "ABUILD"))

/-- R200, the column "raised by": the codes each command can end with. -/
def Obligations.CommandsRaiseOnlyTheirCodes : Prop :=
  ∀ (i : Instr) (s t : State), exec i s = .next t → t.err = .ok ∨ t.err ∈ mayRaise i

/-- R235: a command that needs an alphabet, issued without one, ends with ERR_NOALPHA and does nothing. -/
def Obligations.MissingAlphabetFails : Prop :=
  ∀ (i : Instr) (s : State), needsAlphabet i = true → s.avalid = false → FailsWith .noalpha i s

/-- R92, R101: an immediate out of range ends with ERR_BADARG and changes nothing else. -/
def Obligations.OperandOutOfRangeFails : Prop :=
  (∀ (l : Nat) (s : State), s.cfg.lmax < l → FailsWith .badarg (.setl l) s)
    ∧ (∀ (b : Nat) (s : State), s.avalid = true → 255 < b → FailsWith .badarg (.einj b) s)
    ∧ ∀ (d : Nat) (s : State), s.avalid = true → s.n.toNat ≤ d → FailsWith .badarg (.dinj d) s

/-- R41 I7: the carry after a command. -/
def Obligations.CarryAfterCommand : Prop :=
  ∀ (i : Instr) (s t : State), s.Inv → s.avalid = true → exec i s = .next t →
    (t.err = .ok → i.mnemonic ∈ ["EINJ", "ENCF", "ENCM", "PWIDTH", "DECF", "DECM"] → t.carry = 0#8)
      ∧ (i.mnemonic = "DINJ" → t.err ≠ .badarg → t.carry.toNat < t.n.toNat)
      ∧ (i.mnemonic ∈ ["DECF", "DECM"] → t.carry.toNat < t.n.toNat)

/-! ### Configuration commands (40_config_alphabet.md) -/

/-- R110: NOP, word 0x00000000, clears ERR and changes nothing else, with or without an alphabet. -/
def Obligations.NopClearsErrOnly : Prop :=
  encode .nop = 0x00000000#32
    ∧ ∀ s : State, ∃ t, exec .nop s = .next t ∧ t.err.code = 0 ∧ t = { s with err := t.err }

/-- R111: SETL l, word (l << 16) | 0x01: l at most LMAX becomes L and drops the width cache; a greater l is ERR_BADARG and
changes nothing else. -/
def Obligations.SetlSetsLengthOrFails : Prop :=
  (∀ l ≤ 0xFFFF, (encode (.setl l)).toNat = l * 65536 + 0x01) ∧ ∀ (l : Nat) (s : State),
    (l ≤ s.cfg.lmax → ∃ v : Half, v.toNat = l
        ∧ exec (.setl l) s = .next { s with l := v, wvalid := false, w := 0, ub := 0, err := .ok })
      ∧ (s.cfg.lmax < l → exec (.setl l) s = .next { s with err := .badarg })

/-- R112, R113: ABUILD n, word (n << 16) | 0x02, builds the reverse table, N and AVALID exactly when FWD[0..n−1] is a
valid alphabet; otherwise no alphabet is held and ERR is ERR_CONSTRUCT. In both cases the width cache and the digits are
dropped, and FWD, BB, SB, SLEN, L and CARRY are not written. -/
def Obligations.AbuildSucceedsExactlyOnValidAlphabets : Prop :=
  (∀ n ≤ 0xFFFF, (encode (.abuild n)).toNat = n * 65536 + 0x02) ∧ ∀ (n : Nat) (s : State),
    (s.ValidAlphabet n → ∃ m, exec (.abuild n) s = .next { s with
            wvalid := false, w := 0, ub := 0, dlen := 0, n := BitVec.ofNat 8 n, avalid := true, err := .ok, mem := m }
        ∧ (∀ j < s.cfg.cmax, m.read (0x2000 + j) = 0#8)
        ∧ (∀ d < n, m.read (0x5000 + (s.elem .fwd d).toNat) = BitVec.ofNat 8 d)
        ∧ (∀ c < s.cfg.domain, (∀ d < n, (s.elem .fwd d).toNat ≠ c) → m.read (0x5000 + c) = 0xFF#8)
        ∧ ∀ a, ¬ Buf.db.Within s.cfg.cmax a → ¬ Buf.rev.Within s.cfg.domain a → m.read a = s.mem.read a)
      ∧ (¬ s.ValidAlphabet n → ∃ m, exec (.abuild n) s = .next { s with
            wvalid := false, w := 0, ub := 0, dlen := 0, n := 0, avalid := false, err := .construct, mem := m }
        ∧ (∀ j < s.cfg.cmax, m.read (0x2000 + j) = 0#8)
        ∧ (∀ c < s.cfg.domain, m.read (0x5000 + c) = 0xFF#8)
        ∧ ∀ a, ¬ Buf.db.Within s.cfg.cmax a → ¬ Buf.rev.Within s.cfg.domain a → m.read a = s.mem.read a)

/-- R114, R116: with an alphabet held, lookup and the forward table are inverse bijections between [0, N) and the
alphabet's characters. -/
def Obligations.LookupInvertsForwardTable : Prop :=
  ∀ s : State, s.AlphabetHeld → s.avalid = true →
    (∀ d : Byte, d.toNat < s.n.toNat → lookup s (s.elem .fwd d.toNat) = some d)
      ∧ (∀ c d : Byte, lookup s c = some d → d.toNat < s.n.toNat ∧ s.elem .fwd d.toNat = c)
      ∧ ∀ d e : Byte, d.toNat < s.n.toNat → e.toNat < s.n.toNat →
          s.elem .fwd d.toNat = s.elem .fwd e.toNat → d = e

/-! ### The units and the injects (41_encode.md, 42_decode.md) -/

/-- R130: within the contract the divmod engine gives the exact quotient and remainder, and both fit their ports. -/
def Obligations.DivmodExactWithinContract : Prop :=
  ∀ (a : Half) (n : Byte), 2 ≤ n.toNat → a.toNat < 256 * n.toNat →
    ∃ q r : Byte, divmod a n = some (q, r) ∧ a.toNat = q.toNat * n.toNat + r.toNat ∧ r.toNat < n.toNat

/-- R160, R161: the multiply-accumulate unit loses nothing, and a carry in below the multiplier gives a carry out below
it, through a whole pass over a byte buffer. -/
def Obligations.MacExactAndCarryBounded : Prop :=
  (∀ b n c : Byte, (mac b n c).1.toNat + 256 * (mac b n c).2.toNat = b.toNat * n.toNat + c.toNat)
    ∧ (∀ b n c : Byte, c.toNat < n.toNat → (mac b n c).2.toNat < n.toNat)
    ∧ ∀ (n d : Byte) (bs : List Byte), d.toNat < n.toNat → (decBytes n d bs).2.toNat < n.toNat

/-- R133 (a), (b), (c): one encode inject keeps the value, the digit range and minimality, and leaves a carry only when
the buffer is full. -/
def Obligations.EncodeInjectLaws : Prop :=
  ∀ (n b : Byte) (room : Nat) (ds : List Byte), 2 ≤ n.toNat → (∀ d ∈ ds, d.toNat < n.toNat) →
    ∃ ds' c, encDigits n b room ds = some (ds', c)
      ∧ valueLE n.toNat ds' + c.toNat * n.toNat ^ ds'.length = 256 * valueLE n.toNat ds + b.toNat
      ∧ (∀ d ∈ ds', d.toNat < n.toNat)
      ∧ ds.length ≤ ds'.length ∧ ds'.length ≤ ds.length + room
      ∧ (c ≠ 0#8 → ds'.length = ds.length + room)
      ∧ (c = 0#8 → (∀ d, ds.getLast? = some d → d ≠ 0#8) → ∀ d, ds'.getLast? = some d → d ≠ 0#8)

/-- R133 (d): the position loop over a buffer padded with zero digits gives the digits of the growing buffer. -/
def Obligations.PresizedBufferGivesSameDigits : Prop :=
  ∀ (n b : Byte) (room k : Nat) (ds ds' : List Byte), 2 ≤ n.toNat → (∀ d ∈ ds, d.toNat < n.toNat) →
    encDigits n b room ds = some (ds', 0#8) → ds'.length ≤ ds.length + k →
      encPositions n b (ds ++ List.replicate k 0#8)
        = some (ds' ++ List.replicate (ds.length + k - ds'.length) 0#8, 0#8)

/-- R163: one decode inject on L bytes of value V gives (V × N + d) mod 256^L and the carry (V × N + d) div 256^L. -/
def Obligations.DecodeInjectLaws : Prop :=
  ∀ (n d : Byte) (bs : List Byte), d.toNat < n.toNat →
    (decBytes n d bs).1.length = bs.length
      ∧ valueLE 256 (decBytes n d bs).1 + (decBytes n d bs).2.toNat * 256 ^ bs.length
          = valueLE 256 bs * n.toNat + d.toNat
      ∧ (decBytes n d bs).2.toNat = (valueLE 256 bs * n.toNat + d.toNat) / 256 ^ bs.length
      ∧ valueLE 256 (decBytes n d bs).1 = (valueLE 256 bs * n.toNat + d.toNat) % 256 ^ bs.length
      ∧ ((decBytes n d bs).2 = 0#8 ↔ valueLE 256 bs * n.toNat + d.toNat < 256 ^ bs.length)

/-- R190, R191: bitwidth is the least k with n < 2^k, one more than floor(log2(n)), and the engine's upper bound is
ceil(8 × L / floor(log2(N))). -/
def Obligations.UpperBoundIsCeiling : Prop :=
  (∀ n, 1 ≤ n → n ≤ 255 →
      n < 2 ^ bitwidth n ∧ (∀ k, n < 2 ^ k → bitwidth n ≤ k) ∧ bitwidth n - 1 = Nat.log 2 n)
    ∧ ∀ l n, l ≤ 512 → 2 ≤ n → n ≤ 255 → ∃ u : Half, upperBound l n = some u
        ∧ u.toNat = (l * 8) ⌈/⌉ (Nat.log 2 n) ∧ u.toNat ≤ 8 * l

/-! ### Byte-to-digit commands (41_encode.md) -/

/-- R134: DCLR, word 0x00000008, clears DB whole and DLEN, and changes nothing else but ERR. -/
def Obligations.DclrClearsDigits : Prop :=
  encode .dclr = 0x00000008#32 ∧ ∀ s : State, ∃ m, exec .dclr s = .next { s with dlen := 0, err := .ok, mem := m }
    ∧ (∀ i < s.cfg.cmax, m.read (0x2000 + i) = 0#8) ∧ SameOutside .db s.cfg.cmax s.mem m

/-- R135 after its checks: EINJ b multiplies the accumulator by 256 and adds b, growing it to the digits the value needs;
where the value needs more than CMAX digits, DB keeps the low CMAX digits, CARRY the rest, and ERR is ERR_CAPACITY. -/
def Obligations.EinjInjectsByte : Prop :=
  ∀ (b : Nat) (s : State), s.DigitsBelowRadix → s.AlphabetHeld → s.LengthsInRange → s.avalid = true → b ≤ 255 →
    (256 * s.digitsLE + b < s.n.toNat ^ s.cfg.cmax →
      ∃ m len, exec (.einj b) s = .next { s with dlen := len, carry := 0, err := .ok, mem := m }
        ∧ len.toNat = max s.dlen.toNat (Nat.digits s.n.toNat (256 * s.digitsLE + b)).length ∧ len.toNat ≤ s.cfg.cmax
        ∧ (∀ i < len.toNat, (m.read (0x2000 + i)).toNat < s.n.toNat)
        ∧ ({ s with dlen := len, mem := m } : State).digitsLE = 256 * s.digitsLE + b
        ∧ SameOutside .db len.toNat s.mem m)
      ∧ (s.n.toNat ^ s.cfg.cmax ≤ 256 * s.digitsLE + b →
        ∃ m len c, exec (.einj b) s = .next { s with dlen := len, carry := c, err := .capacity, mem := m }
          ∧ len.toNat = s.cfg.cmax ∧ c ≠ 0#8
          ∧ (∀ i < len.toNat, (m.read (0x2000 + i)).toNat < s.n.toNat)
          ∧ c.toNat = (256 * s.digitsLE + b) / s.n.toNat ^ s.cfg.cmax
          ∧ ({ s with dlen := len, mem := m } : State).digitsLE = (256 * s.digitsLE + b) % s.n.toNat ^ s.cfg.cmax
          ∧ SameOutside .db s.cfg.cmax s.mem m)

/-- R136: DREV, word 0x0000000C, reverses DB[0..DLEN−1] and changes nothing else but ERR. -/
def Obligations.DrevReversesDigits : Prop :=
  encode .drev = 0x0000000C#32 ∧ ∀ s : State, s.dlen.toNat ≤ s.cfg.cmax →
    ∃ m, exec .drev s = .next { s with err := .ok, mem := m }
      ∧ (∀ i < s.dlen.toNat, m.read (0x2000 + i) = s.elem .db (s.dlen.toNat - 1 - i))
      ∧ SameOutside .db s.dlen.toNat s.mem m

/-- R137: DMAP, word 0x0000000E, writes the characters of DB[0..DLEN−1] to SB in index order and sets SLEN; SB beyond keeps
its contents. Without an alphabet it is ERR_NOALPHA and nothing else. -/
def Obligations.DmapMapsDigits : Prop :=
  encode .dmap = 0x0000000E#32 ∧ (∀ s : State, s.avalid = false → FailsWith .noalpha .dmap s)
    ∧ ∀ s : State, s.DigitsBelowRadix → s.LengthsInRange → s.avalid = true →
    ∃ m, exec .dmap s = .next { s with slen := s.dlen, err := .ok, mem := m }
      ∧ (∀ i < s.dlen.toNat, m.read (0x3000 + i) = s.elem .fwd (s.elem .db i).toNat)
      ∧ SameOutside .sb s.dlen.toNat s.mem m

/-- R138: ENCF, word 0x00000020, fails with ERR_NOALPHA without an alphabet, and with one cannot fail: it writes the W
digits of BB[0..L−1], most significant first and padded with zero digits, to DB, and their characters to SB. -/
def Obligations.EncfWritesPaddedText : Prop :=
  encode .encf = 0x00000020#32 ∧ (∀ s : State, s.avalid = false → FailsWith .noalpha .encf s)
    ∧ ∀ s : State, s.Inv → s.avalid = true → ∃ m width bound, exec .encf s = .next { s with
          wvalid := true, w := width, ub := bound, carry := 0, dlen := width, slen := width, err := .ok, mem := m }
      ∧ width.toNat = paddedWidth s.l.toNat s.n.toNat ∧ bound.toNat = analyticBound s.l.toNat s.n.toNat
      ∧ ({ s with dlen := width, mem := m } : State).digitsBE = s.bytesBE
      ∧ (∀ i < width.toNat, (m.read (0x2000 + i)).toNat < s.n.toNat)
      ∧ (∀ i, width.toNat ≤ i → i < s.cfg.cmax → m.read (0x2000 + i) = 0#8)
      ∧ (∀ i < width.toNat, m.read (0x3000 + i) = s.elem .fwd (m.read (0x2000 + i)).toNat)
      ∧ ∀ a, ¬ Buf.db.Within s.cfg.cmax a → ¬ Buf.sb.Within width.toNat a → m.read a = s.mem.read a

/-- R139: ENCM, word 0x00000021, fails with ERR_NOALPHA without an alphabet, and with one cannot fail: it writes the digits
of BB[0..L−1] with no leading zero digit to DB and their characters to SB, and leaves the width cache alone. -/
def Obligations.EncmWritesMinimalText : Prop :=
  encode .encm = 0x00000021#32 ∧ (∀ s : State, s.avalid = false → FailsWith .noalpha .encm s)
    ∧ ∀ s : State, s.Inv → s.avalid = true → ∃ m len, exec .encm s = .next { s with
          carry := 0, dlen := len, slen := len, err := .ok, mem := m }
      ∧ len.toNat ≤ s.cfg.cmax
      ∧ ({ s with dlen := len, mem := m } : State).digitsBE = s.bytesBE
      ∧ (len ≠ 0#16 → m.read 0x2000 ≠ 0#8)
      ∧ (∀ i < len.toNat, (m.read (0x2000 + i)).toNat < s.n.toNat)
      ∧ (∀ i, len.toNat ≤ i → i < s.cfg.cmax → m.read (0x2000 + i) = 0#8)
      ∧ (∀ i < len.toNat, m.read (0x3000 + i) = s.elem .fwd (m.read (0x2000 + i)).toNat)
      ∧ ∀ a, ¬ Buf.db.Within s.cfg.cmax a → ¬ Buf.sb.Within len.toNat a → m.read a = s.mem.read a

/-- R140, last sentence: the ENCF string is the ENCM string preceded by W − DLEN copies of FWD[0]. -/
def Obligations.PaddedTextExtendsMinimalText : Prop :=
  ∀ s : State, s.Inv → s.avalid = true →
    ∃ t u, exec .encf s = .next t ∧ exec .encm s = .next u ∧ u.dlen.toNat ≤ t.w.toNat
      ∧ t.text = List.replicate (t.w.toNat - u.dlen.toNat) (s.elem .fwd 0) ++ u.text

/-- R141 (b): with FWD increasing, the padded strings of two values of the same length compare as the values do. -/
def Obligations.PaddedTextKeepsOrder : Prop :=
  ∀ s₁ s₂ : State, s₁.Inv → s₂.Inv → s₁.avalid = true → s₂.avalid = true → s₁.l = s₂.l → s₁.n = s₂.n →
    (∀ d < s₁.n.toNat, s₁.elem .fwd d = s₂.elem .fwd d) →
    (∀ e < s₁.n.toNat, ∀ d < e, (s₁.elem .fwd d).toNat < (s₁.elem .fwd e).toNat) →
    s₁.bytesBE < s₂.bytesBE →
      ∃ t₁ t₂, exec .encf s₁ = .next t₁ ∧ exec .encf s₂ = .next t₂
        ∧ t₁.text.map BitVec.toNat < t₂.text.map BitVec.toNat

/-! ### Digit-to-byte commands (42_decode.md) -/

/-- R164: BCLR, word 0x00000009, clears all LMAX elements of BB and changes nothing else but ERR. -/
def Obligations.BclrClearsBytes : Prop :=
  encode .bclr = 0x00000009#32 ∧ ∀ s : State, ∃ m, exec .bclr s = .next { s with err := .ok, mem := m }
    ∧ (∀ i < s.cfg.lmax, m.read (0x1000 + i) = 0#8) ∧ SameOutside .bb s.cfg.lmax s.mem m

/-- R165: DINJ d, word (d << 16) | 0x0B, after its checks multiplies the byte accumulator by N and adds d; ERR is
ERR_OVERFLOW exactly when the value no longer fits L bytes, and BB then keeps the wrapped value and CARRY the overflow. -/
def Obligations.DinjInjectsDigit : Prop :=
  (∀ d ≤ 0xFFFF, (encode (.dinj d)).toNat = d * 65536 + 0x0B)
    ∧ (∀ (d : Nat) (s : State), s.avalid = false → FailsWith .noalpha (.dinj d) s)
    ∧ (∀ (d : Nat) (s : State), s.avalid = true → s.n.toNat ≤ d → FailsWith .badarg (.dinj d) s)
    ∧ ∀ (d : Nat) (s : State), s.avalid = true → d < s.n.toNat → s.l.toNat ≤ s.cfg.lmax →
    ∃ m c e, exec (.dinj d) s = .next { s with carry := c, err := e, mem := m }
      ∧ ({ s with mem := m } : State).bytesLE = (s.bytesLE * s.n.toNat + d) % s.byteLimit
      ∧ c.toNat = (s.bytesLE * s.n.toNat + d) / s.byteLimit
      ∧ (s.bytesLE * s.n.toNat + d < s.byteLimit → e = .ok ∧ c = 0#8)
      ∧ (s.byteLimit ≤ s.bytesLE * s.n.toNat + d → e = .overflow ∧ 1 ≤ c.toNat ∧ c.toNat ≤ s.n.toNat - 1)
      ∧ SameOutside .bb s.l.toNat s.mem m

/-- R166: BREV, word 0x0000000D, reverses BB[0..L−1] and changes nothing else but ERR. -/
def Obligations.BrevReversesBytes : Prop :=
  encode .brev = 0x0000000D#32 ∧ ∀ s : State, s.l.toNat ≤ s.cfg.lmax →
    ∃ m, exec .brev s = .next { s with err := .ok, mem := m }
      ∧ (∀ i < s.l.toNat, m.read (0x1000 + i) = s.elem .bb (s.l.toNat - 1 - i))
      ∧ SameOutside .bb s.l.toNat s.mem m

/-- R136, R166, corner cases: DREV twice and BREV twice restore the buffer. -/
def Obligations.ReversalTwiceRestoresBuffer : Prop :=
  ∀ (i : Instr) (s : State), i = .drev ∧ s.dlen.toNat ≤ s.cfg.cmax ∨ i = .brev ∧ s.l.toNat ≤ s.cfg.lmax →
    ∃ t u, exec i s = .next t ∧ exec i t = .next u ∧ ∀ a, u.mem.read a = s.mem.read a

/-- R168, R169: DECM on a string of alphabet characters whose value fits L bytes leaves that value in BB, big-endian. -/
def Obligations.DecmDecodesText : Prop :=
  ∀ (s : State) (ds : List Byte), s.Inv → s.avalid = true →
    s.Spells s.text ds → valueBE s.n.toNat ds < s.byteLimit →
      ∃ m, exec .decm s = .next { s with carry := 0, err := .ok, mem := m }
        ∧ ({ s with mem := m } : State).bytesBE = valueBE s.n.toNat ds
        ∧ SameOutside .bb s.l.toNat s.mem m

/-- R168, R169, R204: the first character that fails decides DECM's error; BB[0..L−1] is cleared, and CARRY is 0 after
ERR_INVCHAR and the overflow carry after ERR_OVERFLOW. -/
def Obligations.DecmFailsAtFirstBadCharacter : Prop :=
  ∀ (s : State) (before : List Byte) (c : Byte) (after : List Byte) (ds : List Byte), s.Inv → s.avalid = true →
    s.text = before ++ c :: after → s.Spells before ds → valueBE s.n.toNat ds < s.byteLimit →
      (lookup s c = none →
        ∃ m, exec .decm s = .next { s with carry := 0, err := .invchar, mem := m }
          ∧ (∀ i < s.l.toNat, m.read (0x1000 + i) = 0#8) ∧ SameOutside .bb s.l.toNat s.mem m)
        ∧ ∀ d, lookup s c = some d → s.byteLimit ≤ valueBE s.n.toNat (ds ++ [d]) →
          ∃ m carry, exec .decm s = .next { s with carry := carry, err := .overflow, mem := m }
            ∧ carry.toNat = valueBE s.n.toNat (ds ++ [d]) / s.byteLimit ∧ 1 ≤ carry.toNat
            ∧ (∀ i < s.l.toNat, m.read (0x1000 + i) = 0#8) ∧ SameOutside .bb s.l.toNat s.mem m

/-- R167, R169: DECF on a string of exactly W alphabet characters whose value fits L bytes leaves that value in BB. DB and
DLEN change only where the width had to be computed, and then hold its digits (R192). -/
def Obligations.DecfDecodesFullWidthText : Prop :=
  ∀ (s : State) (ds : List Byte), s.Inv → s.avalid = true →
    s.slen.toNat = paddedWidth s.l.toNat s.n.toNat → s.Spells s.text ds → valueBE s.n.toNat ds < s.byteLimit →
      ∃ m width bound len, exec .decf s = .next { s with
            wvalid := true, w := width, ub := bound, dlen := len, carry := 0, err := .ok, mem := m }
        ∧ width = s.slen ∧ bound.toNat = analyticBound s.l.toNat s.n.toNat
        ∧ ({ s with mem := m } : State).bytesBE = valueBE s.n.toNat ds
        ∧ s.DecfLeaves width len m

/-- R167, R204: a string of another length than W ends DECF with ERR_INVLEN before any character is examined; BB[0..L−1]
is cleared, CARRY is 0 and the width cache is filled. DB and DLEN change only where the width had to be computed, and then
hold its digits (R192). -/
def Obligations.DecfRefusesOtherLengths : Prop :=
  ∀ s : State, s.Inv → s.avalid = true → s.slen.toNat ≠ paddedWidth s.l.toNat s.n.toNat →
    ∃ m width bound len, exec .decf s = .next { s with
          wvalid := true, w := width, ub := bound, dlen := len, carry := 0, err := .invlen, mem := m }
      ∧ width.toNat = paddedWidth s.l.toNat s.n.toNat ∧ bound.toNat = analyticBound s.l.toNat s.n.toNat
      ∧ (∀ i < s.l.toNat, m.read (0x1000 + i) = 0#8)
      ∧ s.DecfLeaves width len m

/-- R169, R167, R202: with the length right, DECF is DECM: the same outcome code, carry and byte buffer, whether it
succeeds or fails. Beside them DECF leaves the width cache filled, and DB and DLEN as they were or, where the width had to
be computed, with its digits (R192). -/
def Obligations.DecfIsDecmAtFullWidth : Prop :=
  ∀ s : State, s.Inv → s.avalid = true → s.slen.toNat = paddedWidth s.l.toNat s.n.toNat →
    ∃ m m' width bound len carry e, exec .decf s = .next { s with
          wvalid := true, w := width, ub := bound, dlen := len, carry := carry, err := e, mem := m }
      ∧ exec .decm s = .next { s with carry := carry, err := e, mem := m' }
      ∧ width = s.slen ∧ bound.toNat = analyticBound s.l.toNat s.n.toNat
      ∧ (∀ i < s.cfg.lmax, m.read (0x1000 + i) = m'.read (0x1000 + i))
      ∧ s.DecfLeaves width len m ∧ SameOutside .bb s.l.toNat s.mem m'

/-- R170 (a): ENCF then DECF gives every byte buffer back, from the string alone: BB may hold anything when DECF starts. -/
def Obligations.FixedRoundTrip : Prop :=
  ∀ s : State, s.Inv → s.avalid = true →
    ∃ t, exec .encf s = .next t ∧ ∀ m, SameOutside .bb s.cfg.lmax t.mem m →
      ∃ u, exec .decf { t with mem := m } = .next u ∧ u.err = .ok ∧ ∀ i < s.l.toNat, u.elem .bb i = s.elem .bb i

/-- R170 (b): ENCM then DECM gives every byte buffer back, from the string alone: BB may hold anything when DECM starts. -/
def Obligations.MinimalRoundTrip : Prop :=
  ∀ s : State, s.Inv → s.avalid = true →
    ∃ t, exec .encm s = .next t ∧ ∀ m, SameOutside .bb s.cfg.lmax t.mem m →
      ∃ u, exec .decm { t with mem := m } = .next u ∧ u.err = .ok ∧ ∀ i < s.l.toNat, u.elem .bb i = s.elem .bb i

/-- R170 (c): a zero digit's character in front of the string changes nothing in what DECM leaves. -/
def Obligations.LeadingZeroCharacterIgnored : Prop :=
  ∀ s₁ s₂ : State, s₁.Inv → s₂.Inv → s₁.avalid = true → s₂.avalid = true → s₁.cfg = s₂.cfg → s₁.l = s₂.l →
    s₁.n = s₂.n → (∀ d < s₁.n.toNat, s₁.elem .fwd d = s₂.elem .fwd d) → s₂.text = s₁.elem .fwd 0 :: s₁.text →
      ∃ t₁ t₂, exec .decm s₁ = .next t₁ ∧ exec .decm s₂ = .next t₂ ∧ t₁.err = t₂.err ∧ t₁.carry = t₂.carry
        ∧ ∀ i < s₁.l.toNat, t₁.elem .bb i = t₂.elem .bb i

/-! ### The length command (43_length.md) -/

/-- R192, R193: PWIDTH, word 0x00000010, computes W and UB, leaves the digits of 256^L − 1 in accumulator orientation in
DB, and writes nothing else. Without an alphabet it is ERR_NOALPHA and nothing else. -/
def Obligations.PwidthMeasuresPaddedWidth : Prop :=
  encode .pwidth = 0x00000010#32 ∧ (∀ s : State, s.avalid = false → FailsWith .noalpha .pwidth s)
    ∧ ∀ s : State, s.Inv → s.avalid = true → ∃ m width bound, exec .pwidth s = .next { s with
          wvalid := true, w := width, ub := bound, dlen := width, carry := 0, err := .ok, mem := m }
      ∧ width.toNat = paddedWidth s.l.toNat s.n.toNat ∧ bound.toNat = analyticBound s.l.toNat s.n.toNat
      ∧ s.WidthDigits width m
      ∧ SameOutside .db s.cfg.cmax s.mem m

/-- R194: the laws of the width PWIDTH leaves: (a) the least w with N^w ≥ 256^L, with 256^L − 1 needing exactly W digits;
(b) W ≤ UB; (c) UB ≤ 8 × L ≤ CMAX; (d) W = UB for N a power of two; (e) W depends on (L, N) alone. -/
def Obligations.WidthLaws : Prop :=
  (∀ s : State, s.Inv → s.avalid = true → ∃ t, exec .pwidth s = .next t
      ∧ s.byteLimit ≤ s.n.toNat ^ t.w.toNat ∧ (∀ v < t.w.toNat, s.n.toNat ^ v < s.byteLimit)
      ∧ (Nat.digits s.n.toNat (s.byteLimit - 1)).length = t.w.toNat
      ∧ (∀ v < s.byteLimit, (Nat.digits s.n.toNat v).length ≤ t.w.toNat)
      ∧ t.w.toNat ≤ t.ub.toNat ∧ t.ub.toNat ≤ 8 * s.l.toNat ∧ 8 * s.l.toNat ≤ s.cfg.cmax
      ∧ ∀ k, s.n.toNat = 2 ^ k → t.w = t.ub)
    ∧ ∀ s₁ s₂ t₁ t₂ : State, s₁.Inv → s₂.Inv → s₁.avalid = true → s₂.avalid = true → s₁.l = s₂.l → s₁.n = s₂.n →
        exec .pwidth s₁ = .next t₁ → exec .pwidth s₂ = .next t₂ → t₁.w = t₂.w
end

