-- ==== Sys2Proof/Laws/Memory.lean ====
section
/-! SUPPORT. The laws of the memory: what each operation does to a read of one address, that each keeps the canonical
form, and that equal reads mean equal canonical memories. The read laws hold for every list of cells, canonical or
not. -/

namespace Sys2Proof.Machine

theorem read_nil (a : Nat) : Memory.read [] a = Memory.unlisted a := rfl

theorem read_cons (b : Nat) (v : Byte) (m : Memory) (a : Nat) :
    Memory.read ((b, v) :: m) a = if a = b then v else m.read a := rfl

theorem read_of_not_listed {m : Memory} {a : Nat} (h : ∀ c ∈ m, c.1 ≠ a) : m.read a = Memory.unlisted a := by
  induction m with
  | nil => rfl
  | cons c m ih =>
    obtain ⟨b, v⟩ := c
    rw [read_cons, if_neg (fun hb => h (b, v) (by simp) hb.symm), ih fun c hc => h c (List.mem_cons_of_mem _ hc)]

/-- Filtering by address keeps the reads of the addresses kept. -/
theorem read_filter (p : Nat → Bool) (m : Memory) (a : Nat) :
    Memory.read (m.filter fun c => p c.1) a = if p a then m.read a else Memory.unlisted a := by
  induction m with
  | nil => simp [read_nil]
  | cons c m ih =>
    obtain ⟨b, v⟩ := c
    by_cases hb : a = b
    · subst hb
      by_cases hp : p a <;> simp [hp, read_cons, ih]
    · by_cases hp : p b <;> simp [hp, hb, read_cons, ih]

theorem read_insert {m : Memory} {a : Nat} (v : Byte) (h : ∀ c ∈ m, c.1 ≠ a) (b : Nat) :
    Memory.read (Memory.insert a v m) b = if b = a then v else m.read b := by
  induction m with
  | nil => simp [Memory.insert, read_cons, read_nil]
  | cons c m ih =>
    obtain ⟨k, x⟩ := c
    have hk : k ≠ a := h (k, x) (by simp)
    simp only [Memory.insert]
    split
    · simp [read_cons]
    · rw [read_cons, ih fun c hc => h c (List.mem_cons_of_mem _ hc), read_cons]
      split
      · next hb => simp [hb, hk]
      · rfl

/-- Everything a one-element store does to reads. -/
@[simp] theorem read_write (m : Memory) (a : Nat) (v : Byte) (b : Nat) :
    (m.write a v).read b = if b = a then v else m.read b := by
  have hf : ∀ b, Memory.read (m.filter fun c => c.1 != a) b = if b = a then Memory.unlisted a else m.read b := by
    intro b
    rw [read_filter (fun k => k != a)]
    by_cases hb : b = a <;> simp [hb]
  simp only [Memory.write]
  split
  · next hv => rw [hf]; simp [hv]
  · rw [read_insert v (by simp +contextual)]
    split
    · rfl
    · next hb => rw [hf]; simp [hb]

/-- Everything a block store does to reads. -/
theorem read_store (m : Memory) (a : Nat) (vs : List Byte) (b : Nat) :
    (m.store a vs).read b = if a ≤ b ∧ b < a + vs.length then vs.getD (b - a) 0#8 else m.read b := by
  induction vs generalizing m a with
  | nil => simp [Memory.store]
  | cons v vs ih =>
    simp only [Memory.store, ih, read_write, List.length_cons]
    by_cases hb : b = a
    · subst hb; simp
    · by_cases hr : a + 1 ≤ b ∧ b < a + 1 + vs.length
      · have h1 : a ≤ b ∧ b < a + (vs.length + 1) := by omega
        have h2 : b - a = (b - (a + 1)) + 1 := by omega
        simp [hr, h1, h2]
      · have h1 : ¬ (a ≤ b ∧ b < a + (vs.length + 1)) := by omega
        rw [if_neg hr, if_neg hb, if_neg h1]

theorem read_store_outside {m : Memory} {a : Nat} {vs : List Byte} {b : Nat} (h : ¬ (a ≤ b ∧ b < a + vs.length)) :
    (m.store a vs).read b = m.read b := by rw [read_store, if_neg h]

theorem read_store_inside {m : Memory} {a : Nat} {vs : List Byte} {i : Nat} (h : i < vs.length) :
    (m.store a vs).read (a + i) = vs[i] := by
  rw [read_store, if_pos (by omega), Nat.add_sub_cancel_left]
  simp [List.getD_eq_getElem?_getD, h]

/-- Everything a restore does to reads. -/
theorem read_restore (m : Memory) (a k b : Nat) :
    (m.restore a k).read b = if a ≤ b ∧ b < a + k then Memory.unlisted b else m.read b := by
  rw [Memory.restore, read_filter (fun c => !(decide (a ≤ c) && decide (c < a + k)))]
  by_cases h : a ≤ b ∧ b < a + k
  · simp [h.1, h.2]
  · rw [if_neg h, if_pos]
    simp only [Bool.not_and, Bool.or_eq_true, Bool.not_eq_true', decide_eq_false_iff_not]
    omega

/-! ### The canonical form -/

theorem wf_nil : Memory.wf [] := ⟨.nil, fun _ h => nomatch h⟩

theorem wf_filter {m : Memory} (p : Host.Cell → Bool) (h : m.wf) : Memory.wf (m.filter p) :=
  ⟨h.1.filter p, fun c hc => h.2 c (List.mem_of_mem_filter hc)⟩

theorem mem_insert {a : Nat} {v : Byte} {m : Memory} {c : Host.Cell} :
    c ∈ Memory.insert a v m ↔ c = (a, v) ∨ c ∈ m := by
  induction m with
  | nil => simp [Memory.insert]
  | cons d m ih =>
    obtain ⟨b, x⟩ := d
    simp only [Memory.insert]
    split
    · simp
    · simp only [List.mem_cons, ih]; tauto

theorem wf_insert {m : Memory} {a : Nat} {v : Byte} (h : m.wf) (hn : ∀ c ∈ m, c.1 ≠ a)
    (hv : v ≠ Memory.unlisted a) : Memory.wf (Memory.insert a v m) := by
  refine ⟨?_, fun c hc => ?_⟩
  · obtain ⟨hp, -⟩ := h
    induction m with
    | nil => simp [Memory.insert]
    | cons d m ih =>
      obtain ⟨b, x⟩ := d
      have hb : b ≠ a := hn (b, x) (by simp)
      rw [List.pairwise_cons] at hp
      simp only [Memory.insert]
      split
      · next hab =>
        refine List.pairwise_cons.2 ⟨fun c hc => ?_, List.pairwise_cons.2 hp⟩
        rcases List.mem_cons.1 hc with rfl | hc
        · exact hab
        · exact hab.trans (hp.1 c hc)
      · next hab =>
        refine List.pairwise_cons.2 ⟨fun c hc => ?_, ih (fun c hc => hn c (List.mem_cons_of_mem _ hc)) hp.2⟩
        rcases mem_insert.1 hc with rfl | hc
        · omega
        · exact hp.1 c hc
  · rcases mem_insert.1 hc with rfl | hc
    · exact hv
    · exact h.2 c hc

theorem wf_write {m : Memory} (h : m.wf) (a : Nat) (v : Byte) : (m.write a v).wf := by
  simp only [Memory.write]
  split
  · exact wf_filter _ h
  · next hv => exact wf_insert (wf_filter _ h) (by simp +contextual) hv

theorem wf_store {m : Memory} (h : m.wf) (a : Nat) (vs : List Byte) : (m.store a vs).wf := by
  induction vs generalizing m a with
  | nil => exact h
  | cons v vs ih => exact ih (wf_write h a v) (a + 1)

theorem wf_restore {m : Memory} (h : m.wf) (a k : Nat) : (m.restore a k).wf := wf_filter _ h

/-- Two canonical memories with the same reads are the same list: equal memories are equal data. -/
theorem wf_ext {m m' : Memory} (h : m.wf) (h' : m'.wf) (hr : ∀ a, m.read a = m'.read a) : m = m' := by
  have listed : ∀ {m m' : Memory}, m.wf → m'.wf → (∀ a, m.read a = m'.read a) → ∀ c ∈ m, c ∈ m' := by
    intro m m' h h' hr c hc
    have hm : m.read c.1 = c.2 := by
      clear hr h'
      obtain ⟨hp, -⟩ := h
      induction m with
      | nil => simp at hc
      | cons d m ih =>
        obtain ⟨b, x⟩ := d
        rw [List.pairwise_cons] at hp
        rw [read_cons]
        rcases List.mem_cons.1 hc with rfl | hc
        · simp
        · rw [if_neg (by have := hp.1 c hc; simp only at this; omega), ih hc hp.2]
    by_contra hn
    have : ∃ d ∈ m', d.1 = c.1 := by
      by_contra hd
      push Not at hd
      exact h.2 c hc (by rw [← hm, hr, read_of_not_listed hd])
    obtain ⟨d, hd, hdc⟩ := this
    have hm' : m'.read d.1 = d.2 := by
      clear hr hn
      obtain ⟨hp, -⟩ := h'
      induction m' with
      | nil => simp at hd
      | cons e m' ih =>
        obtain ⟨b, x⟩ := e
        rw [List.pairwise_cons] at hp
        rw [read_cons]
        rcases List.mem_cons.1 hd with rfl | hd
        · simp
        · rw [if_neg (by have := hp.1 d hd; simp only at this; omega), ih hd hp.2]
    exact hn (by
      have : d = c := Prod.ext hdc (by rw [← hm', hdc, ← hr, hm])
      exact this ▸ hd)
  have nodup : ∀ {m : Memory}, m.wf → m.Nodup := fun h => h.1.imp fun hcd he => absurd hcd (by simp [he])
  have perm : m.Perm m' := (List.perm_ext_iff_of_nodup (nodup h) (nodup h')).2 fun c =>
    ⟨listed h h' hr c, listed h' h (fun a => (hr a).symm) c⟩
  exact perm.eq_of_pairwise (fun c d _ _ hcd hdc => absurd hcd (by omega)) h.1 h'.1

end Sys2Proof.Machine
end

