-- ==== Sys2Proof/Laws/Ops.lean ====
section
/-! SUPPORT. What the shared operations over buffers and registers can do: one lemma each, to cite instead of unfolding
it. -/

namespace Sys2Proof.Machine

/-! ### Running commands -/

theorem run_bind_ok {α β : Type} {x : Except Fault α} {f : α → Except Fault β} {t : β} :
    (x >>= f) = .ok t ↔ ∃ a, x = .ok a ∧ f a = .ok t := by
  cases x <;> simp [bind, Except.bind]

theorem run_bind_error {α β : Type} {x : Except Fault α} {f : α → Except Fault β} {e : Fault} :
    (x >>= f) = .error e ↔ x = .error e ∨ ∃ a, x = .ok a ∧ f a = .error e := by
  cases x <;> simp [bind, Except.bind]

@[simp] theorem run_pure_ok {α : Type} {a b : α} : (pure a : Except Fault α) = .ok b ↔ a = b := by
  simp [pure, Except.pure]

@[simp] theorem conclude_eq_next {r : Run} {t : State} : conclude r = .next t ↔ r = .ok t := by
  cases r <;> simp [conclude]

@[simp] theorem conclude_eq_fault {r : Run} {f : Fault} : conclude r = .fault f ↔ r = .error f := by
  cases r <;> simp [conclude]

/-- No command is refused. -/
@[simp] theorem conclude_ne_refused (r : Run) (x : Refusal) : conclude r ≠ .refused x := by
  cases r <;> simp [conclude]

theorem withAlphabet_ok {s : State} {body : Run} {t : State} :
    withAlphabet s body = .ok t ↔ (s.avalid = true ∧ body = .ok t) ∨ (s.avalid = false ∧ t = fail .noalpha s) := by
  cases h : s.avalid <;> simp [withAlphabet, h, eq_comm]

@[simp] theorem withAlphabet_held {s : State} {body : Run} (h : s.avalid = true) : withAlphabet s body = body := by
  simp [withAlphabet, h]

/-! ### Where the buffers stand -/

theorem cmax_le (c : Config) : c.cmax ≤ 0x1000 := by
  have := c.lmax_le
  simp only [Config.cmax]; omega

/-- Every buffer fits its window of 0x1000 addresses (R64). -/
theorem size_le_window (c : Config) (b : Buf) : b.size c ≤ 0x1000 := by
  have h1 := c.lmax_le
  have h2 := c.domain_le
  have h3 := cmax_le c
  cases b <;> simp only [Buf.size] <;> omega

/-- Elements of different buffers have different addresses (R37). -/
theorem address_injective {b b' : Buf} {i j : Nat} (hi : i < 0x1000) (hj : j < 0x1000)
    (h : b.base + i = b'.base + j) : b = b' ∧ i = j := by
  cases b <;> cases b' <;> simp only [Buf.base, true_and, reduceCtorEq, false_and] at h ⊢ <;> omega

/-- What an element reads as where the memory does not list it. -/
theorem unlisted_elem (b : Buf) {i : Nat} (hi : i < 0x1000) :
    Memory.unlisted (b.base + i) = if b = .rev then invalidMark else 0#8 := by
  have h : (0x5000 ≤ b.base + i ∧ b.base + i < 0x6000) ↔ b = .rev := by
    cases b <;> simp only [Buf.base, reduceCtorEq, iff_false, iff_true] <;> omega
  simp only [Memory.unlisted, h]

/-! ### Block access -/

@[simp] theorem elems_length (s : State) (b : Buf) (k : Nat) : (s.elems b k).length = k := by simp [State.elems]

@[simp] theorem elems_getElem (s : State) (b : Buf) (k i : Nat) (h : i < (s.elems b k).length) :
    (s.elems b k)[i] = s.elem b i := by simp [State.elems]

theorem mem_elems {s : State} {b : Buf} {k : Nat} {v : Byte} : v ∈ s.elems b k ↔ ∃ i < k, s.elem b i = v := by
  simp [State.elems]

/-- The elements depend on the memory alone. -/
theorem elems_congr {s t : State} {b : Buf} {k : Nat} (h : ∀ i < k, s.elem b i = t.elem b i) :
    s.elems b k = t.elems b k := List.map_congr_left fun i hi => h i (List.mem_range.1 hi)

theorem readElems_ok {b : Buf} {k : Nat} {s : State} {xs : List Byte} :
    readElems b k s = .ok xs ↔ k ≤ b.size s.cfg ∧ xs = s.elems b k := by
  simp only [readElems]; split <;> simp_all [eq_comm]

theorem storeElems_ok {b : Buf} {vs : List Byte} {s t : State} :
    storeElems b vs s = .ok t ↔ vs.length ≤ b.size s.cfg ∧ t = { s with mem := s.mem.store b.base vs } := by
  simp only [storeElems]; split <;> simp_all [eq_comm]

/-- The elements of any buffer after a block store. -/
theorem elem_store (s : State) {b b' : Buf} {vs : List Byte} {i : Nat} (hv : vs.length ≤ b.size s.cfg)
    (hi : i < 0x1000) :
    ({ s with mem := s.mem.store b.base vs } : State).elem b' i
      = if b' = b ∧ i < vs.length then vs.getD i 0#8 else s.elem b' i := by
  have hw := size_le_window s.cfg b
  simp only [State.elem, read_store]
  by_cases hb : b' = b
  · subst hb
    by_cases h : i < vs.length
    · simp [h]
    · simp only [h, and_false, if_false]
      rw [if_neg (by omega)]
  · simp only [hb, false_and, if_false]
    rw [if_neg]
    rintro ⟨h1, h2⟩
    have := @address_injective b' b i (b'.base + i - b.base) hi (by omega) (by omega)
    exact hb this.1

/-- The elements of any buffer after a restore. -/
theorem elem_restoreBuf (s : State) {b b' : Buf} {i : Nat} (hi : i < 0x1000) :
    (restoreBuf b s).elem b' i
      = if b' = b ∧ i < b.size s.cfg then (if b = .rev then invalidMark else 0#8) else s.elem b' i := by
  have hw := size_le_window s.cfg b
  simp only [restoreBuf, State.elem, read_restore]
  by_cases hb : b' = b
  · subst hb
    by_cases h : i < b'.size s.cfg
    · simp [h, unlisted_elem b' hi]
    · simp only [h, and_false, if_false]
      rw [if_neg (by omega)]
  · simp only [hb, false_and, if_false]
    rw [if_neg]
    rintro ⟨h1, h2⟩
    have := @address_injective b' b i (b'.base + i - b.base) hi (by omega) (by omega)
    exact hb this.1

theorem reverseElems_ok {b : Buf} {k : Nat} {s t : State} :
    reverseElems b k s = .ok t
      ↔ k ≤ b.size s.cfg ∧ t = { s with mem := s.mem.store b.base (s.elems b k).reverse } := by
  simp only [reverseElems, run_bind_ok, readElems_ok, storeElems_ok]
  constructor
  · rintro ⟨_, ⟨hk, rfl⟩, -, ht⟩; exact ⟨hk, ht⟩
  · rintro ⟨hk, ht⟩; exact ⟨_, ⟨hk, rfl⟩, by simpa using hk, ht⟩

theorem zeroBytes_ok {s t : State} :
    zeroBytes s = .ok t
      ↔ s.l.toNat ≤ s.cfg.lmax ∧ t = { s with mem := s.mem.store 0x1000 (List.replicate s.l.toNat 0#8) } := by
  simp [zeroBytes, storeElems_ok, Buf.size, Buf.base]

/-! ### Operands -/

theorem lengthOperand_eq {l : Nat} {s : State} {v : Half} :
    lengthOperand l s = some v ↔ l ≤ s.cfg.lmax ∧ v = BitVec.ofNat 16 l := by
  simp only [lengthOperand]; split <;> simp_all [eq_comm]

theorem countOperand_eq {n : Nat} {v : Byte} :
    countOperand n = some v ↔ (2 ≤ n ∧ n ≤ 255) ∧ v = BitVec.ofNat 8 n := by
  by_cases h : 2 ≤ n ∧ n ≤ 255 <;> simp [countOperand, radixMin, radixMax, h, eq_comm]

theorem byteOperand_eq {b : Nat} {v : Byte} : byteOperand b = some v ↔ b ≤ 255 ∧ v = BitVec.ofNat 8 b := by
  simp only [byteOperand]; split <;> simp_all [eq_comm]

theorem digitOperand_eq {d : Nat} {s : State} {v : Byte} :
    digitOperand d s = some v ↔ d < s.n.toNat ∧ v = BitVec.ofNat 8 d := by
  simp only [digitOperand]; split <;> simp_all [eq_comm]

end Sys2Proof.Machine
end

