-- ==== Sys2Proof/Laws/Units.lean ====
section
/-! SUPPORT. When the units answer, and the lengths of what the passes over a buffer give. -/

namespace Sys2Proof.Machine

theorem divmod_eq_some {a : Half} {n : Byte} {p : Byte × Byte} :
    divmod a n = some p
      ↔ (2 ≤ n.toNat ∧ a.toNat < 256 * n.toNat)
        ∧ p = (BitVec.ofNat 8 (a.toNat / n.toNat), BitVec.ofNat 8 (a.toNat % n.toNat)) := by
  simp only [divmod]; split <;> simp_all [eq_comm]

/-- The dividend of a position: the digit in the high byte, the carry in the low byte (R130). -/
theorem dividend_toNat (d c : Byte) : (d ++ c : Half).toNat = d.toNat * 256 + c.toNat := by
  have := c.isLt
  rw [BitVec.toNat_append, Nat.shiftLeft_eq, Nat.mul_comm, ← Nat.two_pow_add_eq_or_of_lt this, Nat.mul_comm]

theorem encPositions_cons {n c d : Byte} {ds : List Byte} {p : List Byte × Byte} :
    encPositions n c (d :: ds) = some p
      ↔ ∃ q r rs c', divmod (d ++ c) n = some (q, r) ∧ encPositions n q ds = some (rs, c') ∧ p = (r :: rs, c') := by
  simp only [encPositions, Option.bind_eq_bind, Option.bind_eq_some_iff, Prod.exists, Option.pure_def,
    Option.some.injEq]
  constructor
  · rintro ⟨q, r, h1, rs, c', h2, h3⟩; exact ⟨q, r, rs, c', h1, h2, h3.symm⟩
  · rintro ⟨q, r, rs, c', h1, h2, h3⟩; exact ⟨q, r, h1, rs, c', h2, h3.symm⟩

theorem encAppend_succ {n c : Byte} {room : Nat} {p : List Byte × Byte} (hc : c ≠ 0#8) :
    encAppend n (room + 1) c = some p
      ↔ ∃ q r rs c', divmod (0#8 ++ c) n = some (q, r) ∧ encAppend n room q = some (rs, c') ∧ p = (r :: rs, c') := by
  simp only [encAppend, hc, if_false, Option.bind_eq_bind, Option.bind_eq_some_iff, Prod.exists, Option.pure_def,
    Option.some.injEq]
  constructor
  · rintro ⟨q, r, h1, rs, c', h2, h3⟩; exact ⟨q, r, rs, c', h1, h2, h3.symm⟩
  · rintro ⟨q, r, rs, c', h1, h2, h3⟩; exact ⟨q, r, h1, rs, c', h2, h3.symm⟩

@[simp] theorem encAppend_zero_carry (n : Byte) (room : Nat) : encAppend n room 0#8 = some ([], 0#8) := by
  cases room <;> simp [encAppend]

theorem encDigits_eq_some {n b : Byte} {room : Nat} {ds : List Byte} {p : List Byte × Byte} :
    encDigits n b room ds = some p
      ↔ ∃ rs c as c', encPositions n b ds = some (rs, c) ∧ encAppend n room c = some (as, c') ∧ p = (rs ++ as, c') := by
  simp only [encDigits, Option.bind_eq_bind, Option.bind_eq_some_iff, Prod.exists, Option.pure_def, Option.some.injEq]
  constructor
  · rintro ⟨rs, c, h1, as, c', h2, h3⟩; exact ⟨rs, c, as, c', h1, h2, h3.symm⟩
  · rintro ⟨rs, c, as, c', h1, h2, h3⟩; exact ⟨rs, c, h1, as, c', h2, h3.symm⟩

theorem encPositions_length {n : Byte} {ds : List Byte} {c : Byte} {p : List Byte × Byte}
    (h : encPositions n c ds = some p) : p.1.length = ds.length := by
  induction ds generalizing c p with
  | nil => simp only [encPositions, Option.some.injEq] at h; simp [← h]
  | cons d ds ih =>
    obtain ⟨q, r, rs, c', -, h2, rfl⟩ := encPositions_cons.1 h
    simp [ih h2]

theorem encAppend_length {n : Byte} {room : Nat} {c : Byte} {p : List Byte × Byte}
    (h : encAppend n room c = some p) : p.1.length ≤ room := by
  induction room generalizing c p with
  | zero => simp only [encAppend, Option.some.injEq] at h; simp [← h]
  | succ room ih =>
    by_cases hc : c = 0#8
    · subst hc; simp only [encAppend_zero_carry, Option.some.injEq] at h; simp [← h]
    · obtain ⟨q, r, rs, c', -, h2, rfl⟩ := (encAppend_succ hc).1 h
      simpa using ih h2

/-- An encode inject keeps the digits it has and adds at most the room there is. -/
theorem encDigits_length {n b : Byte} {room : Nat} {ds : List Byte} {p : List Byte × Byte}
    (h : encDigits n b room ds = some p) : ds.length ≤ p.1.length ∧ p.1.length ≤ ds.length + room := by
  obtain ⟨rs, c, as, c', h1, h2, rfl⟩ := encDigits_eq_some.1 h
  have := encPositions_length h1
  have := encAppend_length h2
  simp only [List.length_append] at *
  omega

theorem decBytes_cons (n c b : Byte) (bs : List Byte) :
    decBytes n c (b :: bs)
      = ((mac b n c).1 :: (decBytes n (mac b n c).2 bs).1, (decBytes n (mac b n c).2 bs).2) := rfl

@[simp] theorem decBytes_length (n c : Byte) (bs : List Byte) : (decBytes n c bs).1.length = bs.length := by
  induction bs generalizing c with
  | nil => rfl
  | cons b bs ih => simp [decBytes_cons, ih]

end Sys2Proof.Machine
end

