-- ==== Sys2Proof/Laws/Sequencer.lean ====
section
/-! SUPPORT. What the sequencer's operations can do: if they answer, the state they leave. -/

namespace Sys2Proof.Machine

/-- The states agree but for DB, DLEN and CARRY: what a run of encode injects may change. -/
def EncodeFrame (s t : State) : Prop :=
  t = { s with dlen := t.dlen, carry := t.carry, mem := t.mem }
    ∧ ∀ a, ¬ (0x2000 ≤ a ∧ a < 0x2000 + s.cfg.cmax) → t.mem.read a = s.mem.read a

/-- The states agree but for BB[0..L−1] and CARRY: what a run of decode injects may change. -/
def DecodeFrame (s t : State) : Prop :=
  t = { s with carry := t.carry, mem := t.mem }
    ∧ ∀ a, ¬ (0x1000 ≤ a ∧ a < 0x1000 + s.l.toNat) → t.mem.read a = s.mem.read a

theorem EncodeFrame.refl (s : State) : EncodeFrame s s := ⟨rfl, fun _ _ => rfl⟩

theorem DecodeFrame.refl (s : State) : DecodeFrame s s := ⟨rfl, fun _ _ => rfl⟩

theorem EncodeFrame.cfg {s t : State} (h : EncodeFrame s t) : t.cfg = s.cfg := by rw [h.1]

theorem EncodeFrame.trans {s t u : State} (h : EncodeFrame s t) (h' : EncodeFrame t u) : EncodeFrame s u := by
  refine ⟨?_, fun a ha => ?_⟩
  · rw [h'.1, h.1]
  · rw [h'.2 a (by rw [h.cfg]; exact ha), h.2 a ha]

theorem DecodeFrame.len {s t : State} (h : DecodeFrame s t) : t.l = s.l := by rw [h.1]

theorem DecodeFrame.trans {s t u : State} (h : DecodeFrame s t) (h' : DecodeFrame t u) : DecodeFrame s u := by
  refine ⟨?_, fun a ha => ?_⟩
  · rw [h'.1, h.1]
  · rw [h'.2 a (by rw [h.len]; exact ha), h.2 a ha]

/-! ### Lookups -/

theorem fwdElem_ok {s : State} {d v : Byte} : fwdElem s d = .ok v ↔ d.toNat < 255 ∧ v = s.elem .fwd d.toNat := by
  by_cases h : d.toNat < 255 <;> simp [fwdElem, Buf.size, h, eq_comm]

theorem lookup_eq_some {s : State} {c d : Byte} :
    lookup s c = some d ↔ c.toNat < s.cfg.domain ∧ s.elem .rev c.toNat = d ∧ d ≠ invalidMark := by
  simp only [lookup]
  split
  · next h => simp; omega
  · next h =>
    split
    · next h' => simp only [reduceCtorEq, h', false_iff]; rintro ⟨-, h, h'⟩; exact h' h.symm
    · next h' =>
      simp only [Option.some.injEq]
      exact ⟨fun h => ⟨by omega, h, h ▸ h'⟩, fun h => h.2.1⟩

theorem lookup_eq_none {s : State} {c : Byte} :
    lookup s c = none ↔ s.cfg.domain ≤ c.toNat ∨ s.elem .rev c.toNat = invalidMark := by
  simp only [lookup]; split <;> [simp_all; (split <;> simp_all)]

/-! ### Encode -/

theorem encInject_ok {b : Byte} {s t : State} :
    encInject b s = .ok t
      ↔ s.dlen.toNat ≤ s.cfg.cmax
        ∧ ∃ ds c, encDigits s.n b (s.cfg.cmax - s.dlen.toNat) (s.elems .db s.dlen.toNat) = some (ds, c)
          ∧ t = { s with mem := s.mem.store 0x2000 ds, dlen := BitVec.ofNat 16 ds.length, carry := c } := by
  simp only [encInject, run_bind_ok, readElems_ok]
  constructor
  · rintro ⟨_, ⟨hk, rfl⟩, h⟩
    split at h
    · cases h
    · next ds c hd =>
      simp only [run_bind_ok, storeElems_ok] at h
      obtain ⟨_, ⟨-, rfl⟩, h⟩ := h
      exact ⟨hk, ds, c, hd, (run_pure_ok.1 h).symm⟩
  · rintro ⟨hk, ds, c, hd, rfl⟩
    refine ⟨_, ⟨hk, rfl⟩, ?_⟩
    have hl := encDigits_length hd
    simp only [elems_length] at hl
    simp only [hd, run_bind_ok, storeElems_ok]
    exact ⟨_, ⟨by simp only [Buf.size]; omega, rfl⟩, rfl⟩

/-- The only fault of an encode inject within the buffer is a use of the divmod engine outside its contract. -/
theorem encInject_fault {b : Byte} {s : State} {e : Fault} (hk : s.dlen.toNat ≤ s.cfg.cmax)
    (h : encInject b s = .error e) :
    encDigits s.n b (s.cfg.cmax - s.dlen.toNat) (s.elems .db s.dlen.toNat) = none := by
  by_contra hn
  obtain ⟨⟨ds, c⟩, hd⟩ := Option.ne_none_iff_exists'.1 hn
  rw [encInject_ok.2 ⟨hk, ds, c, hd, rfl⟩] at h
  cases h

theorem encInject_frame {b : Byte} {s t : State} (h : encInject b s = .ok t) : EncodeFrame s t := by
  obtain ⟨hk, ds, c, hd, rfl⟩ := encInject_ok.1 h
  have hl := encDigits_length hd
  simp only [elems_length] at hl
  exact ⟨rfl, fun a ha => read_store_outside (by omega)⟩

theorem encInject_dlen {b : Byte} {s t : State} (h : encInject b s = .ok t) :
    s.dlen.toNat ≤ t.dlen.toNat ∧ t.dlen.toNat ≤ s.cfg.cmax := by
  obtain ⟨hk, ds, c, hd, rfl⟩ := encInject_ok.1 h
  have hl := encDigits_length hd
  have hw := cmax_le s.cfg
  simp only [elems_length] at hl
  simp only [BitVec.toNat_ofNat]
  rw [Nat.mod_eq_of_lt (by omega)]
  omega

theorem encInjectAll_cons {b : Byte} {bs : List Byte} {s u : State} :
    encInjectAll (b :: bs) s = .ok u ↔ ∃ t, encInject b s = .ok t ∧ encInjectAll bs t = .ok u := by
  simp only [encInjectAll, run_bind_ok]

theorem encInjectAll_frame {bs : List Byte} {s t : State} (h : encInjectAll bs s = .ok t) : EncodeFrame s t := by
  induction bs generalizing s with
  | nil => cases h; exact .refl _
  | cons b bs ih =>
    obtain ⟨u, h1, h2⟩ := encInjectAll_cons.1 h
    exact (encInject_frame h1).trans (ih h2)

theorem widthCompute_ok {s t : State} :
    widthCompute s = .ok t
      ↔ ∃ u v, upperBound s.l.toNat s.n.toNat = some u
        ∧ encInjectAll (List.replicate s.l.toNat 0xFF#8) (clearDigits { s with ub := u, carry := 0 }) = .ok v
        ∧ t = { v with w := v.dlen, wvalid := true } := by
  simp only [widthCompute]
  split
  · next h => simp [h]
  · next u h =>
    simp only [run_bind_ok, run_pure_ok, h, Option.some.injEq]
    constructor
    · rintro ⟨v, h1, rfl⟩; exact ⟨u, v, rfl, h1, rfl⟩
    · rintro ⟨_, v, rfl, h1, rfl⟩; exact ⟨v, h1, rfl⟩

theorem ensureWidth_ok {s t : State} :
    ensureWidth s = .ok t ↔ (s.wvalid = true ∧ t = s) ∨ (s.wvalid = false ∧ widthCompute s = .ok t) := by
  cases h : s.wvalid <;> simp [ensureWidth, h, eq_comm]

theorem accumulateBytes_ok {s t : State} :
    accumulateBytes s = .ok t
      ↔ s.l.toNat ≤ s.cfg.lmax
        ∧ encInjectAll (s.elems .bb s.l.toNat) (clearDigits { s with carry := 0 }) = .ok t := by
  simp only [accumulateBytes, run_bind_ok, readElems_ok, Buf.size]
  constructor
  · rintro ⟨_, ⟨hl, rfl⟩, h⟩; exact ⟨hl, h⟩
  · rintro ⟨hl, h⟩; exact ⟨_, ⟨hl, rfl⟩, h⟩

theorem mapM_fwdElem_ok {s : State} {ds cs : List Byte} :
    ds.mapM (fwdElem s) = .ok cs ↔ (∀ d ∈ ds, d.toNat < 255) ∧ cs = ds.map fun d => s.elem .fwd d.toNat := by
  induction ds generalizing cs with
  | nil => simp [pure, Except.pure, eq_comm]
  | cons d ds ih =>
    simp only [List.mapM_cons, run_bind_ok, run_pure_ok, ih, fwdElem_ok, List.mem_cons, forall_eq_or_imp,
      List.map_cons]
    constructor
    · rintro ⟨_, ⟨h1, rfl⟩, _, ⟨h2, rfl⟩, rfl⟩; exact ⟨⟨h1, h2⟩, rfl⟩
    · rintro ⟨⟨h1, h2⟩, rfl⟩; exact ⟨_, ⟨h1, rfl⟩, _, ⟨h2, rfl⟩, rfl⟩

theorem mapDigits_ok {k : Half} {s t : State} :
    mapDigits k s = .ok t
      ↔ k.toNat ≤ s.cfg.cmax ∧ (∀ i < k.toNat, (s.elem .db i).toNat < 255)
        ∧ t = { s with
            slen := k
            mem := s.mem.store 0x3000 ((s.elems .db k.toNat).map fun d => s.elem .fwd d.toNat) } := by
  simp only [mapDigits, run_bind_ok, readElems_ok, mapM_fwdElem_ok, storeElems_ok, run_pure_ok, Buf.size]
  constructor
  · rintro ⟨_, ⟨hk, rfl⟩, _, ⟨hd, rfl⟩, _, ⟨-, rfl⟩, rfl⟩
    exact ⟨hk, fun i hi => hd _ (mem_elems.2 ⟨i, hi, rfl⟩), rfl⟩
  · rintro ⟨hk, hd, rfl⟩
    refine ⟨_, ⟨hk, rfl⟩, _, ⟨fun d h => ?_, rfl⟩, _, ⟨by simpa using hk, rfl⟩, rfl⟩
    obtain ⟨i, hi, rfl⟩ := mem_elems.1 h
    exact hd i hi

/-! ### Decode -/

theorem decInject_ok {d : Byte} {s t : State} :
    decInject d s = .ok t
      ↔ s.l.toNat ≤ s.cfg.lmax
        ∧ t = { s with
            mem := s.mem.store 0x1000 (decBytes s.n d (s.elems .bb s.l.toNat)).1
            carry := (decBytes s.n d (s.elems .bb s.l.toNat)).2 } := by
  simp only [decInject, run_bind_ok, readElems_ok, storeElems_ok, run_pure_ok, Buf.size]
  constructor
  · rintro ⟨_, ⟨hl, rfl⟩, _, ⟨-, rfl⟩, rfl⟩; exact ⟨hl, rfl⟩
  · rintro ⟨hl, rfl⟩; exact ⟨_, ⟨hl, rfl⟩, _, ⟨by simpa using hl, rfl⟩, rfl⟩

theorem decInject_frame {d : Byte} {s t : State} (h : decInject d s = .ok t) : DecodeFrame s t := by
  obtain ⟨-, rfl⟩ := decInject_ok.1 h
  exact ⟨rfl, fun a ha => read_store_outside (by simpa using ha)⟩

theorem zeroBytes_frame {s t : State} (h : zeroBytes s = .ok t) : DecodeFrame s t := by
  obtain ⟨-, rfl⟩ := zeroBytes_ok.1 h
  exact ⟨rfl, fun a ha => read_store_outside (by simpa using ha)⟩

/-- The character loop at one more character: the lookup decides first, then the carry of the inject. -/
theorem decodeChars_cons {c : Byte} {cs : List Byte} {s t : State} :
    decodeChars (c :: cs) s = .ok t
      ↔ (lookup s c = none ∧ ∃ u, zeroBytes s = .ok u ∧ t = fail .invchar u)
        ∨ ∃ d u, lookup s c = some d ∧ decInject d s = .ok u
          ∧ ((u.carry ≠ 0#8 ∧ ∃ v, zeroBytes u = .ok v ∧ t = fail .overflow v)
            ∨ (u.carry = 0#8 ∧ decodeChars cs u = .ok t)) := by
  rw [decodeChars]
  split
  · next h =>
    simp only [run_bind_ok, run_pure_ok, h, true_and, reduceCtorEq, false_and, exists_false, or_false]
    exact exists_congr fun u => and_congr_right fun _ => eq_comm
  · next d h =>
    simp only [run_bind_ok, h, reduceCtorEq, false_and, false_or, Option.some.injEq, ne_eq]
    constructor
    · rintro ⟨u, h1, h2⟩
      refine ⟨d, u, rfl, h1, ?_⟩
      split at h2
      · next hc =>
        obtain ⟨v, h3, h4⟩ := run_bind_ok.1 h2
        exact .inl ⟨hc, v, h3, (run_pure_ok.1 h4).symm⟩
      · next hc => exact .inr ⟨by simpa using hc, h2⟩
    · rintro ⟨_, u, rfl, h1, h2⟩
      refine ⟨u, h1, ?_⟩
      rcases h2 with ⟨hc, v, h3, rfl⟩ | ⟨hc, h2⟩
      · rw [if_pos hc]; exact run_bind_ok.2 ⟨v, h3, rfl⟩
      · rw [if_neg (by simpa using hc)]; exact h2

theorem decodeChars_nil {s t : State} :
    decodeChars [] s = .ok t ↔ ∃ u, reverseElems .bb s.l.toNat s = .ok u ∧ t = finish u := by
  rw [decodeChars, run_bind_ok]
  exact exists_congr fun u => and_congr_right fun _ => by rw [run_pure_ok, eq_comm]

/-- What the character loop may change: ERR, CARRY and BB[0..L−1]; and the codes it can end with. -/
theorem decodeChars_frame {cs : List Byte} {s t : State} (h : decodeChars cs s = .ok t) :
    t = { s with err := t.err, carry := t.carry, mem := t.mem }
      ∧ (∀ a, ¬ (0x1000 ≤ a ∧ a < 0x1000 + s.l.toNat) → t.mem.read a = s.mem.read a)
      ∧ (t.err = .ok ∨ t.err = .invchar ∨ t.err = .overflow) := by
  induction cs generalizing s with
  | nil =>
    obtain ⟨u, hu, rfl⟩ := decodeChars_nil.1 h
    obtain ⟨-, rfl⟩ := reverseElems_ok.1 hu
    exact ⟨rfl, fun a ha => read_store_outside (by simpa [Buf.base] using ha), .inl rfl⟩
  | cons c cs ih =>
    rcases decodeChars_cons.1 h with ⟨-, u, hu, rfl⟩ | ⟨d, u, -, hu, ⟨-, v, hv, rfl⟩ | ⟨-, ht⟩⟩
    · have hf := zeroBytes_frame hu
      exact ⟨by rw [fail, hf.1], hf.2, .inr (.inl rfl)⟩
    · have hf := (decInject_frame hu).trans (zeroBytes_frame hv)
      exact ⟨by rw [fail, hf.1], hf.2, .inr (.inr rfl)⟩
    · have hf := decInject_frame hu
      obtain ⟨h1, h2, h3⟩ := ih ht
      exact ⟨by rw [h1, hf.1], fun a ha => by rw [h2 a (by rw [hf.len]; exact ha), hf.2 a ha], h3⟩

/-! ### ABUILD's loop -/

theorem enterChars_cons {i : Nat} {c : Byte} {cs : List Byte} {s t : State} :
    enterChars i (c :: cs) s = some t
      ↔ c.toNat < s.cfg.domain ∧ s.elem .rev c.toNat = invalidMark
        ∧ enterChars (i + 1) cs { s with mem := s.mem.write (0x5000 + c.toNat) (BitVec.ofNat 8 i) } = some t := by
  rw [enterChars]
  split
  · next h => simp; omega
  · next h =>
    split
    · next h' => simp [h']
    · next h' => simp only [ne_eq, not_not] at h'; simp [h', Buf.base]; omega

theorem enterChars_frame {i : Nat} {cs : List Byte} {s t : State} (h : enterChars i cs s = some t) :
    t = { s with mem := t.mem }
      ∧ ∀ a, ¬ (0x5000 ≤ a ∧ a < 0x5000 + s.cfg.domain) → t.mem.read a = s.mem.read a := by
  induction cs generalizing i s with
  | nil => cases h; exact ⟨rfl, fun _ _ => rfl⟩
  | cons c cs ih =>
    obtain ⟨hc, -, h⟩ := enterChars_cons.1 h
    obtain ⟨h1, h2⟩ := ih h
    refine ⟨by rw [h1], fun a ha => ?_⟩
    rw [h2 a ha, read_write, if_neg (by omega)]

end Sys2Proof.Machine
end

