-- ==== Sys2Proof/Laws/Commands.lean ====
section
/-! SUPPORT. What each command of several phases can do, once: if it gives a next state, through which states it went. -/

namespace Sys2Proof.Machine

theorem execAbuild_next {n : Nat} {s t : State} :
    execAbuild n s = .next t
      ↔ ∃ u, u = restoreBuf .rev (clearDigits (invalidateWidth s))
        ∧ (((¬ (2 ≤ n ∧ n ≤ 255) ∨ enterChars 0 (u.elems .fwd n) u = none) ∧ t = dropAlphabet u)
          ∨ ((2 ≤ n ∧ n ≤ 255) ∧ ∃ v, enterChars 0 (u.elems .fwd n) u = some v
              ∧ t = finish { v with n := BitVec.ofNat 8 n, avalid := true })) := by
  simp only [execAbuild, conclude_eq_next, exists_eq_left]
  split
  · next h =>
    have hn : ¬ (2 ≤ n ∧ n ≤ 255) := fun hn => by simpa [h] using (countOperand_eq (n := n)).2 ⟨hn, rfl⟩
    simp [hn, eq_comm]
  · next r h =>
    obtain ⟨hn, rfl⟩ := countOperand_eq.1 h
    simp only [run_bind_ok, readElems_ok]
    constructor
    · rintro ⟨_, ⟨-, rfl⟩, h⟩
      split at h
      · next he => exact .inl ⟨.inr he, (run_pure_ok.1 h).symm⟩
      · next v he => exact .inr ⟨hn, v, he, (run_pure_ok.1 h).symm⟩
    · rintro (⟨h | h, rfl⟩ | ⟨-, v, h, rfl⟩)
      · exact absurd hn h
      · exact ⟨_, ⟨by simpa [Buf.size] using hn.2, rfl⟩, by simp [h]⟩
      · exact ⟨_, ⟨by simpa [Buf.size] using hn.2, rfl⟩, by simp [h]⟩

theorem execEinj_next {b : Nat} {s t : State} :
    execEinj b s = .next t
      ↔ (s.avalid = false ∧ t = fail .noalpha s)
        ∨ (s.avalid = true ∧ 255 < b ∧ t = fail .badarg s)
        ∨ (s.avalid = true ∧ b ≤ 255 ∧ ∃ u, encInject (BitVec.ofNat 8 b) s = .ok u
            ∧ t = if u.carry ≠ 0#8 then fail .capacity u else finish u) := by
  simp only [execEinj, conclude_eq_next, withAlphabet_ok]
  cases ho : byteOperand b with
  | none =>
    have hb : 255 < b := by
      by_contra hb
      simpa [ho] using (byteOperand_eq (b := b)).2 ⟨by omega, rfl⟩
    have hb' : ¬ b ≤ 255 := by omega
    simp only [hb, hb', Except.ok.injEq, true_and, false_and, and_false, or_false]
    rw [or_comm]
    simp only [eq_comm (b := t)]
  | some v =>
    obtain ⟨hb, rfl⟩ := byteOperand_eq.1 ho
    have hb' : ¬ 255 < b := by omega
    simp only [run_bind_ok, hb, hb', true_and, false_and, and_false, false_or]
    rw [or_comm]
    refine or_congr_right (and_congr_right fun _ => exists_congr fun u => and_congr_right fun _ => ?_)
    split <;> rw [run_pure_ok, eq_comm]

theorem execDinj_next {d : Nat} {s t : State} :
    execDinj d s = .next t
      ↔ (s.avalid = false ∧ t = fail .noalpha s)
        ∨ (s.avalid = true ∧ s.n.toNat ≤ d ∧ t = fail .badarg s)
        ∨ (s.avalid = true ∧ d < s.n.toNat ∧ ∃ u, decInject (BitVec.ofNat 8 d) s = .ok u
            ∧ t = if u.carry ≠ 0#8 then fail .overflow u else finish u) := by
  simp only [execDinj, conclude_eq_next, withAlphabet_ok]
  cases ho : digitOperand d s with
  | none =>
    have hd : s.n.toNat ≤ d := by
      by_contra hd
      simpa [ho] using (digitOperand_eq (d := d) (s := s)).2 ⟨by omega, rfl⟩
    have hd' : ¬ d < s.n.toNat := by omega
    simp only [hd, hd', Except.ok.injEq, true_and, false_and, and_false, or_false]
    rw [or_comm]
    simp only [eq_comm (b := t)]
  | some v =>
    obtain ⟨hd, rfl⟩ := digitOperand_eq.1 ho
    have hd' : ¬ s.n.toNat ≤ d := by omega
    simp only [run_bind_ok, hd, hd', true_and, false_and, and_false, false_or]
    rw [or_comm]
    refine or_congr_right (and_congr_right fun _ => exists_congr fun u => and_congr_right fun _ => ?_)
    split <;> rw [run_pure_ok, eq_comm]

theorem execPwidth_next {s t : State} :
    execPwidth s = .next t
      ↔ (s.avalid = true ∧ ∃ u, widthCompute s = .ok u ∧ t = finish u)
        ∨ (s.avalid = false ∧ t = fail .noalpha s) := by
  simp only [execPwidth, conclude_eq_next, withAlphabet_ok, run_bind_ok, run_pure_ok, eq_comm (b := t)]

theorem execDmap_next {s t : State} :
    execDmap s = .next t
      ↔ (s.avalid = true ∧ ∃ u, mapDigits s.dlen s = .ok u ∧ t = finish u)
        ∨ (s.avalid = false ∧ t = fail .noalpha s) := by
  simp only [execDmap, conclude_eq_next, withAlphabet_ok, run_bind_ok, run_pure_ok, eq_comm (b := t)]

theorem execEncf_next {s t : State} :
    execEncf s = .next t
      ↔ (s.avalid = true ∧ ∃ a, ensureWidth s = .ok a ∧ ∃ b, accumulateBytes a = .ok b
            ∧ ∃ c, reverseElems .db b.w.toNat { b with dlen := b.w } = .ok c
            ∧ ∃ d, mapDigits c.w c = .ok d ∧ t = finish d)
        ∨ (s.avalid = false ∧ t = fail .noalpha s) := by
  simp only [execEncf, conclude_eq_next, withAlphabet_ok, run_bind_ok, run_pure_ok, eq_comm (b := t)]

theorem execEncm_next {s t : State} :
    execEncm s = .next t
      ↔ (s.avalid = true ∧ ∃ a, accumulateBytes s = .ok a ∧ ∃ b, reverseElems .db a.dlen.toNat a = .ok b
            ∧ ∃ c, mapDigits b.dlen b = .ok c ∧ t = finish c)
        ∨ (s.avalid = false ∧ t = fail .noalpha s) := by
  simp only [execEncm, conclude_eq_next, withAlphabet_ok, run_bind_ok, run_pure_ok, eq_comm (b := t)]

theorem execDecm_next {s t : State} :
    execDecm s = .next t
      ↔ (s.avalid = true ∧ ∃ a, zeroBytes { s with carry := 0 } = .ok a ∧ a.slen.toNat ≤ a.cfg.cmax
            ∧ decodeChars (a.elems .sb a.slen.toNat) a = .ok t)
        ∨ (s.avalid = false ∧ t = fail .noalpha s) := by
  simp only [execDecm, conclude_eq_next, withAlphabet_ok, run_bind_ok, readElems_ok, Buf.size]
  refine or_congr_left (and_congr_right fun _ => exists_congr fun a => and_congr_right fun _ => ?_)
  exact ⟨fun ⟨_, ⟨h1, h2⟩, h3⟩ => ⟨h1, h2 ▸ h3⟩, fun ⟨h1, h3⟩ => ⟨_, ⟨h1, rfl⟩, h3⟩⟩

theorem execDecf_next {s t : State} :
    execDecf s = .next t
      ↔ (s.avalid = true ∧ ∃ a, ensureWidth s = .ok a ∧ ∃ b, zeroBytes { a with carry := 0 } = .ok b
            ∧ ((b.slen ≠ b.w ∧ t = fail .invlen b)
              ∨ (b.slen = b.w ∧ b.slen.toNat ≤ b.cfg.cmax ∧ decodeChars (b.elems .sb b.slen.toNat) b = .ok t)))
        ∨ (s.avalid = false ∧ t = fail .noalpha s) := by
  simp only [execDecf, conclude_eq_next, withAlphabet_ok, run_bind_ok]
  refine or_congr_left (and_congr_right fun _ => exists_congr fun a => and_congr_right fun _ =>
    exists_congr fun b => and_congr_right fun _ => ?_)
  by_cases h : b.slen = b.w
  · simp only [h, ne_eq, not_true, if_false, run_bind_ok, readElems_ok, Buf.size, false_and, false_or, true_and]
    exact ⟨fun ⟨_, ⟨h1, h2⟩, h3⟩ => ⟨h1, h2 ▸ h3⟩, fun ⟨h1, h3⟩ => ⟨_, ⟨h1, rfl⟩, h3⟩⟩
  · simp only [h, ne_eq, not_false_eq_true, if_true, run_pure_ok, true_and, false_and, or_false]
    exact eq_comm

end Sys2Proof.Machine
end

