-- ==== Sys2Proof/Laws/PerInstr.lean ====
section
/-! SUPPORT. Laws of the instructions as syntax, one lemma per constructor of `Instr`. -/

namespace Sys2Proof.Laws

/-- The fields of a command's word are those of R91: the opcode, a zero byte, and the operand. -/
def EncodedFields.Statement (i : Instr) : Prop :=
  i.WellFormed →
    (opcodeField (encode i)).toNat = i.opcode ∧ zero8Field (encode i) = 0 ∧ (highField (encode i)).toNat = i.operand

/-- The fields of (v << 16) | op. -/
theorem fields_of_operand {v op : Nat} (hv : v ≤ 0xFFFF) (ho : op < 256) :
    (opcodeField ((BitVec.ofNat 32 v <<< 16) ||| BitVec.ofNat 32 op)).toNat = op
      ∧ zero8Field ((BitVec.ofNat 32 v <<< 16) ||| BitVec.ofNat 32 op) = 0
      ∧ (highField ((BitVec.ofNat 32 v <<< 16) ||| BitVec.ofNat 32 op)).toNat = v := by
  have hw : ((BitVec.ofNat 32 v <<< 16) ||| BitVec.ofNat 32 op).toNat = v * 65536 + op := by
    rw [BitVec.toNat_or, BitVec.toNat_shiftLeft, BitVec.toNat_ofNat, BitVec.toNat_ofNat, Nat.shiftLeft_eq,
      Nat.mod_eq_of_lt (by omega : v < 2 ^ 32), Nat.mod_eq_of_lt (by omega : op < 2 ^ 32),
      Nat.mod_eq_of_lt (by omega : v * 2 ^ 16 < 2 ^ 32)]
    have := Nat.two_pow_add_eq_or_of_lt (i := 16) (b := op) (by omega) v
    rw [Nat.mul_comm] at this
    exact this.symm
  refine ⟨?_, ?_, ?_⟩
  · simp only [opcodeField, BitVec.extractLsb'_toNat, hw, Nat.shiftRight_zero]; omega
  · apply BitVec.eq_of_toNat_eq
    rw [zero8Field, BitVec.extractLsb'_toNat, hw, Nat.shiftRight_eq_div_pow]
    show _ = 0
    omega
  · simp only [highField, BitVec.extractLsb'_toNat, hw, Nat.shiftRight_eq_div_pow]; omega

theorem EncodedFields.nop : EncodedFields.Statement .nop := fun _ => fields_of_operand (v := 0) (by decide) (by decide)

theorem EncodedFields.setl (l : Nat) : EncodedFields.Statement (.setl l) := fun h =>
  fields_of_operand (v := l) (of_decide_eq_true h) (by simp [Instr.opcode])

theorem EncodedFields.abuild (n : Nat) : EncodedFields.Statement (.abuild n) := fun h =>
  fields_of_operand (v := n) (of_decide_eq_true h) (by simp [Instr.opcode])

theorem EncodedFields.dclr : EncodedFields.Statement .dclr := fun _ => fields_of_operand (v := 0) (by decide) (by decide)

theorem EncodedFields.bclr : EncodedFields.Statement .bclr := fun _ => fields_of_operand (v := 0) (by decide) (by decide)

theorem EncodedFields.einj (b : Nat) : EncodedFields.Statement (.einj b) := fun h =>
  fields_of_operand (v := b) (of_decide_eq_true h) (by simp [Instr.opcode])

theorem EncodedFields.dinj (d : Nat) : EncodedFields.Statement (.dinj d) := fun h =>
  fields_of_operand (v := d) (of_decide_eq_true h) (by simp [Instr.opcode])

theorem EncodedFields.drev : EncodedFields.Statement .drev := fun _ => fields_of_operand (v := 0) (by decide) (by decide)

theorem EncodedFields.brev : EncodedFields.Statement .brev := fun _ => fields_of_operand (v := 0) (by decide) (by decide)

theorem EncodedFields.dmap : EncodedFields.Statement .dmap := fun _ => fields_of_operand (v := 0) (by decide) (by decide)

theorem EncodedFields.pwidth : EncodedFields.Statement .pwidth := fun _ => fields_of_operand (v := 0) (by decide) (by decide)

theorem EncodedFields.encf : EncodedFields.Statement .encf := fun _ => fields_of_operand (v := 0) (by decide) (by decide)

theorem EncodedFields.encm : EncodedFields.Statement .encm := fun _ => fields_of_operand (v := 0) (by decide) (by decide)

theorem EncodedFields.decf : EncodedFields.Statement .decf := fun _ => fields_of_operand (v := 0) (by decide) (by decide)

theorem EncodedFields.decm : EncodedFields.Statement .decm := fun _ => fields_of_operand (v := 0) (by decide) (by decide)

end Sys2Proof.Laws
end

