-- ==== Sys2Proof/Laws/Port.lean ====
section
/-! SUPPORT. The address map and the step: which location an address names, and what one event leads to. -/

namespace Sys2Proof.Machine

theorem holds_iff {c : Config} {b : Buf} {a : Nat} :
    b.holds c a = true ↔ b.base ≤ a ∧ a < b.base + b.size c := by
  simp [Buf.holds]

@[simp] theorem locate_cmd (c : Config) : locate c 0x0000#16 = .cmd := rfl
@[simp] theorem locate_status (c : Config) : locate c 0x0001#16 = .status := rfl
@[simp] theorem locate_radix (c : Config) : locate c 0x0002#16 = .radix := rfl
@[simp] theorem locate_len (c : Config) : locate c 0x0003#16 = .len := rfl
@[simp] theorem locate_width (c : Config) : locate c 0x0004#16 = .width := rfl
@[simp] theorem locate_ubound (c : Config) : locate c 0x0005#16 = .ubound := rfl
@[simp] theorem locate_dlen (c : Config) : locate c 0x0006#16 = .dlen := rfl
@[simp] theorem locate_slen (c : Config) : locate c 0x0007#16 = .slen := rfl
@[simp] theorem locate_carry (c : Config) : locate c 0x0008#16 = .carry := rfl

/-- Above the registers the map is decided by the windows of the five buffers. -/
theorem locate_above {c : Config} {addr : Half} (h : 8 < addr.toNat) :
    locate c addr
      = match [Buf.bb, Buf.db, Buf.sb, Buf.fwd, Buf.rev].find? (fun b => b.holds c addr.toNat) with
        | some b => .elem b (addr.toNat - b.base)
        | none => .unmapped := by
  simp only [locate]
  split <;> first | rfl | omega

theorem base_ge (b : Buf) : 0x1000 ≤ b.base := by cases b <;> simp [Buf.base]

/-- At most one buffer holds an address. -/
theorem holds_unique {c : Config} {b b' : Buf} {a : Nat} (h : b.holds c a = true) (h' : b'.holds c a = true) :
    b = b' := by
  rw [holds_iff] at h h'
  have hw := size_le_window c b
  have hw' := size_le_window c b'
  exact (@address_injective b b' (a - b.base) (a - b'.base) (by omega) (by omega) (by omega)).1

theorem find_holds {c : Config} {b : Buf} {a : Nat} :
    [Buf.bb, Buf.db, Buf.sb, Buf.fwd, Buf.rev].find? (fun b => b.holds c a) = some b ↔ b.holds c a = true := by
  constructor
  · intro h; simpa using List.find?_some h
  · intro h
    cases hf : [Buf.bb, Buf.db, Buf.sb, Buf.fwd, Buf.rev].find? (fun b => b.holds c a) with
    | none =>
      rw [List.find?_eq_none] at hf
      exact absurd h (hf b (by cases b <;> simp))
    | some b' => rw [holds_unique h (by simpa using List.find?_some hf)]

/-- At or below 8 the map names a register. -/
theorem locate_register {c : Config} {addr : Half} (h : addr.toNat ≤ 8) :
    locate c addr ∈ [.cmd, .status, .radix, .len, .width, .ubound, .dlen, .slen, .carry] := by
  simp only [locate]
  generalize addr.toNat = a at h
  interval_cases a <;> simp

/-- An address names an element exactly when it stands in the buffer's window. -/
theorem locate_elem {c : Config} {addr : Half} {b : Buf} {i : Nat} :
    locate c addr = .elem b i ↔ addr.toNat = b.base + i ∧ i < b.size c := by
  have hb := base_ge b
  by_cases h8 : 8 < addr.toNat
  · rw [locate_above h8]
    split
    · next b' hf =>
      have hb' := holds_iff.1 (find_holds.1 hf)
      simp only [Location.elem.injEq]
      constructor
      · rintro ⟨rfl, rfl⟩; omega
      · rintro ⟨ha, hi⟩
        have : b' = b := holds_unique (holds_iff.2 hb') (holds_iff.2 (by omega))
        subst this
        exact ⟨rfl, by omega⟩
    · next hf =>
      simp only [reduceCtorEq, false_iff]
      rintro ⟨ha, hi⟩
      rw [find_holds.2 (holds_iff.2 (by omega) : b.holds c addr.toNat = true)] at hf
      cases hf
  · constructor
    · intro h
      have := locate_register (c := c) (addr := addr) (by omega)
      simp [h] at this
    · omega

/-- An address above the registers that stands in no window is unmapped. -/
theorem locate_unmapped {c : Config} {addr : Half} :
    locate c addr = .unmapped
      ↔ 8 < addr.toNat ∧ ∀ b : Buf, ¬ (b.base ≤ addr.toNat ∧ addr.toNat < b.base + b.size c) := by
  by_cases h8 : 8 < addr.toNat
  · rw [locate_above h8]
    split
    · next b hf =>
      simp only [reduceCtorEq, h8, true_and, false_iff, not_forall, not_not]
      exact ⟨b, holds_iff.1 (find_holds.1 hf)⟩
    · next hf =>
      simp only [h8, true_and, true_iff]
      intro b hb
      rw [find_holds.2 (holds_iff.2 hb)] at hf
      cases hf
  · simp only [h8, false_and, iff_false]
    intro h
    have := locate_register (c := c) (addr := addr) (by omega)
    simp [h] at this

/-- A read changes the reply alone. -/
theorem hostRead_frame (addr : Half) (s : State) :
    hostRead addr s = { s with reply := (hostRead addr s).reply } := by
  simp only [hostRead]; split <;> rfl

theorem step_idle {s : State} (h : s.pending = []) : portStep exec s = .next s := by
  simp only [portStep, h]

/-- A step takes the oldest event. -/
theorem step_event {s : State} {e : Event} {rest : List Event} (h : s.pending = e :: rest) :
    step s = takeEvent exec { s with pending := rest } e := by
  simp only [step, portStep, h]

/-- Everything a host write other than a command can do to the state. -/
theorem writeLocation_ok {data : Word} {s t : State} {loc : Location} :
    writeLocation data s loc = some t
      ↔ (loc = .slen ∧ data.toNat ≤ s.cfg.cmax ∧ t = { s with slen := data.setWidth 16 })
        ∨ ∃ b i, loc = .elem b i ∧ b.hostWritable = true ∧ data.toNat ≤ 255
          ∧ t = if b = .fwd then invalidateAlphabet { s with mem := s.mem.write (b.base + i) (data.setWidth 8) }
              else { s with mem := s.mem.write (b.base + i) (data.setWidth 8) } := by
  cases loc with
  | slen =>
    simp only [writeLocation, writeSlen, true_and, reduceCtorEq, false_and, exists_false, or_false]
    split <;> simp_all [eq_comm]
  | elem b i =>
    simp only [writeLocation, writeElem, reduceCtorEq, false_and, false_or, Location.elem.injEq]
    constructor
    · intro h
      split at h
      · next hw => exact ⟨b, i, ⟨rfl, rfl⟩, hw.1, hw.2, by simpa [eq_comm] using h⟩
      · cases h
    · rintro ⟨_, _, ⟨rfl, rfl⟩, h1, h2, rfl⟩
      rw [if_pos ⟨h1, h2⟩]
  | _ => simp [writeLocation]

end Sys2Proof.Machine
end

