-- ==== Sys2Proof/Laws/State.lean ====
section
/-! SUPPORT. One lemma per field per update of the state, each true by rfl, so that no later proof unfolds a record
update. -/

namespace Sys2Proof.Machine

/-! ### fail -/

@[simp] theorem fail_cfg (e : ErrCode) (s : State) : (fail e s).cfg = s.cfg := rfl
@[simp] theorem fail_err (e : ErrCode) (s : State) : (fail e s).err = e := rfl
@[simp] theorem fail_avalid (e : ErrCode) (s : State) : (fail e s).avalid = s.avalid := rfl
@[simp] theorem fail_wvalid (e : ErrCode) (s : State) : (fail e s).wvalid = s.wvalid := rfl
@[simp] theorem fail_n (e : ErrCode) (s : State) : (fail e s).n = s.n := rfl
@[simp] theorem fail_l (e : ErrCode) (s : State) : (fail e s).l = s.l := rfl
@[simp] theorem fail_w (e : ErrCode) (s : State) : (fail e s).w = s.w := rfl
@[simp] theorem fail_ub (e : ErrCode) (s : State) : (fail e s).ub = s.ub := rfl
@[simp] theorem fail_dlen (e : ErrCode) (s : State) : (fail e s).dlen = s.dlen := rfl
@[simp] theorem fail_slen (e : ErrCode) (s : State) : (fail e s).slen = s.slen := rfl
@[simp] theorem fail_carry (e : ErrCode) (s : State) : (fail e s).carry = s.carry := rfl
@[simp] theorem fail_mem (e : ErrCode) (s : State) : (fail e s).mem = s.mem := rfl
@[simp] theorem fail_pending (e : ErrCode) (s : State) : (fail e s).pending = s.pending := rfl
@[simp] theorem fail_reply (e : ErrCode) (s : State) : (fail e s).reply = s.reply := rfl

/-! ### finish -/

@[simp] theorem finish_cfg (s : State) : (finish s).cfg = s.cfg := rfl
@[simp] theorem finish_err (s : State) : (finish s).err = .ok := rfl
@[simp] theorem finish_avalid (s : State) : (finish s).avalid = s.avalid := rfl
@[simp] theorem finish_wvalid (s : State) : (finish s).wvalid = s.wvalid := rfl
@[simp] theorem finish_n (s : State) : (finish s).n = s.n := rfl
@[simp] theorem finish_l (s : State) : (finish s).l = s.l := rfl
@[simp] theorem finish_w (s : State) : (finish s).w = s.w := rfl
@[simp] theorem finish_ub (s : State) : (finish s).ub = s.ub := rfl
@[simp] theorem finish_dlen (s : State) : (finish s).dlen = s.dlen := rfl
@[simp] theorem finish_slen (s : State) : (finish s).slen = s.slen := rfl
@[simp] theorem finish_carry (s : State) : (finish s).carry = s.carry := rfl
@[simp] theorem finish_mem (s : State) : (finish s).mem = s.mem := rfl
@[simp] theorem finish_pending (s : State) : (finish s).pending = s.pending := rfl
@[simp] theorem finish_reply (s : State) : (finish s).reply = s.reply := rfl

/-! ### restoreBuf -/

@[simp] theorem restoreBuf_cfg (b : Buf) (s : State) : (restoreBuf b s).cfg = s.cfg := rfl
@[simp] theorem restoreBuf_err (b : Buf) (s : State) : (restoreBuf b s).err = s.err := rfl
@[simp] theorem restoreBuf_avalid (b : Buf) (s : State) : (restoreBuf b s).avalid = s.avalid := rfl
@[simp] theorem restoreBuf_wvalid (b : Buf) (s : State) : (restoreBuf b s).wvalid = s.wvalid := rfl
@[simp] theorem restoreBuf_n (b : Buf) (s : State) : (restoreBuf b s).n = s.n := rfl
@[simp] theorem restoreBuf_l (b : Buf) (s : State) : (restoreBuf b s).l = s.l := rfl
@[simp] theorem restoreBuf_w (b : Buf) (s : State) : (restoreBuf b s).w = s.w := rfl
@[simp] theorem restoreBuf_ub (b : Buf) (s : State) : (restoreBuf b s).ub = s.ub := rfl
@[simp] theorem restoreBuf_dlen (b : Buf) (s : State) : (restoreBuf b s).dlen = s.dlen := rfl
@[simp] theorem restoreBuf_slen (b : Buf) (s : State) : (restoreBuf b s).slen = s.slen := rfl
@[simp] theorem restoreBuf_carry (b : Buf) (s : State) : (restoreBuf b s).carry = s.carry := rfl
@[simp] theorem restoreBuf_mem (b : Buf) (s : State) : (restoreBuf b s).mem = s.mem.restore b.base (b.size s.cfg) := rfl
@[simp] theorem restoreBuf_pending (b : Buf) (s : State) : (restoreBuf b s).pending = s.pending := rfl
@[simp] theorem restoreBuf_reply (b : Buf) (s : State) : (restoreBuf b s).reply = s.reply := rfl

/-! ### invalidateWidth -/

@[simp] theorem invalidateWidth_cfg (s : State) : (invalidateWidth s).cfg = s.cfg := rfl
@[simp] theorem invalidateWidth_err (s : State) : (invalidateWidth s).err = s.err := rfl
@[simp] theorem invalidateWidth_avalid (s : State) : (invalidateWidth s).avalid = s.avalid := rfl
@[simp] theorem invalidateWidth_wvalid (s : State) : (invalidateWidth s).wvalid = false := rfl
@[simp] theorem invalidateWidth_n (s : State) : (invalidateWidth s).n = s.n := rfl
@[simp] theorem invalidateWidth_l (s : State) : (invalidateWidth s).l = s.l := rfl
@[simp] theorem invalidateWidth_w (s : State) : (invalidateWidth s).w = 0 := rfl
@[simp] theorem invalidateWidth_ub (s : State) : (invalidateWidth s).ub = 0 := rfl
@[simp] theorem invalidateWidth_dlen (s : State) : (invalidateWidth s).dlen = s.dlen := rfl
@[simp] theorem invalidateWidth_slen (s : State) : (invalidateWidth s).slen = s.slen := rfl
@[simp] theorem invalidateWidth_carry (s : State) : (invalidateWidth s).carry = s.carry := rfl
@[simp] theorem invalidateWidth_mem (s : State) : (invalidateWidth s).mem = s.mem := rfl
@[simp] theorem invalidateWidth_pending (s : State) : (invalidateWidth s).pending = s.pending := rfl
@[simp] theorem invalidateWidth_reply (s : State) : (invalidateWidth s).reply = s.reply := rfl

/-! ### clearDigits -/

@[simp] theorem clearDigits_cfg (s : State) : (clearDigits s).cfg = s.cfg := rfl
@[simp] theorem clearDigits_err (s : State) : (clearDigits s).err = s.err := rfl
@[simp] theorem clearDigits_avalid (s : State) : (clearDigits s).avalid = s.avalid := rfl
@[simp] theorem clearDigits_wvalid (s : State) : (clearDigits s).wvalid = s.wvalid := rfl
@[simp] theorem clearDigits_n (s : State) : (clearDigits s).n = s.n := rfl
@[simp] theorem clearDigits_l (s : State) : (clearDigits s).l = s.l := rfl
@[simp] theorem clearDigits_w (s : State) : (clearDigits s).w = s.w := rfl
@[simp] theorem clearDigits_ub (s : State) : (clearDigits s).ub = s.ub := rfl
@[simp] theorem clearDigits_dlen (s : State) : (clearDigits s).dlen = 0 := rfl
@[simp] theorem clearDigits_slen (s : State) : (clearDigits s).slen = s.slen := rfl
@[simp] theorem clearDigits_carry (s : State) : (clearDigits s).carry = s.carry := rfl
@[simp] theorem clearDigits_mem (s : State) : (clearDigits s).mem = s.mem.restore Buf.db.base s.cfg.cmax := rfl
@[simp] theorem clearDigits_pending (s : State) : (clearDigits s).pending = s.pending := rfl
@[simp] theorem clearDigits_reply (s : State) : (clearDigits s).reply = s.reply := rfl

/-! ### invalidateAlphabet -/

@[simp] theorem invalidateAlphabet_cfg (s : State) : (invalidateAlphabet s).cfg = s.cfg := rfl
@[simp] theorem invalidateAlphabet_err (s : State) : (invalidateAlphabet s).err = s.err := rfl
@[simp] theorem invalidateAlphabet_avalid (s : State) : (invalidateAlphabet s).avalid = false := rfl
@[simp] theorem invalidateAlphabet_wvalid (s : State) : (invalidateAlphabet s).wvalid = false := rfl
@[simp] theorem invalidateAlphabet_n (s : State) : (invalidateAlphabet s).n = 0 := rfl
@[simp] theorem invalidateAlphabet_l (s : State) : (invalidateAlphabet s).l = s.l := rfl
@[simp] theorem invalidateAlphabet_w (s : State) : (invalidateAlphabet s).w = 0 := rfl
@[simp] theorem invalidateAlphabet_ub (s : State) : (invalidateAlphabet s).ub = 0 := rfl
@[simp] theorem invalidateAlphabet_dlen (s : State) : (invalidateAlphabet s).dlen = 0 := rfl
@[simp] theorem invalidateAlphabet_slen (s : State) : (invalidateAlphabet s).slen = s.slen := rfl
@[simp] theorem invalidateAlphabet_carry (s : State) : (invalidateAlphabet s).carry = s.carry := rfl
@[simp] theorem invalidateAlphabet_mem (s : State) : (invalidateAlphabet s).mem = (s.mem.restore Buf.rev.base s.cfg.domain).restore Buf.db.base s.cfg.cmax := rfl
@[simp] theorem invalidateAlphabet_pending (s : State) : (invalidateAlphabet s).pending = s.pending := rfl
@[simp] theorem invalidateAlphabet_reply (s : State) : (invalidateAlphabet s).reply = s.reply := rfl

/-! ### dropAlphabet -/

@[simp] theorem dropAlphabet_cfg (s : State) : (dropAlphabet s).cfg = s.cfg := rfl
@[simp] theorem dropAlphabet_err (s : State) : (dropAlphabet s).err = .construct := rfl
@[simp] theorem dropAlphabet_avalid (s : State) : (dropAlphabet s).avalid = false := rfl
@[simp] theorem dropAlphabet_wvalid (s : State) : (dropAlphabet s).wvalid = s.wvalid := rfl
@[simp] theorem dropAlphabet_n (s : State) : (dropAlphabet s).n = 0 := rfl
@[simp] theorem dropAlphabet_l (s : State) : (dropAlphabet s).l = s.l := rfl
@[simp] theorem dropAlphabet_w (s : State) : (dropAlphabet s).w = s.w := rfl
@[simp] theorem dropAlphabet_ub (s : State) : (dropAlphabet s).ub = s.ub := rfl
@[simp] theorem dropAlphabet_dlen (s : State) : (dropAlphabet s).dlen = s.dlen := rfl
@[simp] theorem dropAlphabet_slen (s : State) : (dropAlphabet s).slen = s.slen := rfl
@[simp] theorem dropAlphabet_carry (s : State) : (dropAlphabet s).carry = s.carry := rfl
@[simp] theorem dropAlphabet_mem (s : State) : (dropAlphabet s).mem = s.mem.restore Buf.rev.base s.cfg.domain := rfl
@[simp] theorem dropAlphabet_pending (s : State) : (dropAlphabet s).pending = s.pending := rfl
@[simp] theorem dropAlphabet_reply (s : State) : (dropAlphabet s).reply = s.reply := rfl

/-! ### resetEvent -/

@[simp] theorem resetEvent_cfg (s : State) : (resetEvent s).cfg = s.cfg := rfl
@[simp] theorem resetEvent_err (s : State) : (resetEvent s).err = .ok := rfl
@[simp] theorem resetEvent_avalid (s : State) : (resetEvent s).avalid = false := rfl
@[simp] theorem resetEvent_wvalid (s : State) : (resetEvent s).wvalid = false := rfl
@[simp] theorem resetEvent_n (s : State) : (resetEvent s).n = 0 := rfl
@[simp] theorem resetEvent_l (s : State) : (resetEvent s).l = 0 := rfl
@[simp] theorem resetEvent_w (s : State) : (resetEvent s).w = 0 := rfl
@[simp] theorem resetEvent_ub (s : State) : (resetEvent s).ub = 0 := rfl
@[simp] theorem resetEvent_dlen (s : State) : (resetEvent s).dlen = 0 := rfl
@[simp] theorem resetEvent_slen (s : State) : (resetEvent s).slen = 0 := rfl
@[simp] theorem resetEvent_carry (s : State) : (resetEvent s).carry = 0 := rfl
@[simp] theorem resetEvent_mem (s : State) : (resetEvent s).mem = [] := rfl
@[simp] theorem resetEvent_pending (s : State) : (resetEvent s).pending = s.pending := rfl
@[simp] theorem resetEvent_reply (s : State) : (resetEvent s).reply = none := rfl

/-! ### withFetchWord -/

@[simp] theorem withFetchWord_cfg (s : State) (nbits w : Nat) : (s.withFetchWord nbits w).cfg = s.cfg := rfl
@[simp] theorem withFetchWord_err (s : State) (nbits w : Nat) : (s.withFetchWord nbits w).err = s.err := rfl
@[simp] theorem withFetchWord_avalid (s : State) (nbits w : Nat) : (s.withFetchWord nbits w).avalid = s.avalid := rfl
@[simp] theorem withFetchWord_wvalid (s : State) (nbits w : Nat) : (s.withFetchWord nbits w).wvalid = s.wvalid := rfl
@[simp] theorem withFetchWord_n (s : State) (nbits w : Nat) : (s.withFetchWord nbits w).n = s.n := rfl
@[simp] theorem withFetchWord_l (s : State) (nbits w : Nat) : (s.withFetchWord nbits w).l = s.l := rfl
@[simp] theorem withFetchWord_w (s : State) (nbits w : Nat) : (s.withFetchWord nbits w).w = s.w := rfl
@[simp] theorem withFetchWord_ub (s : State) (nbits w : Nat) : (s.withFetchWord nbits w).ub = s.ub := rfl
@[simp] theorem withFetchWord_dlen (s : State) (nbits w : Nat) : (s.withFetchWord nbits w).dlen = s.dlen := rfl
@[simp] theorem withFetchWord_slen (s : State) (nbits w : Nat) : (s.withFetchWord nbits w).slen = s.slen := rfl
@[simp] theorem withFetchWord_carry (s : State) (nbits w : Nat) : (s.withFetchWord nbits w).carry = s.carry := rfl
@[simp] theorem withFetchWord_mem (s : State) (nbits w : Nat) : (s.withFetchWord nbits w).mem = s.mem := rfl
@[simp] theorem withFetchWord_pending (s : State) (nbits w : Nat) : (s.withFetchWord nbits w).pending = commandEvent (BitVec.ofNat 32 (w % 2 ^ nbits)) :: s.pending := rfl
@[simp] theorem withFetchWord_reply (s : State) (nbits w : Nat) : (s.withFetchWord nbits w).reply = s.reply := rfl

/-! ### resetWith -/

@[simp] theorem resetWith_cfg (c : Config) : (State.resetWith c).cfg = c := rfl
@[simp] theorem resetWith_err (c : Config) : (State.resetWith c).err = .ok := rfl
@[simp] theorem resetWith_avalid (c : Config) : (State.resetWith c).avalid = false := rfl
@[simp] theorem resetWith_wvalid (c : Config) : (State.resetWith c).wvalid = false := rfl
@[simp] theorem resetWith_n (c : Config) : (State.resetWith c).n = 0 := rfl
@[simp] theorem resetWith_l (c : Config) : (State.resetWith c).l = 0 := rfl
@[simp] theorem resetWith_w (c : Config) : (State.resetWith c).w = 0 := rfl
@[simp] theorem resetWith_ub (c : Config) : (State.resetWith c).ub = 0 := rfl
@[simp] theorem resetWith_dlen (c : Config) : (State.resetWith c).dlen = 0 := rfl
@[simp] theorem resetWith_slen (c : Config) : (State.resetWith c).slen = 0 := rfl
@[simp] theorem resetWith_carry (c : Config) : (State.resetWith c).carry = 0 := rfl
@[simp] theorem resetWith_mem (c : Config) : (State.resetWith c).mem = [] := rfl
@[simp] theorem resetWith_pending (c : Config) : (State.resetWith c).pending = [] := rfl
@[simp] theorem resetWith_reply (c : Config) : (State.resetWith c).reply = none := rfl

end Sys2Proof.Machine
end

