-- ==== Sys2Proof/Machine/HostText.lean ====
section
/-! DEFINITION. The host's statements (R98) and the expansions of the pseudo-instructions (R99) as lists of events. The
engine sees only the expansion. -/

namespace Sys2Proof.Machine

/-- A command statement: HostWrite(0x0000, word) (R98). -/
def issue (i : Instr) : Event := commandEvent (encode i)

/-- WR addr, data for element `i` of a buffer (R98). -/
def writeByte (b : Buf) (i : Nat) (v : Byte) : Event := .hostWrite (BitVec.ofNat 16 (b.base + i)) (v.setWidth 32)

/-- RD addr for element `i` of a buffer (R98). -/
def readByte (b : Buf) (i : Nat) : Event := .hostRead (BitVec.ofNat 16 (b.base + i))

/-- Writes of consecutive elements from element `i` up. -/
def writeBytes (b : Buf) : Nat → List Byte → List Event
  | _, [] => []
  | i, v :: vs => writeByte b i v :: writeBytes b (i + 1) vs

/-- CLRERR expands to NOP (R99). -/
def clrerr : List Event := [issue .nop]

/-- LDALPHA: the characters to FWD, then ABUILD (R99). -/
def ldalpha (chars : List Byte) : List Event := writeBytes .fwd 0 chars ++ [issue (.abuild chars.length)]

/-- LDSTR: the characters to SB, then SLEN (R99). -/
def ldstr (chars : List Byte) : List Event :=
  writeBytes .sb 0 chars ++ [.hostWrite 0x0007#16 (BitVec.ofNat 32 chars.length)]

/-- LDBYTES: the bytes to BB (R99). -/
def ldbytes (bytes : List Byte) : List Event := writeBytes .bb 0 bytes

/-- RDSTR: read SLEN, then the `k` characters, `k` being the value SLEN gave (R99). -/
def rdstr (k : Nat) : List Event := .hostRead 0x0007#16 :: (List.range k).map (readByte .sb)

/-- RDBYTES: read LEN, then the `m` bytes, `m` being the value LEN gave (R99). -/
def rdbytes (m : Nat) : List Event := .hostRead 0x0003#16 :: (List.range m).map (readByte .bb)

/-- RDERR: read STATUS; the value denoted is its bits 3:0 (R99). -/
def rderr : List Event := [.hostRead 0x0001#16]

end Sys2Proof.Machine
end

