-- ==== Sys2Proof/Tests/Slice0.lean ====
section
/-! SUPPORT. Tests of one step each on small states, with expected values from 95_test_vectors.md and the rules' own
examples, and a witness for the hypotheses of every obligation that has some. -/

namespace Sys2Proof.Tests

open Sys2Proof Sys2Proof.Machine

/-! ### Helpers -/

/-- An engine after reset with the characters in FWD and their reverse in REV, held as an alphabet. -/
def holding (c : Config) (chars : List Byte) (len : Half) : State :=
  { State.resetWith c with
    avalid := true
    n := BitVec.ofNat 8 chars.length
    l := len
    mem := chars.zipIdx.foldl (fun m p => m.write (0x5000 + p.1.toNat) (BitVec.ofNat 8 p.2))
      (Memory.store [] 0x4000 chars) }

/-- The decimal alphabet "0123456789" (S1 to S9). -/
def decimal (len : Half) : State :=
  holding Config.standard [0x30, 0x31, 0x32, 0x33, 0x34, 0x35, 0x36, 0x37, 0x38, 0x39] len

/-- The state with the bytes at the start of a buffer. -/
def filled (b : Buf) (vs : List Byte) (s : State) : State := { s with mem := s.mem.store b.base vs }

/-- The state with the bytes as its string. -/
def text (vs : List Byte) (s : State) : State := { filled .sb vs s with slen := BitVec.ofNat 16 vs.length }

/-- The state with the digits in its accumulator. -/
def digits (vs : List Byte) (s : State) : State := { filled .db vs s with dlen := BitVec.ofNat 16 vs.length }

/-- Whether the command gives a next state with the property. -/
def leads (i : Instr) (s : State) (p : State → Bool) : Bool :=
  match exec i s with
  | .next t => p t
  | .fault _ => false
  | .refused _ => false

/-- Whether one event gives a next state with the property. -/
def reacts (e : Event) (s : State) (p : State → Bool) : Bool :=
  match step { s with pending := [e] } with
  | .next t => p t
  | .fault _ => false
  | .refused _ => false

/-! ### Well-formedness -/

theorem test_wellFormed_refuses_setl : (Instr.setl 65536).wellFormed = false := by decide
theorem test_wellFormed_refuses_abuild : (Instr.abuild 65536).wellFormed = false := by decide
theorem test_wellFormed_refuses_einj : (Instr.einj 65536).wellFormed = false := by decide
theorem test_wellFormed_refuses_dinj : (Instr.dinj 100000).wellFormed = false := by decide

/-! ### Decoding: one word for every constructor, written out from R91 and R93 -/

theorem test_decode_nop : decode 0b0000000000000000_00000000_00000000#32 = .ok .nop := by decide
theorem test_decode_setl : decode 0b0000000000001000_00000000_00000001#32 = .ok (.setl 8) := by decide
theorem test_decode_abuild : decode 0b0000000000001010_00000000_00000010#32 = .ok (.abuild 10) := by decide
theorem test_decode_dclr : decode 0b0000000000000000_00000000_00001000#32 = .ok .dclr := by decide
theorem test_decode_bclr : decode 0b0000000000000000_00000000_00001001#32 = .ok .bclr := by decide
theorem test_decode_einj : decode 0b0000000100101100_00000000_00001010#32 = .ok (.einj 300) := by decide
theorem test_decode_dinj : decode 0b1000000000000001_00000000_00001011#32 = .ok (.dinj 32769) := by decide
theorem test_decode_drev : decode 0b0000000000000000_00000000_00001100#32 = .ok .drev := by decide
theorem test_decode_brev : decode 0b0000000000000000_00000000_00001101#32 = .ok .brev := by decide
theorem test_decode_dmap : decode 0b0000000000000000_00000000_00001110#32 = .ok .dmap := by decide
theorem test_decode_pwidth : decode 0b0000000000000000_00000000_00010000#32 = .ok .pwidth := by decide
theorem test_decode_encf : decode 0b0000000000000000_00000000_00100000#32 = .ok .encf := by decide
theorem test_decode_encm : decode 0b0000000000000000_00000000_00100001#32 = .ok .encm := by decide
theorem test_decode_decf : decode 0b0000000000000000_00000000_00110000#32 = .ok .decf := by decide
theorem test_decode_decm : decode 0b0000000000000000_00000000_00110001#32 = .ok .decm := by decide

/-- 95_test_vectors.md section 8: words that do not decode, and why. -/
theorem test_decode_rejects :
    decode 0x00000003#32 = .error .opcode ∧ decode 0x000000FF#32 = .error .opcode
      ∧ decode 0x00000032#32 = .error .opcode ∧ decode 0x00000100#32 = .error .zero8
      ∧ decode 0x0001010A#32 = .error .zero8 ∧ decode 0x00010008#32 = .error .zero16
      ∧ decode 0x80000020#32 = .error .zero16 := by decide

theorem test_decodeTableWord :
    decodeTableWord 32 0x000A0002 = some (.abuild 10) ∧ decodeTableWord 8 0x10 = some .pwidth
      ∧ decodeTableWord 32 0x00010000 = none := by decide

/-! ### Units: the tables of 95_test_vectors.md section 3, and R195 -/

theorem test_divmod :
    divmod 511 10 = some (51, 1) ∧ divmod 255 2 = some (127, 1) ∧ divmod 511 2 = some (255, 1)
      ∧ divmod 14847 58 = some (255, 57) ∧ divmod 65279 255 = some (255, 254) := by decide

theorem test_mac :
    mac 5 10 1 = (0x33, 0) ∧ mac 0x33 10 1 = (0xFF, 1) ∧ mac 0xFF 2 1 = (0xFF, 1) ∧ mac 0xFF 58 57 = (0xFF, 57)
      ∧ mac 0xFF 255 254 = (0xFF, 254) := by decide

theorem test_upperBound :
    upperBound 8 10 = some 22 ∧ upperBound 8 58 = some 13 ∧ upperBound 8 16 = some 16 ∧ upperBound 8 2 = some 64
      ∧ upperBound 8 255 = some 10 ∧ upperBound 0 7 = some 0 := by decide

theorem test_paddedWidth :
    paddedWidth 8 10 = 20 ∧ paddedWidth 8 58 = 11 ∧ paddedWidth 3 7 = 9 ∧ paddedWidth 2 255 = 3
      ∧ paddedWidth 0 10 = 0 := by decide

/-! ### Commands -/

/-- L6. -/
theorem test_nop : leads .nop { decimal 8 with err := .overflow, carry := 1 }
    (fun t => t.err == .ok && t.carry == 1 && t.avalid) = true := by decide

/-- L3: the same length still drops the width cache. -/
theorem test_setl : leads (.setl 8) { decimal 8 with w := 20, ub := 22, wvalid := true }
    (fun t => t.l == 8 && t.w == 0 && t.ub == 0 && !t.wvalid && t.err == .ok) = true := by decide

/-- L2. -/
theorem test_setl_range : leads (.setl 33) (decimal 8) (fun t => t.err == .badarg && t.l == 8) = true := by decide

/-- A7: code 0 is a legal character. -/
theorem test_abuild : leads (.abuild 2) (filled .fwd [0, 1] State.reset)
    (fun t => t.err == .ok && t.n == 2 && t.avalid && t.elems .rev 3 == [0, 1, 0xFF]) = true := by decide

/-- A5: the duplicate at i = 2 wipes the partial entries. -/
theorem test_abuild_duplicate : leads (.abuild 3) (filled .fwd [0x61, 0x62, 0x61] State.reset)
    (fun t => t.err == .construct && t.n == 0 && !t.avalid && t.elem .rev 0x61 == 0xFF && t.elem .rev 0x62 == 0xFF)
    = true := by decide

/-- R134. -/
theorem test_dclr : leads .dclr { digits [1, 1, 5] (decimal 8) with carry := 9 }
    (fun t => t.dlen == 0 && t.elems .db 3 == [0, 0, 0] && t.carry == 9 && t.elem .fwd 9 == 0x39) = true := by decide

/-- R164: all LMAX elements, not only the first L. -/
theorem test_bclr : leads .bclr (filled .bb [1, 2, 3] (decimal 1))
    (fun t => t.elems .bb 3 == [0, 0, 0] && t.l == 1 && t.elem .fwd 0 == 0x30) = true := by decide

/-- T1, second inject. -/
theorem test_einj : leads (.einj 255) (digits [1] (decimal 2))
    (fun t => t.elems .db 4 == [1, 1, 5, 0] && t.dlen == 3 && t.carry == 0 && t.err == .ok) = true := by decide

/-- T5 with LMAX = 1: EINJ 0 on the value 128 in base 2. -/
theorem test_einj_capacity :
    leads (.einj 0) (digits [0, 0, 0, 0, 0, 0, 0, 1] (holding { lmax := 1 } [0x30, 0x31] 0))
      (fun t => t.err == .capacity && t.dlen == 8 && t.carry == 128 && t.elems .db 8 == [0, 0, 0, 0, 0, 0, 0, 0])
      = true := by decide

/-- T4. -/
theorem test_dinj : leads (.dinj 1) (filled .bb [0x33, 0] (decimal 2))
    (fun t => t.elems .bb 2 == [0xFF, 0x01] && t.carry == 0 && t.err == .ok) = true := by decide

/-- T4: 65535 × 10. -/
theorem test_dinj_overflow : leads (.dinj 0) (filled .bb [0xFF, 0xFF] (decimal 2))
    (fun t => t.elems .bb 2 == [0xF6, 0xFF] && t.carry == 9 && t.err == .overflow) = true := by decide

/-- R136. -/
theorem test_drev : leads .drev (digits [1, 1, 5] (decimal 2)) (fun t => t.elems .db 4 == [5, 1, 1, 0]) = true := by
  decide

/-- R166. -/
theorem test_brev : leads .brev (filled .bb [0xFF, 0x01, 7] (decimal 2))
    (fun t => t.elems .bb 3 == [0x01, 0xFF, 7]) = true := by decide

/-- R137. -/
theorem test_dmap : leads .dmap (digits [5, 1, 1] (filled .sb [9, 9, 9, 9] (decimal 2)))
    (fun t => t.elems .sb 4 == [0x35, 0x31, 0x31, 9] && t.slen == 3) = true := by decide

/-- 95_test_vectors.md section 7: decimal, L = 2. -/
theorem test_pwidth : leads .pwidth (decimal 2)
    (fun t => t.w == 5 && t.ub == 6 && t.wvalid && t.dlen == 5 && t.elems .db 6 == [5, 3, 5, 5, 6, 0] && t.carry == 0)
    = true := by decide

/-- 95_test_vectors.md section 4: decimal, L = 2, 01 FF. -/
theorem test_encf : leads .encf (filled .bb [0x01, 0xFF] (decimal 2))
    (fun t => t.text == [0x30, 0x30, 0x35, 0x31, 0x31] && t.w == 5 && t.ub == 6 && t.elems .db 5 == [0, 0, 5, 1, 1])
    = true := by decide

/-- The same row, minimal. -/
theorem test_encm : leads .encm (filled .bb [0x01, 0xFF] (decimal 2))
    (fun t => t.text == [0x35, 0x31, 0x31] && t.w == 0 && !t.wvalid && t.elems .db 3 == [5, 1, 1]) = true := by decide

/-- D1: DECF with no width cached overwrites DB. -/
theorem test_decf : leads .decf (text [0x30, 0x34, 0x32] (digits [7] (decimal 1)))
    (fun t => t.err == .ok && t.elem .bb 0 == 0x2A && t.w == 3 && t.ub == 3 && t.dlen == 3
      && t.elems .db 3 == [5, 5, 2]) = true := by decide

/-- Section 6: "0255" has the wrong length for DECF. -/
theorem test_decf_length : leads .decf (text [0x30, 0x32, 0x35, 0x35] (filled .bb [9] (decimal 1)))
    (fun t => t.err == .invlen && t.elem .bb 0 == 0 && t.carry == 0) = true := by decide

/-- Section 6: "999" overflows with carry 3. -/
theorem test_decm_overflow : leads .decm (text [0x39, 0x39, 0x39] (decimal 1))
    (fun t => t.err == .overflow && t.elem .bb 0 == 0 && t.carry == 3) = true := by decide

/-- Section 6: "25a" has an invalid character. -/
theorem test_decm_invalid : leads .decm (text [0x32, 0x35, 0x61] (decimal 1))
    (fun t => t.err == .invchar && t.elem .bb 0 == 0 && t.carry == 0) = true := by decide

/-! ### The host port (95_test_vectors.md section 9) -/

theorem test_read_ends :
    reacts (.hostRead 0x5000) State.reset (fun t => t.reply == some (.read .okay 0xFF))
      && reacts (.hostRead 0x5080) State.reset (fun t => t.reply == some (.read .slverr 0))
      && reacts (.hostRead 0x101F) State.reset (fun t => t.reply == some (.read .okay 0))
      && reacts (.hostRead 0x1020) State.reset (fun t => t.reply == some (.read .slverr 0))
      && reacts (.hostRead 0x40FE) State.reset (fun t => t.reply == some (.read .okay 0))
      && reacts (.hostRead 0x40FF) State.reset (fun t => t.reply == some (.read .slverr 0)) = true := by decide

theorem test_status :
    reacts (.hostRead 0x0001) { decimal 8 with wvalid := true, err := .overflow }
      (fun t => t.reply == some (.read .okay 0x33)) = true := by decide

theorem test_writes :
    reacts (.hostWrite 0x1000 256) State.reset (fun t => t.reply == some (.write .slverr) && t.elem .bb 0 == 0)
      && reacts (.hostWrite 0x1000 255) State.reset (fun t => t.reply == some (.write .okay) && t.elem .bb 0 == 255)
      && reacts (.hostWrite 0x0007 256) State.reset (fun t => t.reply == some (.write .okay) && t.slen == 256)
      && reacts (.hostWrite 0x0007 257) State.reset (fun t => t.reply == some (.write .slverr) && t.slen == 0)
      && reacts (.hostWrite 0x2000 1) State.reset (fun t => t.reply == some (.write .slverr)) = true := by decide

/-- A15 and A16: an accepted write to FWD drops the alphabet, a refused one does not. -/
theorem test_fwd_write :
    reacts (.hostWrite 0x40C8 0x41) (decimal 2)
        (fun t => !t.avalid && t.n == 0 && t.l == 2 && t.elem .rev 0x30 == 0xFF && t.elem .fwd 0 == 0x30)
      && reacts (.hostWrite 0x4000 0x1FF) (decimal 2) (fun t => t.avalid && t.n == 10) = true := by decide

/-- 95_test_vectors.md section 8, order of checks. -/
theorem test_order_of_checks :
    reacts (commandEvent 0x00010020#32) State.reset (fun t => t.err == .illcmd && t.reply == some (.write .okay))
      && reacts (commandEvent 0x012C000A#32) State.reset (fun t => t.err == .noalpha)
      && reacts (commandEvent 0x012C000A#32) (decimal 1) (fun t => t.err == .badarg) = true := by decide

theorem test_withFetchWord :
    reacts .reset (decimal 2) (fun t => t == State.reset)
      && (match step (State.reset.withFetchWord 32 0x00080001) with | .next t => t.l == 8 | _ => false) = true := by
  decide

/-- R99: LDSTR "05" and the write of its length. -/
theorem test_ldstr :
    ldstr [0x30, 0x35] = [.hostWrite 0x3000 0x30, .hostWrite 0x3001 0x35, .hostWrite 0x0007 2]
      ∧ clrerr = [.hostWrite 0x0000 0] := by decide

/-! ### Witnesses: states that meet the hypotheses of the obligations -/

/-- A small engine: LMAX = 2, DOMAIN = 8, radix 3 with increasing characters 3, 5, 6, L = 1. -/
def small : State := holding { lmax := 2, domain := 8 } [3, 5, 6] 1

/-- `small` with the width cached. -/
def cached : State := { small with wvalid := true, w := 6, ub := 8 }

theorem inv_small : small.Inv := by refine ⟨?_, ?_, ?_, ?_, ?_, ?_⟩ <;> decide
theorem inv_small_76 : (filled .bb [76] small).Inv := by refine ⟨?_, ?_, ?_, ?_, ?_, ?_⟩ <;> decide
theorem inv_small_77 : (filled .bb [77] small).Inv := by refine ⟨?_, ?_, ?_, ?_, ?_, ?_⟩ <;> decide
theorem inv_cached : cached.Inv := by refine ⟨?_, ?_, ?_, ?_, ?_, ?_⟩ <;> decide

theorem witness_encodedCommandDecodes : (Instr.setl 0xFFFF).WellFormed ∧ Instr.encf.WellFormed := by decide

theorem witness_decodedWord : decode 0xFFFF000B#32 = .ok (.dinj 0xFFFF) := by decide

/-- Both clauses of OpcodeMapDecidesDecoding, a row of each format. -/
theorem witness_opcodeMap :
    ⟨"ENCF", 0xFFFFFFFF#32, 0x00000020#32⟩ ∈ opcodeTable ∧ decode 0x20#32 = .ok .encf
      ∧ ⟨"SETL", 0x0000FFFF#32, 0x00000001#32⟩ ∈ opcodeTable ∧ decode 0x00080001#32 = .ok (.setl 8) := by decide

/-- The three ways to be illegal, and a state whose next event is such a write. -/
theorem witness_illegalWord :
    ({ small with pending := [.hostWrite 0x0000#16 0x03#32] } : State).pending = .hostWrite 0x0000#16 0x03#32 :: []
      ∧ (0x03#32).toNat % 256 ∉ [0x00, 0x01, 0x02, 0x08, 0x09, 0x0A, 0x0B, 0x0C, 0x0D, 0x0E, 0x10, 0x20, 0x21, 0x30, 0x31]
      ∧ (0x0001010A#32).toNat / 256 % 256 ≠ 0
      ∧ (0x10000#32).toNat % 256 ∈ [0x00, 0x08, 0x09, 0x0C, 0x0D, 0x0E, 0x10, 0x20, 0x21, 0x30, 0x31]
      ∧ (0x10000#32).toNat / 65536 ≠ 0 := by decide

theorem witness_commandWrite :
    ({ small with pending := [.hostWrite 0x0000#16 0x20#32] } : State).pending = .hostWrite 0x0000#16 0x20#32 :: []
      ∧ decode 0x20#32 = .ok .encf := by decide

theorem witness_idle : State.reset.pending = [] := by decide

/-- The boundary addresses of every clause of HostReadAnswersAddressMap for `small` (LMAX 2, CMAX 16, DOMAIN 8), and
unmapped addresses next to them. -/
theorem witness_hostRead :
    ({ small with pending := [.hostRead 0x1001#16] } : State).pending = .hostRead 0x1001#16 :: []
      ∧ (1 < small.cfg.lmax ∧ (0x1001#16).toNat = 0x1000 + 1) ∧ (15 < small.cfg.cmax ∧ (0x200F#16).toNat = 0x2000 + 15)
      ∧ (0x300F#16).toNat = 0x3000 + 15 ∧ (0x40FE#16).toNat = 0x4000 + 254
      ∧ (7 < small.cfg.domain ∧ (0x5007#16).toNat = 0x5000 + 7)
      ∧ ∀ a ∈ [0x0009, 0x0FFF, 0x1002, 0x2010, 0x3010, 0x40FF, 0x5008, 0xFFFF], ¬ MappedAddress small.cfg a := by
  refine ⟨?_, ?_, ?_, ?_, ?_, ?_, ?_⟩ <;> decide

/-- Every register clause of HostReadAnswersAddressMap answers at its own address. -/
theorem witness_hostRead_registers :
    ([0, 1, 2, 3, 4, 5, 6, 7, 8].map fun a : Nat =>
        reacts (.hostRead (BitVec.ofNat 16 a)) { cached with dlen := 4, slen := 5, carry := 6 }
          (fun t => t.reply == some (.read .okay ([0, 0x30, 3, 1, 6, 8, 4, 5, 6].getD a 99))))
      = List.replicate 9 true := by decide

/-- Admitted and not admitted accesses: each cause of R63 at a boundary, and the values next to them. -/
theorem witness_slverr :
    ({ small with pending := [.hostWrite 0x0009#16 0#32] } : State).pending = .hostWrite 0x0009#16 0#32 :: []
      ∧ ({ small with pending := [.hostRead 0x0008#16] } : State).pending = .hostRead 0x0008#16 :: []
      ∧ MappedAddress small.cfg 8 ∧ ¬ MappedAddress small.cfg 9
      ∧ (∀ p ∈ [(0x0009, 0), (0x1002, 0), (0x0008, 0), (0x200F, 0), (0x5007, 0), (0x1001, 256), (0x0007, 17)],
          WriteNotAdmitted small.cfg p.1 p.2)
      ∧ ∀ p ∈ [(0x0000, 0xFFFFFFFF), (0x0007, 16), (0x1001, 255), (0x300F, 255), (0x40FE, 255)],
          ¬ WriteNotAdmitted small.cfg p.1 p.2 := by
  refine ⟨?_, ?_, ?_, ?_, ?_, ?_⟩ <;> decide

theorem witness_slverr_admitted :
    reacts (.hostWrite 0x1001 255) small (fun t => t.reply == some (.write .okay)) = true := by decide

theorem witness_slenWrite :
    ({ small with pending := [.hostWrite 0x0007#16 16#32] } : State).pending = .hostWrite 0x0007#16 16#32 :: []
      ∧ (16#32).toNat ≤ small.cfg.cmax ∧ small.cfg.cmax < (17#32).toNat := by decide

theorem witness_byteWrite :
    1 < Buf.bb.size small.cfg ∧ (0x1001#16).toNat = Buf.bb.base + 1
      ∧ 15 < Buf.sb.size small.cfg ∧ (0x300F#16).toNat = Buf.sb.base + 15
      ∧ ({ small with pending := [.hostWrite 0x1001#16 255#32] } : State).pending = .hostWrite 0x1001#16 255#32 :: []
      ∧ (255#32).toNat ≤ 255 ∧ 255 < (256#32).toNat := by decide

theorem witness_fwdWrite :
    (254 : Nat) < 255 ∧ (0x40FE#16).toNat = 0x4000 + 254 ∧ (255#32).toNat ≤ 255
      ∧ ({ small with pending := [.hostWrite 0x40FE#16 255#32] } : State).pending = .hostWrite 0x40FE#16 255#32 :: [] := by
  decide

theorem witness_resetEvent : ({ small with pending := [.reset] } : State).pending = .reset :: [] := by decide

/-- StepKeepsInvariants, StepNeverStops, StepKeepsAlphabetTables, StepKeepsMemoryCanonical, StepKeepsMemoryMapped: a
state that meets the hypotheses and a step that gives a next state. -/
theorem witness_step :
    small.Inv ∧ small.AlphabetInv ∧ small.mem.wf ∧ small.MemoryMapped
      ∧ reacts (commandEvent 0x20#32) small (fun _ => true) = true := by
  refine ⟨inv_small, ?_, ?_, ?_, ?_⟩ <;> decide

/-- The frame statements and CommandsRaiseOnlyTheirCodes: a command of every row gives a next state from `small`. -/
theorem witness_commands_complete :
    ([.nop, .setl 2, .abuild 3, .dclr, .bclr, .einj 255, .dinj 2, .drev, .brev, .dmap, .pwidth, .encf, .encm, .decf,
        .decm].map fun i => leads i small fun _ => true) = List.replicate 15 true := by decide

theorem witness_missingAlphabet : needsAlphabet .encf = true ∧ State.reset.avalid = false := by decide

theorem witness_operandRange :
    small.cfg.lmax < 3 ∧ small.avalid = true ∧ 255 < 256 ∧ small.n.toNat ≤ 3 := by decide

/-- CarryAfterCommand: each clause on a command that ends as its hypothesis says. -/
theorem witness_carryAfterCommand :
    small.Inv ∧ small.avalid = true
      ∧ leads (.einj 7) small (fun t => t.err == .ok) = true ∧ leads (.dinj 2) small (fun t => t.err != .badarg) = true
      ∧ leads .decm small (fun _ => true) = true := by
  refine ⟨inv_small, ?_, ?_, ?_, ?_⟩ <;> decide

theorem witness_setl : 2 ≤ small.cfg.lmax ∧ small.cfg.lmax < 3 := by decide

/-- The largest operand an encoding holds, for the three statements about SETL, ABUILD and DINJ. -/
theorem witness_largestOperand :
    (encode (.setl 0xFFFF)).toNat = 0xFFFF0001 ∧ (encode (.abuild 0xFFFF)).toNat = 0xFFFF0002
      ∧ (encode (.dinj 0xFFFF)).toNat = 0xFFFF000B := by decide

/-- AbuildSucceedsExactlyOnValidAlphabets: a valid alphabet, and each way to be invalid. -/
theorem witness_abuild :
    small.ValidAlphabet 3 ∧ ¬ small.ValidAlphabet 1 ∧ ¬ small.ValidAlphabet 256 ∧ ¬ (filled .fwd [3, 3] small).ValidAlphabet 2
      ∧ ¬ (filled .fwd [3, 8] small).ValidAlphabet 2 := by decide

theorem witness_lookup :
    small.AlphabetHeld ∧ small.avalid = true ∧ lookup small 6 = some 2 ∧ (2 : Byte).toNat < small.n.toNat := by decide

theorem witness_divmod : 2 ≤ (2 : Byte).toNat ∧ (511 : Half).toNat < 256 * (2 : Byte).toNat := by decide

theorem witness_mac : (254 : Byte).toNat < (255 : Byte).toNat := by decide

/-- EncodeInjectLaws with a full buffer (a carry is left) and with room (none is), and a nonzero top digit. -/
theorem witness_encodeInject :
    2 ≤ (2 : Byte).toNat ∧ (∀ d ∈ ([0, 1] : List Byte), d.toNat < (2 : Byte).toNat)
      ∧ encDigits 2 255 0 [0, 1] = some ([1, 1], 191) ∧ (encDigits 2 255 9 [0, 1]).map (·.2) = some 0
      ∧ ∀ d, ([0, 1] : List Byte).getLast? = some d → d ≠ 0#8 := by
  refine ⟨?_, ?_, ?_, ?_, ?_⟩ <;> decide

theorem witness_presized :
    2 ≤ (10 : Byte).toNat ∧ (∀ d ∈ ([1] : List Byte), d.toNat < (10 : Byte).toNat)
      ∧ encDigits 10 255 9 [1] = some ([1, 1, 5], 0) ∧ ([1, 1, 5] : List Byte).length ≤ ([1] : List Byte).length + 2 := by
  decide

theorem witness_decodeInject : (9 : Byte).toNat < (10 : Byte).toNat := by decide

/-- UpperBoundIsCeiling at the ends of its ranges. -/
theorem witness_upperBound :
    (1 ≤ 1 ∧ 1 ≤ 255) ∧ (1 ≤ 255 ∧ 255 ≤ 255) ∧ (512 ≤ 512 ∧ 2 ≤ 2 ∧ 2 ≤ 255) ∧ upperBound 512 2 = some 4096 := by decide

theorem witness_einj :
    small.DigitsBelowRadix ∧ small.AlphabetHeld ∧ small.LengthsInRange ∧ small.avalid = true
      ∧ 256 * small.digitsLE + 255 < small.n.toNat ^ small.cfg.cmax := by decide

/-- The state of T5 with LMAX = 1: the value 128 in eight binary digits. -/
def full : State := digits [0, 0, 0, 0, 0, 0, 0, 1] (holding { lmax := 1, domain := 2 } [0, 1] 0)

theorem witness_einj_capacity :
    full.DigitsBelowRadix ∧ full.AlphabetHeld ∧ full.LengthsInRange ∧ full.avalid = true
      ∧ full.n.toNat ^ full.cfg.cmax ≤ 256 * full.digitsLE + 0 := by decide

theorem witness_drev : (digits [1, 0, 2] small).dlen.toNat ≤ (digits [1, 0, 2] small).cfg.cmax := by decide

theorem witness_dmap :
    (digits [1, 0, 2] small).DigitsBelowRadix ∧ (digits [1, 0, 2] small).LengthsInRange
      ∧ (digits [1, 0, 2] small).avalid = true := by decide

/-- ENCF, ENCM, PWIDTH and the round trips: an invariant state with an alphabet and a value, with and without the
width. -/
theorem witness_encode : (filled .bb [77] small).Inv ∧ small.avalid = true ∧ cached.Inv ∧ cached.avalid = true :=
  ⟨inv_small_77, by decide, inv_cached, by decide⟩

/-- FixedRoundTrip and MinimalRoundTrip: a memory that agrees with another outside BB and differs in it. -/
theorem witness_otherBytes (m : Memory) : SameOutside .bb small.cfg.lmax m (m.store 0x1000 [9, 9]) :=
  fun _ h => read_store_outside h

/-- The bytes come back from the string when BB holds something else in between. -/
theorem witness_roundTrips :
    (match exec .encf (filled .bb [77] small) with
      | .next t => leads .decf (filled .bb [9, 9] t) (fun u => u.err == .ok && u.elem .bb 0 == 77)
      | _ => false) = true
      ∧ (match exec .encm (filled .bb [77] small) with
      | .next t => leads .decm (filled .bb [9, 9] t) (fun u => u.err == .ok && u.elem .bb 0 == 77)
      | _ => false) = true := by decide

theorem witness_order :
    (filled .bb [76] small).Inv ∧ (filled .bb [77] small).Inv ∧ (filled .bb [76] small).avalid = true
      ∧ (filled .bb [77] small).avalid = true ∧ (filled .bb [76] small).l = (filled .bb [77] small).l
      ∧ (filled .bb [76] small).n = (filled .bb [77] small).n
      ∧ (∀ d < small.n.toNat, (filled .bb [76] small).elem .fwd d = (filled .bb [77] small).elem .fwd d)
      ∧ (∀ e < small.n.toNat, ∀ d < e,
          ((filled .bb [76] small).elem .fwd d).toNat < ((filled .bb [76] small).elem .fwd e).toNat)
      ∧ (filled .bb [76] small).bytesBE < (filled .bb [77] small).bytesBE :=
  ⟨inv_small_76, inv_small_77, by decide, by decide, by decide, by decide, by decide, by decide, by decide⟩

/-- DINJ at 255 × 3: within and beyond one byte. -/
theorem witness_dinj :
    small.avalid = true ∧ 2 < small.n.toNat ∧ small.l.toNat ≤ small.cfg.lmax
      ∧ (filled .bb [84] small).bytesLE * small.n.toNat + 2 < small.byteLimit
      ∧ small.byteLimit ≤ (filled .bb [85] small).bytesLE * small.n.toNat + 1 := by decide

theorem witness_brev : small.l.toNat ≤ small.cfg.lmax := by decide

theorem witness_reversal :
    (Instr.drev = .drev ∧ small.dlen.toNat ≤ small.cfg.cmax) ∧ (Instr.brev = .brev ∧ small.l.toNat ≤ small.cfg.lmax) := by
  decide

/-- "653" spells 2, 1, 0, the value 21. -/
def spelled : State := text [6, 5, 3] small

theorem inv_spelled : spelled.Inv := by refine ⟨?_, ?_, ?_, ?_, ?_, ?_⟩ <;> decide

theorem witness_decm :
    spelled.Inv ∧ spelled.avalid = true ∧ spelled.Spells spelled.text [2, 1, 0]
      ∧ valueBE spelled.n.toNat [2, 1, 0] < spelled.byteLimit :=
  ⟨inv_spelled, by decide, by decide, by decide⟩

/-- A string whose fourth character, 7, is no character of the alphabet. -/
def misspelled : State := text [6, 5, 3, 7, 6] small

theorem witness_decm_invalid :
    misspelled.Inv ∧ misspelled.avalid = true ∧ misspelled.text = [6, 5, 3] ++ 7 :: [6] ∧ misspelled.Spells [6, 5, 3] [2, 1, 0]
      ∧ valueBE misspelled.n.toNat [2, 1, 0] < misspelled.byteLimit ∧ lookup misspelled 7 = none := by
  refine ⟨⟨?_, ?_, ?_, ?_, ?_, ?_⟩, ?_, ?_, ?_, ?_, ?_⟩ <;> decide

/-- 222222 in base 3 is 728: the sixth character overflows one byte. -/
def tooLarge : State := text [6, 6, 6, 6, 6, 6] small

theorem witness_decm_overflow :
    tooLarge.Inv ∧ tooLarge.avalid = true ∧ tooLarge.text = [6, 6, 6, 6, 6] ++ 6 :: []
      ∧ tooLarge.Spells [6, 6, 6, 6, 6] [2, 2, 2, 2, 2]
      ∧ valueBE tooLarge.n.toNat [2, 2, 2, 2, 2] < tooLarge.byteLimit ∧ lookup tooLarge 6 = some 2
      ∧ tooLarge.byteLimit ≤ valueBE tooLarge.n.toNat ([2, 2, 2, 2, 2] ++ [2]) := by
  refine ⟨⟨?_, ?_, ?_, ?_, ?_, ?_⟩, ?_, ?_, ?_, ?_, ?_, ?_⟩ <;> decide

/-- The padded spelling of 255 in base 3, 100110, without and with the width cached. -/
def fullWidth (s : State) : State := text [5, 3, 3, 5, 5, 3] s

theorem inv_fullWidth : (fullWidth small).Inv ∧ (fullWidth cached).Inv := by
  refine ⟨⟨?_, ?_, ?_, ?_, ?_, ?_⟩, ⟨?_, ?_, ?_, ?_, ?_, ?_⟩⟩ <;> decide

theorem witness_decf :
    (fullWidth small).Inv ∧ (fullWidth cached).Inv ∧ (fullWidth small).avalid = true
      ∧ (fullWidth cached).avalid = true ∧ small.wvalid = false ∧ cached.wvalid = true
      ∧ (fullWidth small).slen.toNat = paddedWidth (fullWidth small).l.toNat (fullWidth small).n.toNat
      ∧ (fullWidth small).Spells (fullWidth small).text [1, 0, 0, 1, 1, 0]
      ∧ valueBE (fullWidth small).n.toNat [1, 0, 0, 1, 1, 0] < (fullWidth small).byteLimit
      ∧ (fullWidth cached).Spells (fullWidth cached).text [1, 0, 0, 1, 1, 0] :=
  ⟨inv_fullWidth.1, inv_fullWidth.2, by decide, by decide, by decide, by decide, by decide, by decide, by decide, by decide⟩

/-- DecfIsDecmAtFullWidth where DECF fails: six characters whose third is no character of the alphabet, without and with
the width cached. -/
theorem witness_decf_fails :
    (text [5, 3, 7, 5, 5, 3] small).Inv ∧ (text [5, 3, 7, 5, 5, 3] cached).Inv
      ∧ (text [5, 3, 7, 5, 5, 3] small).avalid = true ∧ (text [5, 3, 7, 5, 5, 3] cached).avalid = true
      ∧ (text [5, 3, 7, 5, 5, 3] small).slen.toNat = paddedWidth small.l.toNat small.n.toNat
      ∧ small.wvalid = false ∧ cached.wvalid = true := by
  refine ⟨⟨?_, ?_, ?_, ?_, ?_, ?_⟩, ⟨?_, ?_, ?_, ?_, ?_, ?_⟩, ?_, ?_, ?_, ?_, ?_⟩ <;> decide

/-- R202 and R192: a DECF that fails on a character has filled the width cache, with the digits of 255 in DB. -/
theorem test_decf_invalid : leads .decf (text [5, 3, 7, 5, 5, 3] small)
    (fun t => t.err == .invchar && t.wvalid && t.w == 6 && t.ub == 8 && t.dlen == 6
      && t.elems .db 7 == [0, 1, 1, 0, 0, 1, 0] && t.elem .bb 0 == 0) = true := by decide

theorem inv_spelled_cached : (text [6, 5, 3] cached).Inv := by refine ⟨?_, ?_, ?_, ?_, ?_, ?_⟩ <;> decide

/-- DecfRefusesOtherLengths with the width cached. -/
theorem witness_decf_length_cached :
    (text [6, 5, 3] cached).Inv ∧ (text [6, 5, 3] cached).avalid = true ∧ (text [6, 5, 3] cached).wvalid = true
      ∧ (text [6, 5, 3] cached).slen.toNat ≠ paddedWidth cached.l.toNat cached.n.toNat :=
  ⟨inv_spelled_cached, by decide, by decide, by decide⟩

theorem witness_decf_length :
    spelled.Inv ∧ spelled.avalid = true ∧ spelled.slen.toNat ≠ paddedWidth spelled.l.toNat spelled.n.toNat :=
  ⟨inv_spelled, by decide, by decide⟩

/-- `spelled` with one zero digit's character in front. -/
def zeroSpelled : State := text [3, 6, 5, 3] small

theorem witness_leadingZero :
    spelled.Inv ∧ zeroSpelled.Inv ∧ spelled.avalid = true ∧ zeroSpelled.avalid = true
      ∧ spelled.cfg = zeroSpelled.cfg ∧ spelled.l = zeroSpelled.l ∧ spelled.n = zeroSpelled.n
      ∧ (∀ d < spelled.n.toNat, spelled.elem .fwd d = zeroSpelled.elem .fwd d)
      ∧ zeroSpelled.text = spelled.elem .fwd 0 :: spelled.text := by
  refine ⟨inv_spelled, ⟨?_, ?_, ?_, ?_, ?_, ?_⟩, ?_, ?_, ?_, ?_, ?_, ?_, ?_⟩ <;> decide

/-- WidthLaws: two states with the same L and N and other characters. -/
theorem witness_widthLaws :
    small.Inv ∧ (holding { lmax := 1, domain := 4 } [2, 0, 1] 1).Inv
      ∧ small.l = (holding { lmax := 1, domain := 4 } [2, 0, 1] 1).l
      ∧ small.n = (holding { lmax := 1, domain := 4 } [2, 0, 1] 1).n
      ∧ small.avalid = true ∧ (holding { lmax := 1, domain := 4 } [2, 0, 1] 1).avalid = true
      ∧ full.Inv ∧ full.avalid = true ∧ full.n.toNat = 2 ^ 1 ∧ leads .pwidth small (fun _ => true) = true := by
  refine ⟨inv_small, ⟨?_, ?_, ?_, ?_, ?_, ?_⟩, ?_, ?_, ?_, ?_, ⟨?_, ?_, ?_, ?_, ?_, ?_⟩, ?_, ?_, ?_⟩ <;> decide

end Sys2Proof.Tests
end

/-! PROOFS. The host port (20_memory.md): what a read answers, which writes are admitted, and what an admitted write to
SLEN or to FWD leaves. Settles HostReadAnswersAddressMap, SlverrExactlyOnListedCauses, SlenWriteStoresOrRefuses and
FwdWriteDropsAlphabet. -/

namespace Sys2Proof.Machine.HostPort

/-! ### What no command touches: the parameters and the host's side -/

/-- The states agree on the parameters, the events pending and the last response. -/
def SameHost (s t : State) : Prop := t.cfg = s.cfg ∧ t.pending = s.pending ∧ t.reply = s.reply

theorem SameHost.refl (s : State) : SameHost s s := ⟨rfl, rfl, rfl⟩

theorem SameHost.trans {s t u : State} (h : SameHost s t) (h' : SameHost t u) : SameHost s u :=
  ⟨h'.1.trans h.1, h'.2.1.trans h.2.1, h'.2.2.trans h.2.2⟩

theorem sameHost_of_encodeFrame {s t : State} (h : EncodeFrame s t) : SameHost s t := by
  rw [h.1]; exact .refl s

theorem sameHost_of_decodeFrame {s t : State} (h : DecodeFrame s t) : SameHost s t := by
  rw [h.1]; exact .refl s

theorem reverseElems_sameHost {b : Buf} {k : Nat} {s t : State} (h : reverseElems b k s = .ok t) : SameHost s t := by
  obtain ⟨-, rfl⟩ := reverseElems_ok.1 h
  exact .refl s

theorem mapDigits_sameHost {k : Half} {s t : State} (h : mapDigits k s = .ok t) : SameHost s t := by
  obtain ⟨-, -, rfl⟩ := mapDigits_ok.1 h
  exact .refl s

theorem zeroBytes_sameHost {s t : State} (h : zeroBytes s = .ok t) : SameHost s t :=
  sameHost_of_decodeFrame (zeroBytes_frame h)

theorem decodeChars_sameHost {cs : List Byte} {s t : State} (h : decodeChars cs s = .ok t) : SameHost s t := by
  rw [(decodeChars_frame h).1]; exact .refl s

theorem accumulateBytes_sameHost {s t : State} (h : accumulateBytes s = .ok t) : SameHost s t := by
  obtain ⟨-, h⟩ := accumulateBytes_ok.1 h
  have hs := sameHost_of_encodeFrame (encInjectAll_frame h)
  exact hs

theorem widthCompute_sameHost {s t : State} (h : widthCompute s = .ok t) : SameHost s t := by
  obtain ⟨u, v, -, hv, rfl⟩ := widthCompute_ok.1 h
  have hs := sameHost_of_encodeFrame (encInjectAll_frame hv)
  exact hs

theorem ensureWidth_sameHost {s t : State} (h : ensureWidth s = .ok t) : SameHost s t := by
  obtain ⟨-, rfl⟩ | ⟨-, h⟩ := ensureWidth_ok.1 h
  · exact .refl _
  · exact widthCompute_sameHost h

theorem execAbuild_sameHost {n : Nat} {s t : State} (h : execAbuild n s = .next t) : SameHost s t := by
  obtain ⟨u, rfl, ⟨-, rfl⟩ | ⟨-, v, hv, rfl⟩⟩ := execAbuild_next.1 h
  · exact .refl s
  · rw [(enterChars_frame hv).1]; exact .refl s

theorem execEinj_sameHost {b : Nat} {s t : State} (h : execEinj b s = .next t) : SameHost s t := by
  obtain ⟨-, rfl⟩ | ⟨-, -, rfl⟩ | ⟨-, -, u, hu, rfl⟩ := execEinj_next.1 h
  · exact .refl s
  · exact .refl s
  · have hs := sameHost_of_encodeFrame (encInject_frame hu)
    split <;> exact hs

theorem execDinj_sameHost {d : Nat} {s t : State} (h : execDinj d s = .next t) : SameHost s t := by
  obtain ⟨-, rfl⟩ | ⟨-, -, rfl⟩ | ⟨-, -, u, hu, rfl⟩ := execDinj_next.1 h
  · exact .refl s
  · exact .refl s
  · have hs := sameHost_of_decodeFrame (decInject_frame hu)
    split <;> exact hs

theorem execSetl_sameHost {l : Nat} {s t : State} (h : execSetl l s = .next t) : SameHost s t := by
  simp only [execSetl, conclude_eq_next, Except.ok.injEq] at h
  subst h
  split <;> exact .refl s

/-- DREV and BREV. -/
theorem reverseCommand_sameHost {b : Buf} {k : Nat} {s t : State}
    (h : conclude (do let s ← reverseElems b k s; return finish s) = .next t) : SameHost s t := by
  obtain ⟨u, hu, h⟩ := run_bind_ok.1 (conclude_eq_next.1 h)
  have hs := reverseElems_sameHost hu
  rw [← run_pure_ok.1 h]
  exact hs

theorem execDmap_sameHost {s t : State} (h : execDmap s = .next t) : SameHost s t := by
  obtain ⟨-, u, hu, rfl⟩ | ⟨-, rfl⟩ := execDmap_next.1 h
  · have hs := mapDigits_sameHost hu
    exact hs
  · exact .refl s

theorem execPwidth_sameHost {s t : State} (h : execPwidth s = .next t) : SameHost s t := by
  obtain ⟨-, u, hu, rfl⟩ | ⟨-, rfl⟩ := execPwidth_next.1 h
  · have hs := widthCompute_sameHost hu
    exact hs
  · exact .refl s

theorem execEncf_sameHost {s t : State} (h : execEncf s = .next t) : SameHost s t := by
  obtain ⟨-, a, ha, b, hb, c, hc, d, hd, rfl⟩ | ⟨-, rfl⟩ := execEncf_next.1 h
  · have hwidth := ensureWidth_sameHost ha
    have hdigits := accumulateBytes_sameHost hb
    have hrev := reverseElems_sameHost hc
    have hmap := mapDigits_sameHost hd
    exact ((hwidth.trans hdigits).trans hrev).trans hmap
  · exact .refl s

theorem execEncm_sameHost {s t : State} (h : execEncm s = .next t) : SameHost s t := by
  obtain ⟨-, a, ha, b, hb, c, hc, rfl⟩ | ⟨-, rfl⟩ := execEncm_next.1 h
  · have hdigits := accumulateBytes_sameHost ha
    have hmap := mapDigits_sameHost hc
    exact (hdigits.trans (reverseElems_sameHost hb)).trans hmap
  · exact .refl s

theorem execDecf_sameHost {s t : State} (h : execDecf s = .next t) : SameHost s t := by
  obtain ⟨-, a, ha, b, hb, hend⟩ | ⟨-, rfl⟩ := execDecf_next.1 h
  · have hzero := zeroBytes_sameHost hb
    have hstart := (ensureWidth_sameHost ha).trans hzero
    obtain ⟨-, rfl⟩ | ⟨-, -, hchars⟩ := hend
    · exact hstart
    · exact hstart.trans (decodeChars_sameHost hchars)
  · exact .refl s

theorem execDecm_sameHost {s t : State} (h : execDecm s = .next t) : SameHost s t := by
  obtain ⟨-, a, ha, -, hchars⟩ | ⟨-, rfl⟩ := execDecm_next.1 h
  · have hzero := zeroBytes_sameHost ha
    exact hzero.trans (decodeChars_sameHost hchars)
  · exact .refl s

/-- No command changes the parameters, the events pending or the response: only the port writes the last two. -/
theorem exec_sameHost {i : Instr} {s t : State} (h : exec i s = .next t) : SameHost s t := by
  cases i with
  | nop => cases h; exact .refl s
  | setl l => exact execSetl_sameHost h
  | abuild n => exact execAbuild_sameHost h
  | dclr => cases h; exact .refl s
  | bclr => cases h; exact .refl s
  | einj b => exact execEinj_sameHost h
  | dinj d => exact execDinj_sameHost h
  | drev => exact reverseCommand_sameHost h
  | brev => exact reverseCommand_sameHost h
  | dmap => exact execDmap_sameHost h
  | pwidth => exact execPwidth_sameHost h
  | encf => exact execEncf_sameHost h
  | encm => exact execEncm_sameHost h
  | decf => exact execDecf_sameHost h
  | decm => exact execDecm_sameHost h

/-- The same of a whole command word, undecodable ones included (R95). -/
theorem runWord_sameHost {w : Word} {s t : State} (h : runWord exec w s = .next t) : SameHost s t := by
  simp only [runWord] at h
  split at h
  · exact exec_sameHost h
  · cases h; exact .refl s

/-! ### The address map in the terms of the statements -/

theorem mappedAddress_iff {c : Config} {a : Nat} :
    MappedAddress c a ↔ a ≤ 8 ∨ ∃ b : Buf, b.Within (b.size c) a := by
  constructor
  · rintro (h | h | h | h | h | h)
    · exact .inl h
    · exact .inr ⟨.bb, h⟩
    · exact .inr ⟨.db, h⟩
    · exact .inr ⟨.sb, h⟩
    · exact .inr ⟨.fwd, h⟩
    · exact .inr ⟨.rev, h⟩
  · rintro (h | ⟨b, h⟩)
    · exact .inl h
    · cases b with
      | bb => exact .inr (.inl h)
      | db => exact .inr (.inr (.inl h))
      | sb => exact .inr (.inr (.inr (.inl h)))
      | fwd => exact .inr (.inr (.inr (.inr (.inl h))))
      | rev => exact .inr (.inr (.inr (.inr (.inr h))))

theorem locate_eq_unmapped_iff {c : Config} {addr : Half} :
    locate c addr = .unmapped ↔ ¬ MappedAddress c addr.toNat := by
  rw [locate_unmapped, mappedAddress_iff, not_or, not_exists, not_le]

theorem locate_within {c : Config} {addr : Half} {b : Buf} (h : b.Within (b.size c) addr.toNat) :
    locate c addr = .elem b (addr.toNat - b.base) :=
  locate_elem.2 ⟨by omega, by omega⟩

/-! ### Reads -/

theorem readLocation_eq_none {s : State} {loc : Location} : readLocation s loc = none ↔ loc = .unmapped := by
  cases loc <;> simp [readLocation]

/-- Every mapped address has a value to read: no location of R64 is write-only (R30). -/
theorem readLocation_mapped {s : State} {addr : Half} (hm : MappedAddress s.cfg addr.toNat) :
    ∃ v, readLocation s (locate s.cfg addr) = some v :=
  Option.ne_none_iff_exists'.1 fun hnone => locate_eq_unmapped_iff.1 (readLocation_eq_none.1 hnone) hm

/-- A read of an existing element gives it zero-extended (R61, R64). -/
theorem readLocation_elem {s : State} {addr : Half} {b : Buf} {i : Nat} (hi : i < b.size s.cfg)
    (ha : addr.toNat = b.base + i) :
    readLocation s (locate s.cfg addr) = some (BitVec.ofNat 32 (s.elem b i).toNat) := by
  rw [locate_elem.2 ⟨ha, hi⟩, BitVec.ofNat_toNat, readLocation]

theorem statusWord_err (s : State) : s.statusWord.extractLsb' 0 4 = s.err.code := by
  simp only [State.statusWord, BitVec.extractLsb'_append_eq_right]

theorem statusWord_avalid (s : State) : s.statusWord.getLsbD 4 = s.avalid := by
  simp only [State.statusWord, BitVec.getLsbD_append]
  simp

theorem statusWord_wvalid (s : State) : s.statusWord.getLsbD 5 = s.wvalid := by
  simp only [State.statusWord, BitVec.getLsbD_append]
  simp

/-- Bits 31:6 of STATUS are zero (R22). -/
theorem statusWord_lt (s : State) : s.statusWord.toNat < 64 := by
  simp only [State.statusWord]
  generalize s.err.code = e
  cases s.wvalid <;> cases s.avalid <;> revert e <;> decide

/-- A read of a mapped location answers OKAY with its value and changes the response alone. -/
theorem step_read_mapped {s : State} {addr : Half} {rest : List Event} {v : Word}
    (h : s.pending = .hostRead addr :: rest) (hv : readLocation s (locate s.cfg addr) = some v) :
    step s = .next { s with pending := rest, reply := some (.read .okay v) } := by
  have hv' : readLocation { s with pending := rest } (locate s.cfg addr) = some v := by
    rw [← hv]; cases locate s.cfg addr <;> rfl
  simp only [step_event h, takeEvent, hostRead, hv']

/-- A read of an unmapped address answers SLVERR with 0 and changes the response alone. -/
theorem step_read_unmapped {s : State} {addr : Half} {rest : List Event}
    (h : s.pending = .hostRead addr :: rest) (hm : ¬ MappedAddress s.cfg addr.toNat) :
    step s = .next { s with pending := rest, reply := some (.read .slverr 0) } := by
  simp only [step_event h, takeEvent, hostRead, locate_eq_unmapped_iff.2 hm, readLocation]

/-- A read gives a response that the location decides, and changes nothing else (R61, R68). -/
theorem step_read {s : State} {addr : Half} {rest : List Event} (h : s.pending = .hostRead addr :: rest) :
    ∃ r, step s = .next { s with pending := rest, reply := some r }
      ∧ (∀ v, readLocation s (locate s.cfg addr) = some v → r = .read .okay v)
      ∧ (¬ MappedAddress s.cfg addr.toNat → r = .read .slverr 0) := by
  by_cases hm : MappedAddress s.cfg addr.toNat
  · obtain ⟨v, hv⟩ := readLocation_mapped hm
    refine ⟨_, step_read_mapped h hv, fun w hw => ?_, fun hn => absurd hm hn⟩
    rw [Option.some.inj (hv.symm.trans hw)]
  · refine ⟨_, step_read_unmapped h hm, fun v hv => ?_, fun _ => rfl⟩
    rw [readLocation_eq_none.2 (locate_eq_unmapped_iff.2 hm)] at hv
    cases hv

/-! ### Writes -/

/-- The writes outside the causes of R63: to CMD, to SLEN within CMAX, of a byte to an element of BB, SB or FWD. -/
theorem admitted_cases {c : Config} {a data : Nat} (h : ¬ WriteNotAdmitted c a data) :
    a = 0 ∨ (a = 7 ∧ data ≤ c.cmax) ∨ ∃ b : Buf, b.hostWritable = true ∧ b.Within (b.size c) a ∧ data ≤ 255 := by
  obtain ⟨hmapped, h⟩ := not_or.1 h
  obtain ⟨hreadOnly, h⟩ := not_or.1 h
  obtain ⟨hwide, hslen⟩ := not_or.1 h
  obtain ⟨hreg, hbuf⟩ := not_or.1 hreadOnly
  obtain ⟨hdb, hrev⟩ := not_or.1 hbuf
  obtain ha | ⟨b, hb⟩ := mappedAddress_iff.1 (not_not.1 hmapped)
  · simp only [List.mem_cons, List.not_mem_nil] at hreg
    omega
  · refine .inr (.inr ⟨b, ?_, hb, ?_⟩)
    · cases b with
      | db => exact absurd hb hdb
      | rev => exact absurd hb hrev
      | _ => rfl
    · by_contra hd
      cases b with
      | bb => exact hwide ⟨.inl hb, by omega⟩
      | sb => exact hwide ⟨.inr (.inl hb), by omega⟩
      | fwd => exact hwide ⟨.inr (.inr hb), by omega⟩
      | db => exact hdb hb
      | rev => exact hrev hb

theorem writeLocation_elem_refused {s : State} {b : Buf} {i : Nat} {data : Word}
    (h : b.hostWritable = false ∨ 255 < data.toNat) : writeLocation data s (.elem b i) = none := by
  rw [writeLocation, writeElem, if_neg]
  rintro ⟨hw, hd⟩
  obtain h | h := h
  · simp [h] at hw
  · omega

/-- Under each cause of R63 the address names a location other than CMD that takes no write. -/
theorem refused_location {s : State} {addr : Half} {data : Word}
    (h : WriteNotAdmitted s.cfg addr.toNat data.toNat) :
    locate s.cfg addr ≠ .cmd ∧ writeLocation data s (locate s.cfg addr) = none := by
  have elem_refused : ∀ b : Buf, b.Within (b.size s.cfg) addr.toNat → b.hostWritable = false ∨ 255 < data.toNat →
      locate s.cfg addr ≠ .cmd ∧ writeLocation data s (locate s.cfg addr) = none := by
    intro b hb hno
    rw [locate_within hb]
    exact ⟨nofun, writeLocation_elem_refused hno⟩
  obtain hunmapped | (hreg | hdb | hrev) | ⟨hbb | hsb | hfwd, hwide⟩ | ⟨hseven, hbig⟩ := h
  · rw [locate_eq_unmapped_iff.2 hunmapped]
    exact ⟨nofun, rfl⟩
  · simp only [List.mem_cons, List.not_mem_nil, or_false] at hreg
    obtain ha | ha | ha | ha | ha | ha | ha := hreg <;> simp [locate, ha, writeLocation]
  · exact elem_refused .db hdb (.inl rfl)
  · exact elem_refused .rev hrev (.inl rfl)
  · exact elem_refused .bb hbb (.inr hwide)
  · exact elem_refused .sb hsb (.inr hwide)
  · exact elem_refused .fwd hfwd (.inr hwide)
  · simp [locate, hseven, writeLocation, writeSlen, hbig]

theorem step_write_refused {s : State} {addr : Half} {data : Word} {rest : List Event}
    (h : s.pending = .hostWrite addr data :: rest) (hw : WriteNotAdmitted s.cfg addr.toNat data.toNat) :
    step s = .next { s with pending := rest, reply := some (.write .slverr) } := by
  obtain ⟨hcmd, hnone⟩ := refused_location (s := { s with pending := rest }) hw
  rw [step_event h, takeEvent, hostWrite]
  split
  · next hc => exact absurd hc hcmd
  · simp only [hnone]

theorem step_write_admitted {s t : State} {addr : Half} {data : Word} {rest : List Event}
    (h : s.pending = .hostWrite addr data :: rest)
    (ht : writeLocation data { s with pending := rest } (locate s.cfg addr) = some t) :
    step s = .next { t with reply := some (.write .okay) } := by
  simp only [step_event h, takeEvent, hostWrite]
  split
  · next hc => simp [hc, writeLocation] at ht
  · simp only [ht]

theorem step_write_slen {s : State} {data : Word} {rest : List Event}
    (h : s.pending = .hostWrite 0x0007#16 data :: rest) (hd : data.toNat ≤ s.cfg.cmax) :
    step s = .next { s with pending := rest, reply := some (.write .okay), slen := data.setWidth 16 } :=
  step_write_admitted h (writeLocation_ok.2 (.inl ⟨locate_slen _, hd, rfl⟩))

/-- The state a byte written to a buffer element leaves (R65, R67). -/
theorem step_write_elem {s t : State} {b : Buf} {i : Nat} {addr : Half} {data : Word} {rest : List Event}
    (h : s.pending = .hostWrite addr data :: rest) (hw : b.hostWritable = true) (hi : i < b.size s.cfg)
    (ha : addr.toNat = b.base + i) (hd : data.toNat ≤ 255)
    (ht : t = { s with pending := rest, mem := s.mem.write (b.base + i) (data.setWidth 8) }) :
    step s = .next { (if b = .fwd then invalidateAlphabet t else t) with reply := some (.write .okay) } := by
  subst ht
  exact step_write_admitted h (writeLocation_ok.2 (.inr ⟨b, i, locate_elem.2 ⟨ha, hi⟩, hw, hd, rfl⟩))

/-- A write to CMD answers OKAY whatever the command word does (R62). -/
theorem reply_of_command_write {s t : State} {data : Word} {rest : List Event}
    (h : s.pending = .hostWrite 0x0000#16 data :: rest) (ht : step s = .next t) :
    t.reply = some (.write .okay) := by
  rw [step_event h] at ht
  simp only [takeEvent, hostWrite, locate_cmd] at ht
  obtain ⟨-, -, hreply⟩ := runWord_sameHost ht
  exact hreply

/-- Every write outside the causes of R63 answers OKAY if the step gives a next state. -/
theorem reply_of_admitted_write {s t : State} {addr : Half} {data : Word} {rest : List Event}
    (h : s.pending = .hostWrite addr data :: rest) (hw : ¬ WriteNotAdmitted s.cfg addr.toNat data.toNat)
    (ht : step s = .next t) : t.reply = some (.write .okay) := by
  obtain hcmd | ⟨hslen, hd⟩ | ⟨b, hb, hin, hd⟩ := admitted_cases hw
  · obtain rfl : addr = 0x0000#16 := BitVec.eq_of_toNat_eq hcmd
    exact reply_of_command_write h ht
  · obtain rfl : addr = 0x0007#16 := BitVec.eq_of_toNat_eq hslen
    rw [step_write_slen h hd] at ht
    cases ht; rfl
  · rw [step_write_elem (i := addr.toNat - b.base) h hb (by omega) (by omega) hd rfl] at ht
    cases ht; rfl

/-! ### The memory an alphabet dropped leaves -/

theorem rev_within_iff {k a : Nat} : Buf.rev.Within k a ↔ 0x5000 ≤ a ∧ a < 0x5000 + k := Iff.rfl

theorem db_within_iff {k a : Nat} : Buf.db.Within k a ↔ 0x2000 ≤ a ∧ a < 0x2000 + k := Iff.rfl

/-- REV reads INVALID, DB reads 0, and every other address is as before (R39). -/
theorem read_invalidateAlphabet (s : State) (a : Nat) :
    (invalidateAlphabet s).mem.read a
      = if Buf.rev.Within s.cfg.domain a then invalidMark
        else if Buf.db.Within s.cfg.cmax a then 0#8 else s.mem.read a := by
  have hcmax := cmax_le s.cfg
  have hdomain := s.cfg.domain_le
  rw [invalidateAlphabet_mem, read_restore, read_restore]
  by_cases hrev : Buf.rev.Within s.cfg.domain a
  · have hwindow := rev_within_iff.1 hrev
    have hdb : ¬ Buf.db.Within s.cfg.cmax a := by rw [db_within_iff]; omega
    rw [if_neg hdb, if_pos hrev, if_pos hrev, Memory.unlisted, if_pos (by omega)]
  · rw [if_neg hrev, if_neg hrev]
    split
    · next hdb =>
      have hwindow := db_within_iff.1 hdb
      rw [Memory.unlisted, if_neg (by omega)]
    · rfl

/-! ### The obligations -/

/-- Settles O8: the location of each address, and what a read of it gives. -/
theorem hostReadAnswersAddressMap : Obligations.HostReadAnswersAddressMap := by
  intro s addr rest h
  obtain ⟨r, hstep, value, hunmapped⟩ := step_read h
  have register : ∀ {k : Nat} (reg : Half) (x : BitVec k),
      readLocation s (locate s.cfg reg) = some (x.setWidth 32) →
        addr = reg → r = .read .okay (BitVec.ofNat 32 x.toNat) := by
    rintro k reg x hx rfl
    rw [BitVec.ofNat_toNat]
    exact value _ hx
  have elem : ∀ b : Buf, ∀ i < b.size s.cfg, addr.toNat = b.base + i →
      r = .read .okay (BitVec.ofNat 32 (s.elem b i).toNat) :=
    fun b i hi ha => value _ (readLocation_elem hi ha)
  refine ⟨r, hstep, ?cmd, ?status, register _ s.n rfl, register _ s.l rfl, register _ s.w rfl, register _ s.ub rfl,
    register _ s.dlen rfl, register _ s.slen rfl, register _ s.carry rfl, elem .bb, elem .db, elem .sb, elem .fwd,
    elem .rev, hunmapped⟩
  case cmd =>
    rintro rfl
    exact value 0 rfl
  case status =>
    rintro rfl
    exact ⟨s.statusWord, value _ rfl, statusWord_err s, statusWord_avalid s, statusWord_wvalid s, statusWord_lt s⟩

/-- Settles O9: each cause of R63 refuses, and outside the causes the response is OKAY. -/
theorem slverrExactlyOnListedCauses : Obligations.SlverrExactlyOnListedCauses := by
  refine ⟨fun s addr rest h => ⟨step_read_unmapped h, fun hm => ?_⟩,
    fun s addr data rest h => ⟨step_write_refused h, fun hw t => reply_of_admitted_write h hw⟩⟩
  obtain ⟨v, hv⟩ := readLocation_mapped hm
  exact ⟨v, step_read_mapped h hv⟩

/-- Settles O10: the two sides of the bound CMAX, which fits the 16 bits of SLEN. -/
theorem slenWriteStoresOrRefuses : Obligations.SlenWriteStoresOrRefuses := by
  intro s data rest h
  refine ⟨fun hd => ⟨data.setWidth 16, ?_, step_write_slen h hd⟩,
    fun hd => step_write_refused h (.inr (.inr (.inr ⟨rfl, hd⟩)))⟩
  have hcmax := cmax_le s.cfg
  rw [BitVec.toNat_setWidth, Nat.mod_eq_of_lt (by omega)]

/-- Settles O12: the element is stored first, then REV and DB go back to their reset contents. -/
theorem fwdWriteDropsAlphabet : Obligations.FwdWriteDropsAlphabet := by
  intro s i addr data rest hi ha hd h
  have hcmax := cmax_le s.cfg
  refine ⟨_, step_write_elem (b := .fwd) h rfl hi ha hd rfl, ?stored, fun c hc => ?rev, fun j hj => ?db,
    fun a hne hrev hdb => ?frame⟩ <;>
    simp only [if_pos, read_invalidateAlphabet]
  case stored =>
    have hrev : ¬ Buf.rev.Within s.cfg.domain (0x4000 + i) := by rw [rev_within_iff]; omega
    have hdb : ¬ Buf.db.Within s.cfg.cmax (0x4000 + i) := by rw [db_within_iff]; omega
    rw [if_neg hrev, if_neg hdb, read_write, if_pos (by rw [Buf.base]), BitVec.toNat_setWidth,
      Nat.mod_eq_of_lt (by omega)]
  case rev =>
    rw [if_pos (by rw [rev_within_iff]; omega), invalidMark]
  case db =>
    have hrev : ¬ Buf.rev.Within s.cfg.domain (0x2000 + j) := by rw [rev_within_iff]; omega
    rw [if_neg hrev, if_pos (by rw [db_within_iff]; omega)]
  case frame => rw [if_neg hrev, if_neg hdb, read_write, if_neg (by rw [Buf.base]; exact hne)]

end Sys2Proof.Machine.HostPort

/-! PROOFS. The command word (30_encoding.md): a word decodes to a command exactly when its number is
operand × 65536 + opcode, and a word that decodes to none only sets ERR. Settles OpcodeMapDecidesDecoding and
IllegalWordSetsIllcmd. -/

namespace Sys2Proof.Machine.Encoding

/-! ### The fields of a word as numbers (R91) -/

theorem opcodeField_toNat (w : Word) : (opcodeField w).toNat = w.toNat % 256 := by
  rw [opcodeField, BitVec.extractLsb'_toNat, Nat.shiftRight_zero]

theorem zero8Field_eq_zero_iff {w : Word} : zero8Field w = 0 ↔ w.toNat / 256 % 256 = 0 := by
  rw [← BitVec.toNat_inj, zero8Field, BitVec.extractLsb'_toNat, Nat.shiftRight_eq_div_pow]
  rfl

theorem highField_toNat (w : Word) : (highField w).toNat = w.toNat / 65536 := by
  have hw := w.isLt
  rw [highField, BitVec.extractLsb'_toNat, Nat.shiftRight_eq_div_pow]
  omega

theorem highField_eq_zero_iff {w : Word} : highField w = 0 ↔ w.toNat / 65536 = 0 := by
  rw [← BitVec.toNat_inj, highField_toNat]
  rfl

/-! ### The opcodes of the two formats (R92, R93) -/

/-- The opcodes of the commands without an operand. -/
def formatZOpcodes : List Nat := [0x00, 0x08, 0x09, 0x0C, 0x0D, 0x0E, 0x10, 0x20, 0x21, 0x30, 0x31]

/-- The opcodes of the commands whose operand is imm16. -/
def formatIOpcodes : List Nat := [0x01, 0x02, 0x0A, 0x0B]

theorem opcode_lt (i : Instr) : i.opcode < 256 := by
  cases i <;> simp only [Instr.opcode] <;> omega

/-- A command is of format Z, and then its operand is 0, or of format I. -/
theorem opcode_format (i : Instr) :
    (i.opcode ∈ formatZOpcodes ∧ i.operand = 0) ∨ i.opcode ∈ formatIOpcodes := by
  cases i with
  | setl | abuild | einj | dinj => exact .inr (by simp [Instr.opcode, formatIOpcodes])
  | _ => exact .inl (by decide)

theorem formats_disjoint {op : Nat} (hz : op ∈ formatZOpcodes) : op ∉ formatIOpcodes := by
  revert op; decide

theorem operand_of_formatZ {i : Instr} (h : i.opcode ∈ formatZOpcodes) : i.operand = 0 := by
  obtain ⟨-, hv⟩ | hi := opcode_format i
  · exact hv
  · exact absurd hi (formats_disjoint h)

theorem exists_formatZ_command : ∀ op ∈ formatZOpcodes, ∃ i : Instr, i.opcode = op ∧ i.operand = 0 := by
  simp only [formatZOpcodes, List.forall_mem_cons, List.not_mem_nil, false_imp_iff, implies_true, and_true]
  exact ⟨⟨.nop, rfl, rfl⟩, ⟨.dclr, rfl, rfl⟩, ⟨.bclr, rfl, rfl⟩, ⟨.drev, rfl, rfl⟩, ⟨.brev, rfl, rfl⟩,
    ⟨.dmap, rfl, rfl⟩, ⟨.pwidth, rfl, rfl⟩, ⟨.encf, rfl, rfl⟩, ⟨.encm, rfl, rfl⟩, ⟨.decf, rfl, rfl⟩, ⟨.decm, rfl, rfl⟩⟩

theorem exists_formatI_command (v : Nat) : ∀ op ∈ formatIOpcodes, ∃ i : Instr, i.opcode = op ∧ i.operand = v := by
  simp only [formatIOpcodes, List.forall_mem_cons, List.not_mem_nil, false_imp_iff, implies_true, and_true]
  exact ⟨⟨.setl v, rfl, rfl⟩, ⟨.abuild v, rfl, rfl⟩, ⟨.einj v, rfl, rfl⟩, ⟨.dinj v, rfl, rfl⟩⟩

/-! ### What decodes (R94) -/

theorem formatZ_eq_ok {w : Word} {c i : Instr} : formatZ w c = .ok i ↔ w.toNat / 65536 = 0 ∧ c = i := by
  rw [← highField_eq_zero_iff, formatZ]
  split
  case isTrue hz => exact ⟨nofun, fun ⟨hv, _⟩ => absurd hv hz⟩
  case isFalse hz => rw [Except.ok.injEq, and_iff_right (not_not.1 hz)]

theorem formatI_eq_ok {w : Word} {mk : Nat → Instr} {i : Instr} :
    formatI w mk = .ok i ↔ mk (w.toNat / 65536) = i := by
  rw [formatI, highField_toNat, Except.ok.injEq]

/-- A word that decodes has bits 15:8 zero and holds the opcode and the operand of its command. -/
theorem fields_of_decode {w : Word} {i : Instr} (h : decode w = .ok i) :
    w.toNat / 256 % 256 = 0 ∧ w.toNat % 256 = i.opcode ∧ w.toNat / 65536 = i.operand := by
  rw [decode] at h
  split at h
  case isTrue => cases h
  case isFalse hz =>
    refine ⟨zero8Field_eq_zero_iff.1 (not_not.1 hz), ?_⟩
    rw [← opcodeField_toNat]
    split at h
    case h_16 => cases h
    case h_1 hop | h_2 hop | h_3 hop | h_4 hop =>
      obtain rfl := formatI_eq_ok.1 h
      exact ⟨hop, rfl⟩
    all_goals
      next hop =>
        obtain ⟨hv, rfl⟩ := formatZ_eq_ok.1 h
        exact ⟨hop, hv⟩

theorem decode_of_fields {w : Word} {i : Instr} (hz : w.toNat / 256 % 256 = 0) (hop : w.toNat % 256 = i.opcode)
    (hv : w.toNat / 65536 = i.operand) : decode w = .ok i := by
  rw [decode, if_neg (not_not.2 (zero8Field_eq_zero_iff.2 hz)), opcodeField_toNat, hop]
  cases i with
  | setl | abuild | einj | dinj => exact formatI_eq_ok.2 (by rw [hv]; rfl)
  | _ => exact formatZ_eq_ok.2 ⟨hv, rfl⟩

/-- A word decodes to a command exactly when its number is (operand << 16) + opcode (R91, R94). -/
theorem decode_eq_ok_iff {w : Word} {i : Instr} :
    decode w = .ok i ↔ w.toNat = i.operand * 65536 + i.opcode := by
  have hlt := opcode_lt i
  constructor
  · intro h
    obtain ⟨hz, hop, hv⟩ := fields_of_decode h
    omega
  · intro h
    exact decode_of_fields (by omega) (by omega) (by omega)

theorem decodes_formatZ_iff {w : Word} {op : Nat} (hop : op ∈ formatZOpcodes) :
    (∃ i, decode w = .ok i ∧ i.opcode = op) ↔ w.toNat = op := by
  constructor
  · rintro ⟨i, h, rfl⟩
    rw [decode_eq_ok_iff.1 h, operand_of_formatZ hop, Nat.zero_mul, Nat.zero_add]
  · intro h
    obtain ⟨i, rfl, hv⟩ := exists_formatZ_command op hop
    exact ⟨i, decode_eq_ok_iff.2 (by rw [hv, Nat.zero_mul, Nat.zero_add, h]), rfl⟩

theorem decodes_formatI_iff {w : Word} {op : Nat} (hop : op ∈ formatIOpcodes) :
    (∃ i, decode w = .ok i ∧ i.opcode = op) ↔ w.toNat % 65536 = op := by
  constructor
  · rintro ⟨i, h, rfl⟩
    have hlt := opcode_lt i
    rw [decode_eq_ok_iff] at h
    omega
  · intro h
    obtain ⟨i, hi, hv⟩ := exists_formatI_command (w.toNat / 65536) op hop
    exact ⟨i, decode_eq_ok_iff.2 (by omega), hi⟩

/-! ### The rows of the opcode map (R93) -/

theorem and_fullMask_eq_iff {w p : Word} : w &&& 0xFFFFFFFF#32 = p ↔ w.toNat = p.toNat := by
  have hmask : (0xFFFFFFFF#32 : Word) = BitVec.allOnes 32 := by decide
  rw [hmask, BitVec.and_allOnes, BitVec.toNat_inj]

theorem and_lowMask_eq_iff {w p : Word} : w &&& 0x0000FFFF#32 = p ↔ w.toNat % 65536 = p.toNat := by
  rw [← BitVec.toNat_inj, BitVec.toNat_and]
  exact Eq.congr_left (Nat.and_two_pow_sub_one_eq_mod w.toNat 16)

/-- The mask of a row is that of its format, and its match is the opcode. -/
theorem row_format : ∀ row ∈ opcodeTable,
    (row.mask = 0xFFFFFFFF#32 ∧ row.pattern.toNat ∈ formatZOpcodes)
      ∨ (row.mask = 0x0000FFFF#32 ∧ row.pattern.toNat ∈ formatIOpcodes) := by
  decide

/-- The mnemonic and the match of a row name the same command. -/
theorem mnemonic_eq_iff_opcode_eq (i : Instr) :
    ∀ row ∈ opcodeTable, (i.mnemonic = row.mnemonic ↔ i.opcode = row.pattern.toNat) := by
  cases i <;> simp only [Instr.mnemonic, Instr.opcode] <;> decide

/-! ### Execution of a command word (R90, R95) -/

theorem step_command {s : State} {w : Word} {rest : List Event} (h : s.pending = .hostWrite 0x0000#16 w :: rest) :
    step s = runWord exec w { s with pending := rest, reply := some (.write .okay) } := by
  rw [step_event h, takeEvent, hostWrite, locate_cmd]

theorem runWord_illegal {run : Instr → State → Host.Outcome State Fault Refusal} {w : Word} {s : State}
    (h : ∀ i, decode w ≠ .ok i) : runWord run w s = .next (fail .illcmd s) := by
  rw [runWord]
  split
  case h_1 i hi => exact absurd hi (h i)
  case h_2 => rfl

/-! ### The obligations -/

/-- Settles O3: the row's mask is that of its format, and the mnemonic stands for the opcode. -/
theorem opcodeMapDecidesDecoding : Obligations.OpcodeMapDecidesDecoding := by
  intro w row hrow
  simp only [mnemonic_eq_iff_opcode_eq _ row hrow]
  obtain ⟨hmask, hop⟩ | ⟨hmask, hop⟩ := row_format row hrow
  · refine ⟨?_, fun i _ hi => ?_⟩
    · rw [hmask, and_fullMask_eq_iff, decodes_formatZ_iff hop]
    · rw [hmask, if_neg (by decide), operand_of_formatZ (hi ▸ hop)]
  · refine ⟨?_, fun i h _ => ?_⟩
    · rw [hmask, and_lowMask_eq_iff, decodes_formatI_iff hop]
    · obtain ⟨-, -, hv⟩ := fields_of_decode h
      rw [if_pos hmask, hv]

/-- Settles O5: each cause contradicts a field of a word that decodes. -/
theorem illegalWordSetsIllcmd : Obligations.IllegalWordSetsIllcmd := by
  intro s w rest h hillegal
  have hdecode : ∀ i, decode w ≠ .ok i := by
    intro i hi
    obtain ⟨hz, hop, hv⟩ := fields_of_decode hi
    rw [hop, hv] at hillegal
    obtain hunassigned | hzero8 | ⟨hformatZ, hzero16⟩ := hillegal
    · exact hunassigned (by cases i <;> simp [Instr.opcode])
    · exact hzero8 hz
    · exact hzero16 (operand_of_formatZ hformatZ)
  refine ⟨hdecode, ?_, rfl⟩
  rw [step_command h, runWord_illegal hdecode, fail]

end Sys2Proof.Machine.Encoding

/-! PROOFS. The configuration commands (40_config_alphabet.md): NOP, SETL and ABUILD, and the two directions of the
alphabet. ABUILD turns on one fact about its loop: it enters a list of characters exactly when they lie in the domain,
are not entered yet and are distinct. Settles AbuildSucceedsExactlyOnValidAlphabets, LookupInvertsForwardTable,
NopClearsErrOnly and SetlSetsLengthOrFails. -/

namespace Sys2Proof.Machine.Configuration

open HostPort Encoding

/-- The word of a command whose operand fits imm16 (R91, R94). -/
theorem encode_toNat {i : Instr} (h : i.operand ≤ 0xFFFF) :
    (encode i).toNat = i.operand * 65536 + i.opcode := by
  obtain ⟨hop, hzero, hhigh⟩ := Laws.fields_of_operand h (opcode_lt i)
  rw [opcodeField_toNat] at hop
  rw [zero8Field_eq_zero_iff] at hzero
  rw [highField_toNat] at hhigh
  rw [encode]
  omega

/-- A number below 255 is never read as the verdict *invalid* (R36). -/
theorem ofNat_ne_invalidMark {i : Nat} (h : i < 255) : BitVec.ofNat 8 i ≠ invalidMark := by
  rw [Ne, ← BitVec.toNat_inj, BitVec.toNat_ofNat, Nat.mod_eq_of_lt (by omega)]
  exact Nat.ne_of_lt h

/-! ### ABUILD's loop (R113) -/

/-- The characters can be entered into REV: each in the domain and not entered yet, and no two equal. -/
def Enterable (s : State) (cs : List Byte) : Prop :=
  (∀ c ∈ cs, c.toNat < s.cfg.domain ∧ s.elem .rev c.toNat = invalidMark) ∧ cs.Nodup

/-- The state after character `c` is entered as digit `i`. -/
def enterChar (i : Nat) (c : Byte) (s : State) : State :=
  { s with mem := s.mem.write (0x5000 + c.toNat) (BitVec.ofNat 8 i) }

theorem elem_rev_enterChar (i : Nat) (c d : Byte) (s : State) :
    (enterChar i c s).elem .rev d.toNat = if d = c then BitVec.ofNat 8 i else s.elem .rev d.toNat := by
  simp only [enterChar, State.elem, Buf.base, read_write, Nat.add_left_cancel_iff, BitVec.toNat_inj]

/-- Entering a character takes it, and it alone, out of the characters that can be entered. -/
theorem enterable_cons_iff {i : Nat} {c : Byte} {cs : List Byte} {s : State} (hi : i < 255) :
    Enterable s (c :: cs)
      ↔ c.toNat < s.cfg.domain ∧ s.elem .rev c.toNat = invalidMark ∧ Enterable (enterChar i c s) cs := by
  have htail : ∀ d : Byte, (enterChar i c s).elem .rev d.toNat = invalidMark
      ↔ d ≠ c ∧ s.elem .rev d.toNat = invalidMark := by
    intro d
    rw [elem_rev_enterChar]
    split
    case isTrue hd => simp [hd, ofNat_ne_invalidMark hi]
    case isFalse hd => simp [hd]
  have hcfg : (enterChar i c s).cfg = s.cfg := rfl
  simp only [Enterable, List.forall_mem_cons, List.nodup_cons, htail, hcfg]
  constructor
  · rintro ⟨⟨⟨hdom, hfree⟩, hall⟩, hnew, hnodup⟩
    exact ⟨hdom, hfree,
      fun d hd => ⟨(hall d hd).1, fun hdc => hnew (hdc ▸ hd), (hall d hd).2⟩, hnodup⟩
  · rintro ⟨hdom, hfree, hall, hnodup⟩
    exact ⟨⟨⟨hdom, hfree⟩, fun d hd => ⟨(hall d hd).1, (hall d hd).2.2⟩⟩,
      fun hc => (hall c hc).2.1 rfl, hnodup⟩

/-- The loop ends well exactly on the lists that can be entered. -/
theorem enterChars_succeeds_iff {i : Nat} {cs : List Byte} {s : State} (h : i + cs.length ≤ 255) :
    (∃ t, enterChars i cs s = some t) ↔ Enterable s cs := by
  induction cs generalizing i s with
  | nil => simp [enterChars, Enterable]
  | cons c cs ih =>
    rw [List.length_cons] at h
    simp only [enterChars_cons, exists_and_left]
    rw [enterable_cons_iff (i := i) (by omega), ← ih (i := i + 1) (by omega)]
    rfl

theorem enterChars_read_of_not_entered {i : Nat} {cs : List Byte} {s t : State} (h : enterChars i cs s = some t)
    {a : Nat} (ha : ∀ c ∈ cs, 0x5000 + c.toNat ≠ a) : t.mem.read a = s.mem.read a := by
  induction cs generalizing i s with
  | nil => cases h; rfl
  | cons c cs ih =>
    rw [List.forall_mem_cons] at ha
    obtain ⟨-, -, h⟩ := enterChars_cons.1 h
    rw [ih h ha.2, read_write, if_neg ha.1.symm]

/-- The loop enters the k-th character as digit i + k; a later character does not write over it, being distinct. -/
theorem enterChars_read_entered {i : Nat} {cs : List Byte} {s t : State} (h : enterChars i cs s = some t)
    (hi : i + cs.length ≤ 255) {k : Nat} (hk : k < cs.length) :
    t.mem.read (0x5000 + cs[k].toNat) = BitVec.ofNat 8 (i + k) := by
  obtain ⟨-, hnodup⟩ := (enterChars_succeeds_iff hi).1 ⟨t, h⟩
  induction cs generalizing i s k with
  | nil => cases hk
  | cons c cs ih =>
    obtain ⟨-, -, h⟩ := enterChars_cons.1 h
    obtain ⟨hnew, hnodup⟩ := List.nodup_cons.1 hnodup
    rw [List.length_cons] at hi hk
    cases k with
    | zero =>
      have hkeep : ∀ d ∈ cs, 0x5000 + d.toNat ≠ 0x5000 + c.toNat := fun d hd he =>
        hnew (BitVec.eq_of_toNat_eq (Nat.add_left_cancel he) ▸ hd)
      rw [List.getElem_cons_zero, enterChars_read_of_not_entered h hkeep, read_write, if_pos rfl, Nat.add_zero]
    | succ k =>
      rw [List.getElem_cons_succ, ih h (by omega) (by omega) hnodup, Nat.add_right_comm, Nat.add_assoc]

/-! ### The state ABUILD's loop starts from -/

theorem read_restoreBuf_rev (s : State) (a : Nat) :
    (restoreBuf .rev s).mem.read a = if Buf.rev.Within s.cfg.domain a then invalidMark else s.mem.read a := by
  have hdomain := s.cfg.domain_le
  rw [restoreBuf_mem, read_restore]
  refine ite_congr rfl (fun h => ?_) fun _ => rfl
  have hwindow := rev_within_iff.1 h
  rw [Memory.unlisted, if_pos (by omega)]

theorem read_clearDigits (s : State) (a : Nat) :
    (clearDigits s).mem.read a = if Buf.db.Within s.cfg.cmax a then 0#8 else s.mem.read a := by
  have hcmax := cmax_le s.cfg
  rw [clearDigits_mem, read_restore]
  refine ite_congr rfl (fun h => ?_) fun _ => rfl
  have hwindow := db_within_iff.1 h
  rw [Memory.unlisted, if_neg (by omega)]

/-- The width cache dropped, DB cleared and REV all INVALID: what ABUILD does before it looks at its operand (R113). -/
def cleared (s : State) : State := restoreBuf .rev (clearDigits (invalidateWidth s))

theorem read_cleared (s : State) (a : Nat) :
    (cleared s).mem.read a
      = if Buf.rev.Within s.cfg.domain a then invalidMark
        else if Buf.db.Within s.cfg.cmax a then 0#8 else s.mem.read a := by
  rw [cleared, read_restoreBuf_rev, read_clearDigits]
  rfl

theorem cleared_rev {s : State} {c : Nat} (h : c < s.cfg.domain) : (cleared s).mem.read (0x5000 + c) = invalidMark := by
  rw [read_cleared, if_pos (by rw [rev_within_iff]; omega)]

theorem cleared_db {s : State} {j : Nat} (h : j < s.cfg.cmax) : (cleared s).mem.read (0x2000 + j) = 0#8 := by
  have hcmax := cmax_le s.cfg
  rw [read_cleared, if_neg (by rw [rev_within_iff]; omega), if_pos (by rw [db_within_iff]; omega)]

theorem cleared_frame {s : State} {a : Nat} (hdb : ¬ Buf.db.Within s.cfg.cmax a)
    (hrev : ¬ Buf.rev.Within s.cfg.domain a) : (cleared s).mem.read a = s.mem.read a := by
  rw [read_cleared, if_neg hrev, if_neg hdb]

/-- REV put back a second time, as the failing end does, reads the same. -/
theorem read_dropAlphabet_cleared (s : State) (a : Nat) :
    (dropAlphabet (cleared s)).mem.read a = (cleared s).mem.read a := by
  have hdrop : (dropAlphabet (cleared s)).mem = (restoreBuf .rev (cleared s)).mem := rfl
  have hcfg : (cleared s).cfg = s.cfg := rfl
  rw [hdrop, read_restoreBuf_rev, hcfg, read_cleared]
  split <;> rfl

theorem cleared_elems_fwd (s : State) {n : Nat} (hn : n ≤ 255) : (cleared s).elems .fwd n = s.elems .fwd n := by
  have hcmax := cmax_le s.cfg
  refine elems_congr fun i hi => cleared_frame ?_ ?_
  · rw [db_within_iff, Buf.base]; omega
  · rw [rev_within_iff, Buf.base]; omega

/-- With REV all INVALID, what can be entered is what R112 calls a valid alphabet. -/
theorem enterable_cleared_iff {s : State} {n : Nat} (hn : 2 ≤ n ∧ n ≤ 255) :
    Enterable (cleared s) (s.elems .fwd n) ↔ s.ValidAlphabet n := by
  have hdomain : (∀ c ∈ s.elems .fwd n, c.toNat < (cleared s).cfg.domain
        ∧ (cleared s).elem .rev c.toNat = invalidMark)
      ↔ ∀ i < n, (s.elem .fwd i).toNat < s.cfg.domain := by
    constructor
    · exact fun h i hi => (h _ (mem_elems.2 ⟨i, hi, rfl⟩)).1
    · intro h c hc
      obtain ⟨i, hi, rfl⟩ := mem_elems.1 hc
      exact ⟨h i hi, cleared_rev (h i hi)⟩
  have hdistinct : (s.elems .fwd n).Nodup ↔ ∀ j < n, ∀ i < j, s.elem .fwd i ≠ s.elem .fwd j := by
    simp only [List.Nodup, List.pairwise_iff_getElem, elems_length, elems_getElem]
    exact ⟨fun h j hj i hij => h i j (by omega) hj hij, fun h i j _ hj hij => h j hj i hij⟩
  rw [Enterable, hdomain, hdistinct, State.ValidAlphabet, and_iff_right hn]

/-! ### ABUILD (R112, R113) -/

theorem exec_abuild_valid {n : Nat} {s : State} (h : s.ValidAlphabet n) :
    ∃ v, enterChars 0 (s.elems .fwd n) (cleared s) = some v
      ∧ exec (.abuild n) s = .next (finish { v with n := BitVec.ofNat 8 n, avalid := true }) := by
  have hn := h.1
  obtain ⟨v, hv⟩ := (enterChars_succeeds_iff (i := 0) (by simpa using hn.2)).2 ((enterable_cleared_iff hn).2 h)
  refine ⟨v, hv, execAbuild_next.2 ⟨cleared s, rfl, .inr ⟨hn, v, ?_, rfl⟩⟩⟩
  rw [cleared_elems_fwd s hn.2, hv]

theorem exec_abuild_invalid {n : Nat} {s : State} (h : ¬ s.ValidAlphabet n) :
    exec (.abuild n) s = .next (dropAlphabet (cleared s)) := by
  refine execAbuild_next.2 ⟨cleared s, rfl, .inl ⟨?_, rfl⟩⟩
  by_cases hn : 2 ≤ n ∧ n ≤ 255
  · rw [cleared_elems_fwd s hn.2, Option.eq_none_iff_forall_ne_some]
    refine .inr fun v hv => h ((enterable_cleared_iff hn).1 ?_)
    exact (enterChars_succeeds_iff (i := 0) (by simpa using hn.2)).1 ⟨v, hv⟩
  · exact .inl hn

/-! ### SETL (R111) -/

theorem exec_setl_of_le {l : Nat} {s : State} (h : l ≤ s.cfg.lmax) :
    exec (.setl l) s = .next (finish (invalidateWidth { s with l := BitVec.ofNat 16 l })) := by
  rw [exec, execSetl, lengthOperand_eq.2 ⟨h, rfl⟩, conclude]

theorem exec_setl_of_gt {l : Nat} {s : State} (h : s.cfg.lmax < l) : exec (.setl l) s = .next (fail .badarg s) := by
  rw [exec, execSetl, lengthOperand, if_neg (by omega), conclude]

/-! ### The alphabet held (R114 to R116) -/

theorem lookup_fwd {s : State} (h : s.AlphabetHeld) (ha : s.avalid = true) {d : Byte} (hd : d.toNat < s.n.toNat) :
    lookup s (s.elem .fwd d.toNat) = some d := by
  obtain ⟨-, ⟨⟨-, hn⟩, hdomain, -⟩, hrev, -⟩ := h ha
  have hdigit : BitVec.ofNat 8 d.toNat = d := by rw [BitVec.ofNat_toNat, BitVec.setWidth_eq]
  refine lookup_eq_some.2 ⟨hdomain _ hd, ?_, ?_⟩
  · rw [hrev _ hd, hdigit]
  · rw [← hdigit]
    exact ofNat_ne_invalidMark (by omega)

/-- A character that looks up as a digit is one of FWD[0..N−1], since REV is INVALID everywhere else. -/
theorem fwd_lookup {s : State} (h : s.AlphabetHeld) (ha : s.avalid = true) {c d : Byte} (hl : lookup s c = some d) :
    d.toNat < s.n.toNat ∧ s.elem .fwd d.toNat = c := by
  obtain ⟨-, -, hrev, hinvalid⟩ := h ha
  obtain ⟨hc, hd, hne⟩ := lookup_eq_some.1 hl
  obtain ⟨k, hk, hkc⟩ : ∃ k < s.n.toNat, (s.elem .fwd k).toNat = c.toNat := by
    by_contra! hnone
    exact hne (hd.symm.trans (hinvalid _ hc hnone))
  have hdk : d.toNat = k := by
    rw [← hd, ← hkc, hrev k hk, BitVec.toNat_ofNat, Nat.mod_eq_of_lt (hk.trans s.n.isLt)]
  rw [hdk]
  exact ⟨hk, BitVec.eq_of_toNat_eq hkc⟩

/-! ### The obligations -/

/-- Settles O28: the loop's success is validity, and both ends start from the cleared state. -/
theorem abuildSucceedsExactlyOnValidAlphabets : Obligations.AbuildSucceedsExactlyOnValidAlphabets := by
  refine ⟨fun n hn => encode_toNat (i := .abuild n) hn, fun n s => ⟨fun h => ?valid, fun h => ?invalid⟩⟩
  case valid =>
    obtain ⟨v, hv, hexec⟩ := exec_abuild_valid h
    obtain ⟨⟨-, hn⟩, -⟩ := h
    obtain ⟨hstate, hframe⟩ := enterChars_frame hv
    have hcmax := cmax_le s.cfg
    refine ⟨v.mem, by rw [hexec, hstate]; rfl, fun j hj => ?_, fun d hd => ?_, fun c hc hnot => ?_,
      fun a hdb hrev => ?_⟩
    · rw [hframe _ (by omega), cleared_db hj]
    · have hread := enterChars_read_entered hv (by simpa using hn) (k := d) (by simpa using hd)
      rwa [elems_getElem, Nat.zero_add] at hread
    · refine (enterChars_read_of_not_entered hv fun x hx he => ?_).trans (cleared_rev hc)
      obtain ⟨d, hd, rfl⟩ := mem_elems.1 hx
      exact hnot d hd (Nat.add_left_cancel he)
    · rw [hframe _ hrev, cleared_frame hdb hrev]
  case invalid =>
    refine ⟨(dropAlphabet (cleared s)).mem, exec_abuild_invalid h, fun j hj => ?_, fun c hc => ?_,
      fun a hdb hrev => ?_⟩ <;> rw [read_dropAlphabet_cleared]
    · exact cleared_db hj
    · exact cleared_rev hc
    · exact cleared_frame hdb hrev

/-- Settles O29: fwd is injective because lookup undoes it. -/
theorem lookupInvertsForwardTable : Obligations.LookupInvertsForwardTable := by
  refine fun s h ha => ⟨fun d => lookup_fwd h ha, fun c d => fwd_lookup h ha, fun d e hd he hde => ?_⟩
  have hlookup : some d = some e := by rw [← lookup_fwd h ha hd, hde, lookup_fwd h ha he]
  exact Option.some.inj hlookup

/-- Settles O26: the next state is `finish s`. -/
theorem nopClearsErrOnly : Obligations.NopClearsErrOnly :=
  ⟨rfl, fun s => ⟨finish s, rfl, rfl, rfl⟩⟩

/-- Settles O27: the two sides of the bound LMAX, which fits the 16 bits of L. -/
theorem setlSetsLengthOrFails : Obligations.SetlSetsLengthOrFails := by
  refine ⟨fun l hl => encode_toNat (i := .setl l) hl, fun l s => ⟨fun hl => ?_, exec_setl_of_gt⟩⟩
  have hlmax := s.cfg.lmax_le
  exact ⟨BitVec.ofNat 16 l, by rw [BitVec.toNat_ofNat, Nat.mod_eq_of_lt (by omega)], exec_setl_of_le hl⟩

end Sys2Proof.Machine.Configuration

/-! PROOFS. The byte-to-digit commands (41_encode.md): the divmod engine, the value an encode inject leaves, and the
commands DCLR, DREV, DMAP, ENCF and ENCM. The two encodes turn on one predicate, `Accumulates`: the digits held are
the minimal base-N digits of a value. A clear digit buffer accumulates 0, an inject of byte b takes v to 256 × v + b, so
the run over BB[0..L−1] accumulates its big-endian value, which fits because 256^L ≤ 2^CMAX ≤ N^CMAX. Settles
DivmodExactWithinContract, DclrClearsDigits, DrevReversesDigits, DmapMapsDigits, EncfWritesPaddedText and
EncmWritesMinimalText. -/

namespace Sys2Proof.Machine.ByteToDigit

open Sys2Proof.Machine.HostPort Sys2Proof.Machine.Configuration

/-! ### The value of a list of digits (R14) -/

theorem valueLE_eq_ofDigits (base : Nat) (ds : List Byte) :
    valueLE base ds = Nat.ofDigits base (ds.map BitVec.toNat) := by
  induction ds with
  | nil => rfl
  | cons d ds ih => simp [valueLE, Nat.ofDigits_cons, ih]

theorem valueLE_append (base : Nat) (ds es : List Byte) :
    valueLE base (ds ++ es) = valueLE base ds + base ^ ds.length * valueLE base es := by
  simp only [valueLE_eq_ofDigits, List.map_append, Nat.ofDigits_append, List.length_map]

/-- Zero digits at the most significant end change no value. -/
theorem valueLE_append_zeros (base k : Nat) (ds : List Byte) :
    valueLE base (ds ++ List.replicate k 0#8) = valueLE base ds := by
  simp [valueLE_eq_ofDigits, Nat.ofDigits_append_replicate_zero]

theorem valueBE_cons (base : Nat) (d : Byte) (ds : List Byte) :
    valueBE base (d :: ds) = d.toNat * base ^ ds.length + valueBE base ds := by
  simp only [valueBE, List.reverse_cons, valueLE_append, valueLE, List.length_reverse]
  ring

/-- A string of bytes has a value below 256 to its length. -/
theorem valueBE_bytes_lt (bs : List Byte) : valueBE 256 bs < 256 ^ bs.length := by
  have h := Nat.ofDigits_lt_base_pow_length (b := 256) (l := bs.reverse.map BitVec.toNat) (by decide)
    (by simpa using fun x _ => x.isLt)
  rwa [← valueLE_eq_ofDigits, List.length_map, List.length_reverse] at h

/-- The bytes the width computation encodes (R192). -/
theorem valueBE_ones (k : Nat) : valueBE 256 (List.replicate k 0xFF#8) = 256 ^ k - 1 := by
  induction k with
  | zero => rfl
  | succ k ih =>
    have hpos : 0 < 256 ^ k := by positivity
    rw [List.replicate_succ, valueBE_cons, ih, List.length_replicate, BitVec.toNat_ofNat, pow_succ]
    omega

/-! ### The divmod engine and the passes of an encode inject (R130, R132) -/

theorem divmod_exact {a : Half} {n : Byte} (hn : 2 ≤ n.toNat) (ha : a.toNat < 256 * n.toNat) :
    ∃ q r : Byte, divmod a n = some (q, r) ∧ a.toNat = q.toNat * n.toNat + r.toNat ∧ r.toNat < n.toNat := by
  have hq : a.toNat / n.toNat < 256 := Nat.div_lt_of_lt_mul (by omega)
  have hr : a.toNat % n.toNat < n.toNat := Nat.mod_lt _ (by omega)
  have hn8 := n.isLt
  refine ⟨_, _, divmod_eq_some.2 ⟨⟨hn, ha⟩, rfl⟩, ?_, ?_⟩
  · rw [BitVec.toNat_ofNat, BitVec.toNat_ofNat, Nat.mod_eq_of_lt hq, Nat.mod_eq_of_lt (by omega), Nat.div_add_mod']
  · rw [BitVec.toNat_ofNat, Nat.mod_eq_of_lt (by omega)]
    exact hr

/-- The most significant digit, if there is one, is not 0. -/
def TopNonzero (ds : List Byte) : Prop := ∀ d, ds.getLast? = some d → d ≠ 0#8

theorem topNonzero_nil : TopNonzero [] := fun _ h => nomatch h

theorem topNonzero_singleton {d : Byte} : TopNonzero [d] ↔ d ≠ 0#8 := by
  simp [TopNonzero]

theorem topNonzero_cons_cons {d e : Byte} {ds : List Byte} : TopNonzero (d :: e :: ds) ↔ TopNonzero (e :: ds) := by
  simp only [TopNonzero, List.getLast?_cons_cons]

theorem topNonzero_append {ds es : List Byte} (h : es ≠ []) : TopNonzero (ds ++ es) ↔ TopNonzero es := by
  simp only [TopNonzero, List.getLast?_append_of_ne_nil _ h]

/-- The position loop multiplies the digits by 256 and adds the carry in. -/
theorem encPositions_value {n : Byte} (hn : 2 ≤ n.toNat) (c : Byte) (ds : List Byte)
    (hds : ∀ d ∈ ds, d.toNat < n.toNat) :
    ∃ rs c', encPositions n c ds = some (rs, c')
      ∧ valueLE n.toNat rs + c'.toNat * n.toNat ^ ds.length = 256 * valueLE n.toNat ds + c.toNat
      ∧ (∀ r ∈ rs, r.toNat < n.toNat)
      ∧ (c' = 0#8 → TopNonzero ds → TopNonzero rs) := by
  induction ds generalizing c with
  | nil => exact ⟨[], c, rfl, by simp [valueLE], by simp, fun _ h => h⟩
  | cons d ds ih =>
    obtain ⟨hd, hds⟩ := List.forall_mem_cons.1 hds
    have hc := c.isLt
    obtain ⟨q, r, hdiv, hval, hr⟩ := divmod_exact (a := d ++ c) hn (by rw [dividend_toNat]; omega)
    rw [dividend_toNat] at hval
    obtain ⟨rs, c', hrest, hrval, hrs, htop⟩ := ih q hds
    refine ⟨r :: rs, c', encPositions_cons.2 ⟨q, r, rs, c', hdiv, hrest, rfl⟩, ?value,
      List.forall_mem_cons.2 ⟨hr, hrs⟩, ?top⟩
    case value =>
      calc valueLE n.toNat (r :: rs) + c'.toNat * n.toNat ^ (d :: ds).length
          = r.toNat + n.toNat * (valueLE n.toNat rs + c'.toNat * n.toNat ^ ds.length) := by
            rw [valueLE, List.length_cons, pow_succ]; ring
        _ = 256 * (n.toNat * valueLE n.toNat ds) + (q.toNat * n.toNat + r.toNat) := by rw [hrval]; ring
        _ = 256 * valueLE n.toNat (d :: ds) + c.toNat := by rw [← hval, valueLE]; ring
    case top =>
      intro h0 hdtop
      have hlen := encPositions_length hrest
      match ds, rs, hlen with
      | [], [], _ =>
        obtain rfl : q = c' := by cases hrest; rfl
        rw [topNonzero_singleton] at hdtop ⊢
        rintro rfl
        rw [h0, BitVec.toNat_zero] at hval
        exact hdtop (BitVec.eq_of_toNat_eq (by rw [BitVec.toNat_zero]; omega))
      | _ :: _, _ :: _, _ => exact topNonzero_cons_cons.2 (htop h0 (topNonzero_cons_cons.1 hdtop))

/-- The append loop writes the carry out in base n: it stops early only at 0, and then on a nonzero digit. -/
theorem encAppend_value {n : Byte} (hn : 2 ≤ n.toNat) (room : Nat) (c : Byte) :
    ∃ as c', encAppend n room c = some (as, c')
      ∧ valueLE n.toNat as + c'.toNat * n.toNat ^ as.length = c.toNat
      ∧ (∀ d ∈ as, d.toNat < n.toNat)
      ∧ (c' ≠ 0#8 → as.length = room)
      ∧ (c' = 0#8 → TopNonzero as) := by
  induction room generalizing c with
  | zero => exact ⟨[], c, rfl, by simp [valueLE], by simp, fun _ => rfl, fun _ => topNonzero_nil⟩
  | succ room ih =>
    by_cases hc : c = 0#8
    · subst hc
      exact ⟨[], 0#8, by simp, rfl, by simp, fun h => absurd rfl h, fun _ => topNonzero_nil⟩
    · have hc8 := c.isLt
      obtain ⟨q, r, hdiv, hval, hr⟩ :=
        divmod_exact (a := 0#8 ++ c) hn (by rw [dividend_toNat, BitVec.toNat_zero]; omega)
      rw [dividend_toNat, BitVec.toNat_zero, Nat.zero_mul, Nat.zero_add] at hval
      obtain ⟨as, c', hrest, haval, has, hfull, htop⟩ := ih q
      refine ⟨r :: as, c', (encAppend_succ hc).2 ⟨q, r, as, c', hdiv, hrest, rfl⟩, ?value,
        List.forall_mem_cons.2 ⟨hr, has⟩, fun h => by rw [List.length_cons, hfull h], ?top⟩
      case value =>
        calc valueLE n.toNat (r :: as) + c'.toNat * n.toNat ^ (r :: as).length
            = n.toNat * (valueLE n.toNat as + c'.toNat * n.toNat ^ as.length) + r.toNat := by
              rw [valueLE, List.length_cons, pow_succ]; ring
          _ = c.toNat := by rw [haval, hval]; ring
      case top =>
        intro h0
        cases as with
        | nil =>
          have hq : q.toNat = 0 := by simpa [valueLE, h0] using haval.symm
          rw [hq, Nat.zero_mul, Nat.zero_add] at hval
          rwa [topNonzero_singleton, ← BitVec.eq_of_toNat_eq hval]
        | cons a as => exact topNonzero_cons_cons.2 (htop h0)

/-- R133 (a) to (c): what one encode inject does to the value, the range and the minimality of the digits held. -/
theorem encDigits_value {n : Byte} (hn : 2 ≤ n.toNat) (b : Byte) (room : Nat) (ds : List Byte)
    (hds : ∀ d ∈ ds, d.toNat < n.toNat) :
    ∃ ds' c, encDigits n b room ds = some (ds', c)
      ∧ valueLE n.toNat ds' + c.toNat * n.toNat ^ ds'.length = 256 * valueLE n.toNat ds + b.toNat
      ∧ (∀ d ∈ ds', d.toNat < n.toNat)
      ∧ (c ≠ 0#8 → ds'.length = ds.length + room)
      ∧ (c = 0#8 → TopNonzero ds → TopNonzero ds') := by
  obtain ⟨rs, q, hpos, hrval, hrs, hrtop⟩ := encPositions_value hn b ds hds
  obtain ⟨as, c, happ, haval, has, hfull, hatop⟩ := encAppend_value hn room q
  have hlen : rs.length = ds.length := encPositions_length hpos
  refine ⟨rs ++ as, c, encDigits_eq_some.2 ⟨rs, q, as, c, hpos, happ, rfl⟩, ?value,
    List.forall_mem_append.2 ⟨hrs, has⟩, fun h => by rw [List.length_append, hlen, hfull h], ?top⟩
  case value =>
    calc valueLE n.toNat (rs ++ as) + c.toNat * n.toNat ^ (rs ++ as).length
        = valueLE n.toNat rs + n.toNat ^ ds.length * (valueLE n.toNat as + c.toNat * n.toNat ^ as.length) := by
          rw [valueLE_append, List.length_append, hlen, pow_add]; ring
      _ = 256 * valueLE n.toNat ds + b.toNat := by rw [haval, ← hrval, Nat.mul_comm]
  case top =>
    intro h0 htop
    cases as with
    | nil =>
      have hq : q = 0#8 := BitVec.eq_of_toNat_eq (by simpa [valueLE, h0] using haval.symm)
      rw [List.append_nil]
      exact hrtop hq htop
    | cons a as => exact (topNonzero_append (List.cons_ne_nil a as)).2 (hatop h0)

/-! ### Minimal digits -/

/-- The bytes are the base-`base` digits of `v`, least significant first and with no leading zero digit. -/
def MinimalDigits (base v : Nat) (ds : List Byte) : Prop := ds.map BitVec.toNat = Nat.digits base v

section
variable {base v : Nat} {ds : List Byte}

theorem minimalDigits_of_topNonzero (hbase : 2 ≤ base) (hds : ∀ d ∈ ds, d.toNat < base) (htop : TopNonzero ds) :
    MinimalDigits base (valueLE base ds) ds := by
  rw [MinimalDigits, valueLE_eq_ofDigits, Nat.digits_ofDigits base hbase _ (by simpa using hds)]
  intro hne
  have hne' : ds ≠ [] := by simpa using hne
  have hlast := htop _ (List.getLast?_eq_some_getLast hne')
  rw [List.getLast_map]
  exact fun h => hlast (BitVec.eq_of_toNat_eq h)

theorem MinimalDigits.length (h : MinimalDigits base v ds) : ds.length = (Nat.digits base v).length := by
  rw [← h, List.length_map]

theorem MinimalDigits.value (h : MinimalDigits base v ds) : valueLE base ds = v := by
  rw [valueLE_eq_ofDigits, h, Nat.ofDigits_digits]

theorem MinimalDigits.lt (hbase : 2 ≤ base) (h : MinimalDigits base v ds) : ∀ d ∈ ds, d.toNat < base := fun _ hd =>
  Nat.digits_lt_base hbase (h ▸ List.mem_map_of_mem hd)

theorem MinimalDigits.topNonzero (h : MinimalDigits base v ds) : TopNonzero ds := by
  intro d hd h0
  have hlast : (Nat.digits base v).getLast? = some 0 := by rw [← h, List.getLast?_map, hd, h0]; rfl
  have hv : v ≠ 0 := by rintro rfl; simp at hlast
  rw [List.getLast?_eq_some_getLast (Nat.digits_ne_nil_iff_ne_zero.2 hv), Option.some.injEq] at hlast
  exact Nat.getLast_digit_ne_zero base hv hlast

end

/-- An inject takes the minimal digits of v to those of 256 × v + b, if there is room for them (R133). -/
theorem encDigits_minimal {n : Byte} (hn : 2 ≤ n.toNat) {b : Byte} {room v : Nat} {ds : List Byte}
    (h : MinimalDigits n.toNat v ds) (hroom : 256 * v + b.toNat < n.toNat ^ (ds.length + room)) :
    ∃ ds', encDigits n b room ds = some (ds', 0#8) ∧ MinimalDigits n.toNat (256 * v + b.toNat) ds' := by
  obtain ⟨ds', c, henc, hval, hlt, hfull, htop⟩ := encDigits_value hn b room ds (h.lt hn)
  rw [h.value] at hval
  obtain rfl : c = 0#8 := by
    by_contra hc
    have hpos : 1 ≤ c.toNat := Nat.one_le_iff_ne_zero.2 fun h0 => hc (BitVec.eq_of_toNat_eq h0)
    have hge := Nat.mul_le_mul_right (n.toNat ^ ds'.length) hpos
    rw [hfull hc] at hge hval
    omega
  have hmin := minimalDigits_of_topNonzero hn hlt (htop rfl h.topNonzero)
  rw [BitVec.toNat_zero, Nat.zero_mul, Nat.add_zero] at hval
  exact ⟨ds', henc, hval ▸ hmin⟩

/-! ### Blocks read back -/

/-- Elements 0 to k − 1 as a list, from what each of them is. -/
theorem elems_eq_of_getElem {s : State} {b : Buf} {vs : List Byte} {k : Nat} (hk : vs.length = k)
    (h : ∀ i (hi : i < vs.length), s.elem b i = vs[i]) : s.elems b k = vs :=
  List.ext_getElem (by rw [elems_length, hk]) fun i _ hi => by rw [elems_getElem, h i hi]

theorem elems_store (s : State) (b : Buf) (vs : List Byte) :
    ({ s with mem := s.mem.store b.base vs } : State).elems b vs.length = vs :=
  elems_eq_of_getElem rfl fun _ hi => read_store_inside hi

/-- A whole reversed block, from what each element is. -/
theorem elems_eq_reverse {s t : State} {b : Buf} {k : Nat} (h : ∀ i < k, t.elem b i = s.elem b (k - 1 - i)) :
    t.elems b k = (s.elems b k).reverse := by
  refine elems_eq_of_getElem (by simp) fun i hi => ?_
  have hik : i < k := by simpa using hi
  rw [List.getElem_reverse, elems_getElem, h i hik, elems_length]

/-- Elements that are zero at and beyond `j` are zero digits behind the first `j`. -/
theorem elems_append_zeros {s : State} {b : Buf} {j k : Nat} (hjk : j ≤ k) (h : ∀ i < k, j ≤ i → s.elem b i = 0#8) :
    s.elems b k = s.elems b j ++ List.replicate (k - j) 0#8 := by
  refine elems_eq_of_getElem (by simp; omega) fun i hi => ?_
  simp only [List.length_append, elems_length, List.length_replicate] at hi
  rw [List.getElem_append]
  split
  case isTrue hij => rw [elems_getElem]
  case isFalse hij =>
    rw [elems_length] at hij
    rw [List.getElem_replicate, h i (by omega) (by omega)]

/-- What a block reversal leaves (R11). -/
theorem reverseElems_leaves {b : Buf} {k : Nat} {s : State} (hk : k ≤ b.size s.cfg) :
    ∃ m, reverseElems b k s = .ok { s with mem := m }
      ∧ (∀ i < k, m.read (b.base + i) = s.elem b (k - 1 - i)) ∧ SameOutside b k s.mem m := by
  refine ⟨_, reverseElems_ok.2 ⟨hk, rfl⟩, fun i hi => ?_, fun a ha => ?_⟩
  · rw [read_store_inside (by simpa using hi), List.getElem_reverse, elems_getElem, elems_length]
  · rw [read_store_outside (by simpa using ha)]

/-- What the mapping of digits to characters leaves (R137): SB and SLEN written, and nothing else. -/
theorem mapDigits_leaves {k : Half} {s : State} (hk : k.toNat ≤ s.cfg.cmax)
    (hd : ∀ i < k.toNat, (s.elem .db i).toNat < 255) :
    ∃ m, mapDigits k s = .ok { s with slen := k, mem := m }
      ∧ (∀ i < k.toNat, m.read (0x3000 + i) = s.elem .fwd (s.elem .db i).toNat)
      ∧ SameOutside .sb k.toNat s.mem m := by
  refine ⟨_, mapDigits_ok.2 ⟨hk, hd, rfl⟩, fun i hi => ?_, fun a ha => ?_⟩
  · rw [read_store_inside (by simpa using hi), List.getElem_map, elems_getElem]
  · rw [read_store_outside (by simpa [Buf.base] using ha)]

/-! ### The digit buffer as an accumulator -/

/-- DB[0..DLEN−1] holds the minimal base-N digits of `v`, least significant first, with zero digits beyond and no carry
left: the accumulator of R132 at the value `v`. -/
structure Accumulates (s : State) (v : Nat) : Prop where
  minimal : MinimalDigits s.n.toNat v (s.elems .db s.dlen.toNat)
  carry : s.carry = 0#8
  room : s.dlen.toNat ≤ s.cfg.cmax
  padded : s.DigitsPadded

section
variable {s : State} {v : Nat}

theorem Accumulates.dlen_eq (h : Accumulates s v) : s.dlen.toNat = (Nat.digits s.n.toNat v).length := by
  rw [← h.minimal.length, elems_length]

/-- Every element of DB is a digit: those beyond DLEN are 0. -/
theorem Accumulates.lt (hn : 2 ≤ s.n.toNat) (h : Accumulates s v) {i : Nat} (hi : i < s.cfg.cmax) :
    (s.elem .db i).toNat < s.n.toNat := by
  by_cases hlen : i < s.dlen.toNat
  · exact h.minimal.lt hn _ (mem_elems.2 ⟨i, hlen, rfl⟩)
  · rw [h.padded i hi (by omega), BitVec.toNat_zero]
    omega

/-- Read with padding up to any length, the accumulator has the same value. -/
theorem Accumulates.value (h : Accumulates s v) {k : Nat} (hlen : s.dlen.toNat ≤ k) (hk : k ≤ s.cfg.cmax) :
    valueLE s.n.toNat (s.elems .db k) = v := by
  rw [elems_append_zeros hlen fun i hi => h.padded i (by omega), valueLE_append_zeros, h.minimal.value]

theorem Accumulates.top_ne_zero (h : Accumulates s v) (hlen : s.dlen.toNat ≠ 0) :
    s.elem .db (s.dlen.toNat - 1) ≠ 0#8 := by
  refine h.minimal.topNonzero _ ?_
  rw [List.getLast?_eq_getElem?, elems_length, List.getElem?_eq_getElem (by rw [elems_length]; omega), elems_getElem]

/-- A clear digit buffer accumulates 0. -/
theorem clearDigits_accumulates (hc : s.carry = 0#8) : Accumulates (clearDigits s) 0 where
  minimal := by simp [MinimalDigits, State.elems]
  carry := hc
  room := Nat.zero_le _
  padded := fun i hi _ => by
    rw [State.elem, read_clearDigits, if_pos]
    exact ⟨Nat.le_add_right _ _, Nat.add_lt_add_left hi _⟩

/-- One encode inject takes the accumulator from v to 256 × v + b, as long as that fits CMAX digits (R132, R133). -/
theorem encInject_accumulates (hn : 2 ≤ s.n.toNat) (h : Accumulates s v) {b : Byte}
    (hfit : 256 * v + b.toNat < s.n.toNat ^ s.cfg.cmax) :
    ∃ t, encInject b s = .ok t ∧ Accumulates t (256 * v + b.toNat) := by
  have hroom := h.room
  obtain ⟨ds, henc, hmin⟩ := encDigits_minimal hn h.minimal (room := s.cfg.cmax - s.dlen.toNat)
    (by rwa [elems_length, Nat.add_sub_cancel' hroom])
  have hbounds := encDigits_length henc
  simp only [elems_length] at hbounds
  have hle : ds.length ≤ s.cfg.cmax := by omega
  have hcmax := cmax_le s.cfg
  have hlen : (BitVec.ofNat 16 ds.length).toNat = ds.length := by
    rw [BitVec.toNat_ofNat, Nat.mod_eq_of_lt (by omega)]
  refine ⟨_, encInject_ok.2 ⟨hroom, ds, 0#8, henc, rfl⟩, ?_, rfl, ?_, fun i hi hi' => ?_⟩
  · rw [hlen]
    exact (elems_store s .db ds).symm ▸ hmin
  · rwa [hlen]
  · replace hi' : ds.length ≤ i := hlen ▸ hi'
    exact (read_store_outside (b := 0x2000 + i) (by omega)).trans (h.padded i hi (by omega))

/-- A run of injects appends its bytes to the value, as long as the result fits CMAX digits. -/
theorem encInjectAll_accumulates (hn : 2 ≤ s.n.toNat) (h : Accumulates s v) {bs : List Byte}
    (hfit : v * 256 ^ bs.length + valueBE 256 bs < s.n.toNat ^ s.cfg.cmax) :
    ∃ t, encInjectAll bs s = .ok t ∧ Accumulates t (v * 256 ^ bs.length + valueBE 256 bs) := by
  induction bs generalizing s v with
  | nil => exact ⟨s, rfl, by simpa [valueBE, valueLE] using h⟩
  | cons b bs ih =>
    have hvalue : v * 256 ^ (b :: bs).length + valueBE 256 (b :: bs)
        = (256 * v + b.toNat) * 256 ^ bs.length + valueBE 256 bs := by
      rw [valueBE_cons, List.length_cons, pow_succ]; ring
    rw [hvalue] at hfit ⊢
    have hstep : 256 * v + b.toNat ≤ (256 * v + b.toNat) * 256 ^ bs.length :=
      Nat.le_mul_of_pos_right _ (by positivity)
    obtain ⟨t, ht, htv⟩ := encInject_accumulates hn h (b := b) (by omega)
    have hframe := (encInject_frame ht).1
    have htn : t.n = s.n := by rw [hframe]
    have htcfg : t.cfg = s.cfg := by rw [hframe]
    rw [← htn, ← htcfg] at hfit
    obtain ⟨u, hu, huv⟩ := ih (htn ▸ hn) htv hfit
    exact ⟨u, encInjectAll_cons.2 ⟨t, ht, hu⟩, huv⟩

end

/-! ### The capacity of the accumulator and the widths (R190 to R192) -/

/-- CMAX digits hold every value of LMAX bytes, whatever the radix. -/
theorem byteLimit_le_capacity {c : Config} {n k : Nat} (hn : 2 ≤ n) (hk : k ≤ c.lmax) : 256 ^ k ≤ n ^ c.cmax :=
  calc 256 ^ k = 2 ^ (8 * k) := by rw [pow_mul]; rfl
    _ ≤ 2 ^ c.cmax := Nat.pow_le_pow_right (by decide) (Nat.mul_le_mul_left 8 hk)
    _ ≤ n ^ c.cmax := Nat.pow_le_pow_left hn _

theorem paddedWidth_le_cmax {c : Config} {l n : Nat} (hn : 2 ≤ n) (hl : l ≤ c.lmax) : paddedWidth l n ≤ c.cmax := by
  have hcap := byteLimit_le_capacity hn hl
  have hpos : 0 < 256 ^ l := by positivity
  exact (Nat.digits_length_le_iff hn _).2 (by omega)

/-- No value of l bytes needs more digits than the padded width. -/
theorem digits_length_le_paddedWidth {l n v : Nat} (hv : v < 256 ^ l) : (Nat.digits n v).length ≤ paddedWidth l n :=
  Nat.le_length_digits_le n v _ (Nat.le_sub_one_of_lt hv)

theorem analyticBound_le {l n : Nat} (hn : 2 ≤ n) : analyticBound l n ≤ 8 * l := by
  have hlog : 1 ≤ Nat.log 2 n := Nat.log_pos (by decide) hn
  have hmul : l * 8 ≤ Nat.log 2 n * (l * 8) := Nat.le_mul_of_pos_left _ hlog
  have hlt : analyticBound l n < 8 * l + 1 := Nat.div_lt_of_lt_mul (by rw [Nat.mul_add, Nat.mul_comm 8 l]; omega)
  omega

theorem upperBound_eq_analyticBound {l n : Nat} (hn : 2 ≤ n) (hl : l ≤ 512) :
    ∃ u : Half, upperBound l n = some u ∧ u.toNat = analyticBound l n := by
  have hle := analyticBound_le (l := l) hn
  refine ⟨BitVec.ofNat 16 (analyticBound l n), ?_, by rw [BitVec.toNat_ofNat, Nat.mod_eq_of_lt (by omega)]⟩
  simp only [upperBound, if_pos (And.intro hn hl), bitwidth, Nat.add_sub_cancel, Nat.log2_eq_log_two, analyticBound,
    Nat.mul_comm 8 l]

/-! ### The runs of encode injects: BB[0..L−1] and the width computation -/

theorem encodeFrame_n {s t : State} (h : EncodeFrame s t) : t.n = s.n := by rw [h.1]

theorem encodeFrame_fwd {s t : State} (h : EncodeFrame s t) (d : Nat) : t.elem .fwd d = s.elem .fwd d := by
  have hcmax := cmax_le s.cfg
  exact h.2 (0x4000 + d) (by omega)

theorem encodeFrame_bytesBE {s t : State} (h : EncodeFrame s t) (hl : s.l.toNat ≤ s.cfg.lmax) :
    t.bytesBE = s.bytesBE := by
  have hlmax := s.cfg.lmax_le
  have hlen : t.l = s.l := by rw [h.1]
  rw [State.bytesBE, State.bytesBE, hlen]
  exact congrArg _ (elems_congr fun i hi => h.2 (0x1000 + i) (by omega))

theorem bytesBE_lt (s : State) : s.bytesBE < 256 ^ s.l.toNat := by
  have h := valueBE_bytes_lt (s.elems .bb s.l.toNat)
  rwa [elems_length] at h

theorem encodeFrame_clearDigits (s : State) : EncodeFrame s (clearDigits s) :=
  ⟨rfl, fun a ha => (read_clearDigits s a).trans (if_neg ha)⟩

/-- From a clear digit buffer, injecting at most LMAX bytes accumulates their big-endian value. -/
theorem encInjectAll_clearDigits {s : State} (hn : 2 ≤ s.n.toNat) (hc : s.carry = 0#8) {bs : List Byte}
    (hlen : bs.length ≤ s.cfg.lmax) :
    ∃ t, encInjectAll bs (clearDigits s) = .ok t ∧ EncodeFrame s t ∧ Accumulates t (valueBE 256 bs) := by
  have hcap := (valueBE_bytes_lt bs).trans_le (byteLimit_le_capacity hn hlen)
  obtain ⟨t, ht, hacc⟩ := encInjectAll_accumulates (s := clearDigits s) hn (clearDigits_accumulates hc) (bs := bs)
    (by rwa [Nat.zero_mul, Nat.zero_add])
  rw [Nat.zero_mul, Nat.zero_add] at hacc
  exact ⟨t, ht, (encodeFrame_clearDigits s).trans (encInjectAll_frame ht), hacc⟩

theorem accumulateBytes_accumulates {s : State} (hn : 2 ≤ s.n.toNat) (hl : s.l.toNat ≤ s.cfg.lmax) :
    ∃ t, accumulateBytes s = .ok t ∧ EncodeFrame s t ∧ Accumulates t s.bytesBE := by
  obtain ⟨t, ht, hframe, hacc⟩ := encInjectAll_clearDigits (s := { s with carry := 0 }) hn rfl
    (bs := s.elems .bb s.l.toNat) (by rwa [elems_length])
  exact ⟨t, accumulateBytes_ok.2 ⟨hl, ht⟩, hframe, hacc⟩

/-- The state with the width cache filled: what the width computation writes beside the accumulator (R192). -/
def withWidth (s : State) (width bound : Half) : State := { s with wvalid := true, w := width, ub := bound }

/-- The width computation leaves the digits of 256^L − 1, so DLEN, and with it W, is the padded width (R192). -/
theorem widthCompute_accumulates {s : State} (hn : 2 ≤ s.n.toNat) (hl : s.l.toNat ≤ s.cfg.lmax) :
    ∃ t, widthCompute s = .ok t ∧ EncodeFrame (withWidth s t.w t.ub) t
      ∧ t.w.toNat = paddedWidth s.l.toNat s.n.toNat ∧ t.ub.toNat = analyticBound s.l.toNat s.n.toNat
      ∧ t.dlen = t.w ∧ Accumulates t (s.byteLimit - 1) := by
  have hlmax := s.cfg.lmax_le
  obtain ⟨u, hu, hub⟩ := upperBound_eq_analyticBound hn (l := s.l.toNat) (by omega)
  obtain ⟨t, ht, hframe, hacc⟩ := encInjectAll_clearDigits (s := { s with ub := u, carry := 0 }) hn rfl
    (bs := List.replicate s.l.toNat 0xFF#8) (by rwa [List.length_replicate])
  rw [valueBE_ones] at hacc
  have hwidth : t.dlen.toNat = paddedWidth s.l.toNat s.n.toNat := by rw [hacc.dlen_eq, hframe.1]; rfl
  have htub : t.ub = u := by rw [hframe.1]
  refine ⟨_, widthCompute_ok.2 ⟨u, t, hu, ht, rfl⟩, ⟨?_, hframe.2⟩, hwidth, htub ▸ hub, rfl,
    hacc.minimal, hacc.carry, hacc.room, hacc.padded⟩
  rw [hframe.1]; rfl

/-- With the width ensured W is the padded width and UB the bound, computed or cached (R138, R41 I5). -/
theorem ensureWidth_leaves {s : State} (hn : 2 ≤ s.n.toNat) (hl : s.l.toNat ≤ s.cfg.lmax) (hw : s.WidthCacheExact) :
    ∃ t, ensureWidth s = .ok t ∧ EncodeFrame (withWidth s t.w t.ub) t
      ∧ t.w.toNat = paddedWidth s.l.toNat s.n.toNat ∧ t.ub.toNat = analyticBound s.l.toNat s.n.toNat := by
  cases hv : s.wvalid with
  | true =>
    obtain ⟨-, hwidth, hub, -⟩ := hw.1 hv
    have hsame : withWidth s s.w s.ub = s := by rw [withWidth, ← hv]
    exact ⟨s, ensureWidth_ok.2 (.inl ⟨hv, rfl⟩), hsame ▸ .refl _, hwidth, hub⟩
  | false =>
    obtain ⟨t, ht, hframe, hwidth, hub, -⟩ := widthCompute_accumulates hn hl
    exact ⟨t, ensureWidth_ok.2 (.inr ⟨hv, ht⟩), hframe, hwidth, hub⟩

/-! ### The text of an accumulator -/

/-- The k-digit text of `v` in DB and SB, most significant digit first: what both encodes leave. -/
structure LeavesText (s : State) (v : Nat) (k : Half) (m : Memory) : Prop where
  value : ({ s with dlen := k, mem := m } : State).digitsBE = v
  digit_lt : ∀ i < k.toNat, (m.read (0x2000 + i)).toNat < s.n.toNat
  zeros : ∀ i, k.toNat ≤ i → i < s.cfg.cmax → m.read (0x2000 + i) = 0#8
  spelled : ∀ i < k.toNat, m.read (0x3000 + i) = s.elem .fwd (m.read (0x2000 + i)).toNat
  frame : ∀ a, ¬ Buf.db.Within s.cfg.cmax a → ¬ Buf.sb.Within k.toNat a → m.read a = s.mem.read a

/-- From an accumulator at `v`, reversing and mapping k ≥ DLEN digits leaves the k-digit text of `v`. -/
theorem reverse_map_leavesText {s b : State} {v : Nat} {k : Half} (hn : 2 ≤ s.n.toNat) (hn' : s.n.toNat ≤ 255)
    (hframe : EncodeFrame s b) (hacc : Accumulates b v) (hlen : b.dlen.toNat ≤ k.toNat) (hk : k.toNat ≤ s.cfg.cmax) :
    ∃ m₁ m, reverseElems .db k.toNat { b with dlen := k } = .ok { b with dlen := k, mem := m₁ }
      ∧ mapDigits k { b with dlen := k, mem := m₁ } = .ok { s with carry := 0, dlen := k, slen := k, mem := m }
      ∧ LeavesText s v k m ∧ ∀ i < k.toNat, m.read (0x2000 + i) = b.elem .db (k.toNat - 1 - i) := by
  have hcmax := cmax_le s.cfg
  have hbn := encodeFrame_n hframe
  have hbcfg := hframe.cfg
  have hbk : k.toNat ≤ b.cfg.cmax := hbcfg ▸ hk
  obtain ⟨m₁, hrev, hdb₁, hsame₁⟩ := reverseElems_leaves (b := .db) (s := { b with dlen := k }) hbk
  replace hdb₁ : ∀ i < k.toNat, m₁.read (0x2000 + i) = b.elem .db (k.toNat - 1 - i) := hdb₁
  have hlt₁ : ∀ i < k.toNat, (m₁.read (0x2000 + i)).toNat < s.n.toNat := fun i hi => by
    rw [hdb₁ i hi, ← hbn]
    exact hacc.lt (hbn ▸ hn) (by omega)
  obtain ⟨m, hmap, hsb, hsame⟩ := mapDigits_leaves (s := { b with dlen := k, mem := m₁ }) hbk
    fun i hi => (hlt₁ i hi).trans_le hn'
  have hkeep : ∀ i < s.cfg.cmax, m.read (0x2000 + i) = m₁.read (0x2000 + i) := fun i hi =>
    hsame _ (by simp only [Buf.Within, Buf.base]; omega)
  have hdb : ∀ i < k.toNat, m.read (0x2000 + i) = b.elem .db (k.toNat - 1 - i) := fun i hi => by
    rw [hkeep i (by omega), hdb₁ i hi]
  have hbase : ∀ a, ¬ Buf.db.Within k.toNat a → m₁.read a = b.mem.read a := hsame₁
  refine ⟨m₁, m, hrev, ?state, ⟨?value, fun i hi => ?lt, fun i hi hi' => ?zeros, fun i hi => ?spelled,
    fun a hdba hsba => ?frame⟩, hdb⟩
  case state => rw [hmap, hframe.1, hacc.carry]; rfl
  case value =>
    have helems : ({ s with dlen := k, mem := m } : State).elems .db k.toNat = (b.elems .db k.toNat).reverse :=
      elems_eq_reverse hdb
    rw [State.digitsBE, helems, valueBE, List.reverse_reverse]
    exact hbn ▸ hacc.value hlen hbk
  case lt => rw [hkeep i (by omega)]; exact hlt₁ i hi
  case zeros =>
    rw [hkeep i hi', hbase _ (by simp only [Buf.Within, Buf.base]; omega)]
    exact hacc.padded i (hbcfg ▸ hi') (by omega)
  case spelled =>
    rw [hkeep i (by omega), ← encodeFrame_fwd hframe]
    exact (hsb i hi).trans (hbase _ (by simp only [Buf.Within, Buf.base]; omega))
  case frame =>
    rw [hsame a hsba, hbase a fun h => hdba ⟨h.1, by omega⟩, hframe.2 a hdba]

/-- The text does not depend on the width cache. -/
theorem LeavesText.of_withWidth {s : State} {width bound k : Half} {v : Nat} {m : Memory}
    (h : LeavesText (withWidth s width bound) v k m) : LeavesText s v k m :=
  ⟨h.value, h.digit_lt, h.zeros, h.spelled, h.frame⟩

/-! ### The two encodes (R138, R139) -/

section
variable {s : State} (hinv : s.Inv) (ha : s.avalid = true)
include hinv ha

/-- The radix of an alphabet held (R41 I4). -/
theorem radix_bounds : 2 ≤ s.n.toNat ∧ s.n.toNat ≤ 255 := by
  obtain ⟨-, -, -, halpha, -, -⟩ := hinv
  obtain ⟨-, ⟨hn, -⟩, -⟩ := halpha ha
  exact hn

theorem execEncf_leavesText :
    ∃ m width bound, execEncf s = .next { s with
          wvalid := true, w := width, ub := bound, carry := 0, dlen := width, slen := width, err := .ok, mem := m }
      ∧ width.toNat = paddedWidth s.l.toNat s.n.toNat ∧ bound.toNat = analyticBound s.l.toNat s.n.toNat
      ∧ LeavesText s s.bytesBE width m := by
  obtain ⟨hn, hn'⟩ := radix_bounds hinv ha
  obtain ⟨-, -, -, -, hcache, hl, -⟩ := hinv
  obtain ⟨a, hwidth, hframe, hw, hub⟩ := ensureWidth_leaves hn hl hcache
  obtain ⟨b, hbytes, hframe', hacc⟩ := accumulateBytes_accumulates (s := a) (encodeFrame_n hframe ▸ hn)
    (by rw [hframe.1]; exact hl)
  have hbw : b.w = a.w := by rw [hframe'.1]
  rw [encodeFrame_bytesBE hframe hl] at hacc
  replace hframe := hframe.trans hframe'
  have hlen : b.dlen.toNat ≤ a.w.toNat := by
    rw [hacc.dlen_eq, hw, encodeFrame_n hframe]
    exact digits_length_le_paddedWidth (bytesBE_lt s)
  obtain ⟨m₁, m, hrev, hmap, htext, -⟩ := reverse_map_leavesText (s := withWidth s a.w a.ub) hn hn' hframe hacc hlen
    (hw ▸ paddedWidth_le_cmax hn hl)
  rw [← hbw] at hrev hmap
  refine ⟨m, a.w, a.ub, execEncf_next.2 (.inl ⟨ha, a, hwidth, b, hbytes, _, hrev, _, hmap, ?_⟩), hw, hub,
    htext.of_withWidth⟩
  rw [hbw]; rfl

theorem execEncm_leavesText :
    ∃ m len, execEncm s = .next { s with carry := 0, dlen := len, slen := len, err := .ok, mem := m }
      ∧ len.toNat = (Nat.digits s.n.toNat s.bytesBE).length ∧ len.toNat ≤ s.cfg.cmax
      ∧ LeavesText s s.bytesBE len m ∧ (len ≠ 0#16 → m.read 0x2000 ≠ 0#8) := by
  obtain ⟨hn, hn'⟩ := radix_bounds hinv ha
  obtain ⟨-, -, -, -, -, hl, -⟩ := hinv
  obtain ⟨b, hbytes, hframe, hacc⟩ := accumulateBytes_accumulates hn hl
  have hlen : b.dlen.toNat ≤ s.cfg.cmax := hframe.cfg ▸ hacc.room
  obtain ⟨m₁, m, hrev, hmap, htext, hdb⟩ := reverse_map_leavesText hn hn' hframe hacc (Nat.le_refl _) hlen
  refine ⟨m, b.dlen, execEncm_next.2 (.inl ⟨ha, b, hbytes, _, hrev, _, hmap, rfl⟩), ?_, hlen, htext, fun hne => ?_⟩
  · rw [hacc.dlen_eq, encodeFrame_n hframe]
  · have hpos : b.dlen.toNat ≠ 0 := fun h0 => hne (BitVec.eq_of_toNat_eq h0)
    have htop := hacc.top_ne_zero hpos
    rwa [← Nat.sub_zero (b.dlen.toNat - 1), ← hdb 0 (by omega)] at htop

end

/-! ### The obligations -/

/-- Settles O40: the width is exact in both cases of the cache, and no value of L bytes needs more digits. -/
theorem encfWritesPaddedText : Obligations.EncfWritesPaddedText := by
  refine ⟨rfl, fun s ha => execEncf_next.2 (.inr ⟨ha, rfl⟩), fun s hinv ha => ?_⟩
  obtain ⟨m, width, bound, hexec, hwidth, hbound, htext⟩ := execEncf_leavesText hinv ha
  exact ⟨m, width, bound, hexec, hwidth, hbound, htext.value, htext.digit_lt, htext.zeros, htext.spelled, htext.frame⟩

/-- Settles O41: the accumulator is minimal, so its top digit, reversed to the front, is not 0. -/
theorem encmWritesMinimalText : Obligations.EncmWritesMinimalText := by
  refine ⟨rfl, fun s ha => execEncm_next.2 (.inr ⟨ha, rfl⟩), fun s hinv ha => ?_⟩
  obtain ⟨m, len, hexec, -, hlen, htext, htop⟩ := execEncm_leavesText hinv ha
  exact ⟨m, len, hexec, hlen, htext.value, htop, htext.digit_lt, htext.zeros, htext.spelled, htext.frame⟩

/-- Settles O30: under the contract quotient and remainder fit 8 bits, so the ports narrow nothing. -/
theorem divmodExactWithinContract : Obligations.DivmodExactWithinContract := fun _ _ => divmod_exact

/-- Settles O38: DREV is one block reversal. -/
theorem drevReversesDigits : Obligations.DrevReversesDigits := by
  refine ⟨rfl, fun s hs => ?_⟩
  obtain ⟨m, hrev, hread, hsame⟩ := reverseElems_leaves (b := .db) hs
  refine ⟨m, ?_, hread, hsame⟩
  rw [exec, execDrev, hrev]
  rfl

/-- Settles O39: every digit of DB is below N ≤ 255, so it has a character. -/
theorem dmapMapsDigits : Obligations.DmapMapsDigits := by
  refine ⟨rfl, fun s ha => execDmap_next.2 (.inr ⟨ha, rfl⟩), fun s hdigits ⟨_, hlen, _⟩ ha => ?_⟩
  have hn := s.n.isLt
  obtain ⟨m, hmap, hread, hsame⟩ := mapDigits_leaves hlen fun i hi => by
    have hdigit := hdigits ha i (by omega)
    omega
  exact ⟨m, execDmap_next.2 (.inl ⟨ha, _, hmap, rfl⟩), hread, hsame⟩

/-- Settles O36: the next state is `finish (clearDigits s)`. -/
theorem dclrClearsDigits : Obligations.DclrClearsDigits := by
  refine ⟨rfl, fun s => ⟨(clearDigits s).mem, rfl, fun i hi => ?_, fun a ha => ?_⟩⟩
  · rw [read_clearDigits, if_pos (by rw [db_within_iff]; omega)]
  · rw [read_clearDigits, if_neg ha]

end Sys2Proof.Machine.ByteToDigit

/-! PROOFS. The digit-to-byte commands of one step (42_decode.md): the multiply-accumulate unit, the pass of a decode
inject over a list of bytes, and the commands BCLR, DINJ and BREV. The pass loses nothing, so new value plus carry times
256^L is V × N + d; as the new value fits L bytes, they are remainder and quotient by 256^L. Settles
MacExactAndCarryBounded, DecodeInjectLaws, DinjInjectsDigit, BrevReversesBytes and BclrClearsBytes. -/

namespace Sys2Proof.Machine.DigitToByte

open Sys2Proof.Machine.Configuration Sys2Proof.Machine.ByteToDigit

/-! ### The multiply-accumulate unit (R160, R161) -/

/-- The largest result is 255 × 255 + 255, so the carry byte narrows nothing. -/
theorem mac_carry_toNat (b n c : Byte) : (mac b n c).2.toNat = (b.toNat * n.toNat + c.toNat) / 256 := by
  have hprod : b.toNat * n.toNat ≤ 255 * 255 := Nat.mul_le_mul (by omega) (by omega)
  rw [mac, BitVec.toNat_ofNat, Nat.mod_eq_of_lt (by omega)]

theorem mac_exact (b n c : Byte) :
    (mac b n c).1.toNat + 256 * (mac b n c).2.toNat = b.toNat * n.toNat + c.toNat := by
  rw [mac_carry_toNat, mac, BitVec.toNat_ofNat, Nat.mod_mod]
  exact Nat.mod_add_div _ _

theorem mac_carry_lt {b n c : Byte} (hc : c.toNat < n.toNat) : (mac b n c).2.toNat < n.toNat := by
  rw [mac_carry_toNat]
  refine Nat.div_lt_of_lt_mul ?_
  calc b.toNat * n.toNat + c.toNat
      < b.toNat * n.toNat + n.toNat := Nat.add_lt_add_left hc _
    _ = (b.toNat + 1) * n.toNat := (Nat.succ_mul _ _).symm
    _ ≤ 256 * n.toNat := Nat.mul_le_mul_right _ b.isLt

/-! ### The pass of a decode inject (R162, R163) -/

theorem decBytes_carry_lt {n d : Byte} (bs : List Byte) (hd : d.toNat < n.toNat) :
    (decBytes n d bs).2.toNat < n.toNat := by
  induction bs generalizing d with
  | nil => exact hd
  | cons b bs ih => exact ih (mac_carry_lt hd)

/-- The pass multiplies the bytes by the radix and adds the carry in, losing nothing. -/
theorem decBytes_value (n d : Byte) (bs : List Byte) :
    valueLE 256 (decBytes n d bs).1 + (decBytes n d bs).2.toNat * 256 ^ bs.length
      = valueLE 256 bs * n.toNat + d.toNat := by
  induction bs generalizing d with
  | nil => simp [decBytes, valueLE]
  | cons b bs ih =>
    have hrest := ih (mac b n d).2
    have hunit := mac_exact b n d
    rw [decBytes_cons, valueLE, valueLE, List.length_cons, pow_succ]
    linear_combination 256 * hrest + hunit

/-- Bytes have a value below 256 to their number, least significant byte first too. -/
theorem valueLE_bytes_lt (bs : List Byte) : valueLE 256 bs < 256 ^ bs.length := by
  simpa [valueBE] using valueBE_bytes_lt bs.reverse

theorem decBytes_carry_eq_div (n d : Byte) (bs : List Byte) :
    (decBytes n d bs).2.toNat = (valueLE 256 bs * n.toNat + d.toNat) / 256 ^ bs.length := by
  have hfits := valueLE_bytes_lt (decBytes n d bs).1
  rw [decBytes_length] at hfits
  rw [← decBytes_value, Nat.add_mul_div_right _ _ (by positivity), Nat.div_eq_of_lt hfits, Nat.zero_add]

theorem decBytes_bytes_eq_mod (n d : Byte) (bs : List Byte) :
    valueLE 256 (decBytes n d bs).1 = (valueLE 256 bs * n.toNat + d.toNat) % 256 ^ bs.length := by
  have hfits := valueLE_bytes_lt (decBytes n d bs).1
  rw [decBytes_length] at hfits
  rw [← decBytes_value, Nat.add_mul_mod_self_right, Nat.mod_eq_of_lt hfits]

/-- No carry is left exactly when the result fits the bytes. -/
theorem decBytes_carry_eq_zero_iff (n d : Byte) (bs : List Byte) :
    (decBytes n d bs).2 = 0#8 ↔ valueLE 256 bs * n.toNat + d.toNat < 256 ^ bs.length := by
  have hpos : 256 ^ bs.length ≠ 0 := by positivity
  rw [← BitVec.toNat_inj, decBytes_carry_eq_div, BitVec.toNat_zero, Nat.div_eq_zero_iff, or_iff_right hpos]

/-! ### The commands on the state -/

/-- What a decode inject leaves in the byte buffer and the carry (R162, R163). -/
theorem decInject_leaves {s : State} (d : Byte) (hl : s.l.toNat ≤ s.cfg.lmax) :
    ∃ m c, decInject d s = .ok { s with mem := m, carry := c }
      ∧ ({ s with mem := m } : State).bytesLE = (s.bytesLE * s.n.toNat + d.toNat) % s.byteLimit
      ∧ c.toNat = (s.bytesLE * s.n.toNat + d.toNat) / s.byteLimit
      ∧ (c = 0#8 ↔ s.bytesLE * s.n.toNat + d.toNat < s.byteLimit)
      ∧ (d.toNat < s.n.toNat → c.toNat < s.n.toNat)
      ∧ SameOutside .bb s.l.toNat s.mem m := by
  refine ⟨_, _, decInject_ok.2 ⟨hl, rfl⟩, ?_, ?_, ?_, decBytes_carry_lt _, fun a ha => ?_⟩
  · have hback := elems_store s .bb (decBytes s.n d (s.elems .bb s.l.toNat)).1
    have hmod := decBytes_bytes_eq_mod s.n d (s.elems .bb s.l.toNat)
    rw [decBytes_length, elems_length] at hback
    rw [elems_length, ← hback] at hmod
    exact hmod
  · simpa [State.bytesLE, State.byteLimit] using decBytes_carry_eq_div s.n d (s.elems .bb s.l.toNat)
  · simpa [State.bytesLE, State.byteLimit] using decBytes_carry_eq_zero_iff s.n d (s.elems .bb s.l.toNat)
  · exact read_store_outside (by simpa [Buf.base] using ha)

theorem read_restoreBuf_bb (s : State) (a : Nat) :
    (restoreBuf .bb s).mem.read a = if Buf.bb.Within s.cfg.lmax a then 0#8 else s.mem.read a := by
  have hlmax := size_le_window s.cfg .bb
  rw [restoreBuf_mem, read_restore]
  refine ite_congr rfl (fun h => ?_) fun _ => rfl
  have hwindow : 0x1000 ≤ a ∧ a < 0x1000 + s.cfg.lmax := h
  rw [Memory.unlisted, if_neg (by simp only [Buf.size] at hlmax; omega)]

/-! ### The obligations -/

/-- Settles O45: DINJ is one decode inject of a digit below N, whose carry decides the outcome. -/
theorem dinjInjectsDigit : Obligations.DinjInjectsDigit := by
  refine ⟨fun d hd => encode_toNat (i := .dinj d) hd, fun d s ha => execDinj_next.2 (.inl ⟨ha, rfl⟩),
    fun d s ha hd => execDinj_next.2 (.inr (.inl ⟨ha, hd, rfl⟩)), fun d s ha hd hl => ?_⟩
  have hdigit : (BitVec.ofNat 8 d).toNat = d := by
    rw [BitVec.toNat_ofNat, Nat.mod_eq_of_lt (by omega)]
  obtain ⟨m, c, hinject, hbytes, hcarry, hzero, hlt, hsame⟩ := decInject_leaves (BitVec.ofNat 8 d) hl
  rw [hdigit] at hbytes hcarry hzero hlt
  refine ⟨m, c, if c = 0#8 then .ok else .overflow,
    execDinj_next.2 (.inr (.inr ⟨ha, hd, _, hinject, ?_⟩)), hbytes, hcarry, fun hfits => ?_, fun hover => ?_, hsame⟩
  · by_cases hc : c = 0#8 <;> simp [hc, fail, finish]
  · have hc := hzero.2 hfits
    exact ⟨if_pos hc, hc⟩
  · have hc : c ≠ 0#8 := fun hc => Nat.not_lt.2 hover (hzero.1 hc)
    have hpos : c.toNat ≠ 0 := fun h => hc (BitVec.eq_of_toNat_eq h)
    have hbound := hlt hd
    exact ⟨if_neg hc, by omega, by omega⟩

/-- Settles O34: exactness of the pass with a new value below 256^L makes it a division with remainder. -/
theorem decodeInjectLaws : Obligations.DecodeInjectLaws := fun n d bs _ =>
  ⟨decBytes_length n d bs, decBytes_value n d bs, decBytes_carry_eq_div n d bs, decBytes_bytes_eq_mod n d bs,
    decBytes_carry_eq_zero_iff n d bs⟩

/-- Settles O31: b × n + c with c < n is below 256 × n, and the carries of a pass are carries of the unit. -/
theorem macExactAndCarryBounded : Obligations.MacExactAndCarryBounded :=
  ⟨mac_exact, fun _ _ _ => mac_carry_lt, fun _ _ bs => decBytes_carry_lt bs⟩

/-- Settles O46: BREV is one block reversal. -/
theorem brevReversesBytes : Obligations.BrevReversesBytes := by
  refine ⟨rfl, fun s hl => ?_⟩
  obtain ⟨m, hrev, hread, hsame⟩ := reverseElems_leaves (b := .bb) hl
  refine ⟨m, ?_, hread, hsame⟩
  rw [exec, execBrev, hrev]
  rfl

/-- Settles O44: the next state is `finish (restoreBuf .bb s)`. -/
theorem bclrClearsBytes : Obligations.BclrClearsBytes := by
  refine ⟨rfl, fun s => ⟨(restoreBuf .bb s).mem, rfl, fun i hi => ?_, fun a ha => ?_⟩⟩
  · rw [read_restoreBuf_bb, if_pos ⟨Nat.le_add_right _ _, Nat.add_lt_add_left hi _⟩]
  · rw [read_restoreBuf_bb, if_neg ha]

end Sys2Proof.Machine.DigitToByte

/-! PROOFS. The length command (43_length.md): the analytic bound, what PWIDTH leaves, and the laws of the width. Each of
the three numbers is the least of something, so each is known by the numbers it is at most: bitwidth(n) ≤ k means
n < 2^k, the bound is at most w when 8 × L ≤ floor(log2(N)) × w, and the padded width is at most w when 256^L ≤ N^w. The
laws are read off these. Settles UpperBoundIsCeiling, PwidthMeasuresPaddedWidth and WidthLaws. -/

namespace Sys2Proof.Machine.Length

open Sys2Proof.Machine.ByteToDigit

/-! ### The bit width and the analytic bound (R190, R191) -/

theorem bitwidth_le_iff {n k : Nat} (hn : n ≠ 0) : bitwidth n ≤ k ↔ n < 2 ^ k := Nat.log2_lt hn

theorem bitwidth_sub_one (n : Nat) : bitwidth n - 1 = Nat.log 2 n := by
  rw [bitwidth, Nat.add_sub_cancel, Nat.log2_eq_log_two]

theorem analyticBound_eq_ceilDiv (l n : Nat) : analyticBound l n = (l * 8) ⌈/⌉ Nat.log 2 n := rfl

theorem analyticBound_le_iff {l n w : Nat} (hn : 2 ≤ n) : analyticBound l n ≤ w ↔ 8 * l ≤ Nat.log 2 n * w := by
  rw [analyticBound_eq_ceilDiv, ceilDiv_le_iff_le_mul (Nat.log_pos (by decide) hn), Nat.mul_comm l]

/-! ### The padded width (R192, R194) -/

/-- The padded width is the least w with N^w ≥ 256^L. -/
theorem paddedWidth_le_iff {l n w : Nat} (hn : 2 ≤ n) : paddedWidth l n ≤ w ↔ 256 ^ l ≤ n ^ w := by
  have hpos : 0 < 256 ^ l := by positivity
  rw [paddedWidth, Nat.digits_length_le_iff hn]
  omega

theorem byteLimit_eq_two_pow (l : Nat) : 256 ^ l = 2 ^ (8 * l) := by
  rw [pow_mul]
  rfl

/-- W ≤ UB: with f = floor(log2(N)), 256^L = 2^(8 × L) ≤ (2^f)^UB ≤ N^UB (R194 (b)). -/
theorem paddedWidth_le_analyticBound {l n : Nat} (hn : 2 ≤ n) : paddedWidth l n ≤ analyticBound l n := by
  refine (paddedWidth_le_iff hn).2 ?_
  calc 256 ^ l = 2 ^ (8 * l) := byteLimit_eq_two_pow l
    _ ≤ 2 ^ (Nat.log 2 n * analyticBound l n) :=
      Nat.pow_le_pow_right (by decide) ((analyticBound_le_iff hn).1 le_rfl)
    _ = (2 ^ Nat.log 2 n) ^ analyticBound l n := pow_mul ..
    _ ≤ n ^ analyticBound l n := Nat.pow_le_pow_left (Nat.pow_log_le_self 2 (by omega)) _

/-- W = UB for a power of two: 2^(8 × L) ≤ (2^k)^w compares the exponents (R194 (d)). -/
theorem paddedWidth_two_pow {l k : Nat} (hk : 2 ≤ 2 ^ k) : paddedWidth l (2 ^ k) = analyticBound l (2 ^ k) := by
  refine eq_of_forall_ge_iff fun w => ?_
  rw [paddedWidth_le_iff hk, analyticBound_le_iff hk, byteLimit_eq_two_pow, ← pow_mul, Nat.log_pow (by decide),
    Nat.pow_le_pow_iff_right (by decide)]

/-! ### PWIDTH (R193) -/

section
variable {s : State} (hinv : s.Inv) (ha : s.avalid = true)
include hinv ha

/-- A width computation writes the accumulator and the width cache, so PWIDTH leaves both (R192, R193). -/
theorem execPwidth_leavesWidth : ∃ m width bound, execPwidth s = .next { s with
        wvalid := true, w := width, ub := bound, dlen := width, carry := 0, err := .ok, mem := m }
      ∧ width.toNat = paddedWidth s.l.toNat s.n.toNat ∧ bound.toNat = analyticBound s.l.toNat s.n.toNat
      ∧ s.WidthDigits width m ∧ SameOutside .db s.cfg.cmax s.mem m := by
  obtain ⟨hn, -⟩ := radix_bounds hinv ha
  obtain ⟨-, -, -, -, -, hl, -⟩ := hinv
  obtain ⟨t, hwidth, hframe, hw, hub, hdlen, hacc⟩ := widthCompute_accumulates hn hl
  have htn : t.n = s.n := (encodeFrame_n hframe :)
  have htcfg : t.cfg = s.cfg := hframe.cfg
  refine ⟨t.mem, t.w, t.ub, execPwidth_next.2 (.inl ⟨ha, t, hwidth, ?state⟩), hw, hub,
    ⟨?value, fun i hi => ?digit, fun i hi hi' => ?zeros⟩, hframe.2⟩
  case state => rw [hframe.1, hacc.carry, hdlen]; rfl
  case value =>
    have hvalue := hacc.minimal.value
    rw [htn, hdlen] at hvalue
    exact hvalue
  case digit =>
    rw [← hdlen] at hi
    rw [← htn]
    exact hacc.lt (htn ▸ hn) (hi.trans_le hacc.room)
  case zeros => exact hacc.padded i (htcfg ▸ hi') (hdlen ▸ hi)

/-- The widths a PWIDTH leaves are functions of L and N (R194 (e)). -/
theorem execPwidth_widths {t : State} (h : execPwidth s = .next t) :
    t.w.toNat = paddedWidth s.l.toNat s.n.toNat ∧ t.ub.toNat = analyticBound s.l.toNat s.n.toNat := by
  obtain ⟨m, width, bound, hexec, hw, hub, -⟩ := execPwidth_leavesWidth hinv ha
  rw [hexec] at h
  cases h
  exact ⟨hw, hub⟩

end

/-! ### The obligations -/

/-- Settles O35: bitwidth(n) ≤ k exactly when n < 2^k, and the engine's bound is the analytic one. -/
theorem upperBoundIsCeiling : Obligations.UpperBoundIsCeiling := by
  refine ⟨fun n hn _ => ?_, fun l n hl hn _ => ?_⟩
  · have hleast (k : Nat) : bitwidth n ≤ k ↔ n < 2 ^ k := bitwidth_le_iff (by omega)
    exact ⟨(hleast _).1 le_rfl, fun k => (hleast k).2, bitwidth_sub_one n⟩
  · obtain ⟨u, hu, hub⟩ := upperBound_eq_analyticBound hn hl
    exact ⟨u, hu, hub.trans (analyticBound_eq_ceilDiv l n), hub ▸ analyticBound_le hn⟩

/-- Settles O56: PWIDTH is one width computation, which leaves the accumulator at 256^L − 1. -/
theorem pwidthMeasuresPaddedWidth : Obligations.PwidthMeasuresPaddedWidth :=
  ⟨rfl, fun _ ha => execPwidth_next.2 (.inr ⟨ha, rfl⟩), fun _ => execPwidth_leavesWidth⟩

/-- Settles O57: W is `paddedWidth` and UB is `analyticBound`, so the laws are those of the two numbers. -/
theorem widthLaws : Obligations.WidthLaws := by
  refine ⟨fun s hinv ha => ?_, fun s₁ s₂ t₁ t₂ hinv₁ hinv₂ ha₁ ha₂ hl hn h₁ h₂ => ?_⟩
  · obtain ⟨hn, -⟩ := radix_bounds hinv ha
    obtain ⟨m, width, bound, hexec, hw, hub, -⟩ := execPwidth_leavesWidth hinv ha
    obtain ⟨-, -, -, -, -, hl, -⟩ := hinv
    have hleast (w : Nat) : width.toNat ≤ w ↔ s.byteLimit ≤ s.n.toNat ^ w := hw ▸ paddedWidth_le_iff hn
    refine ⟨_, hexec, (hleast _).1 le_rfl, fun v hv => ?below, hw.symm,
      fun v hv => hw ▸ digits_length_le_paddedWidth hv, ?bounded, hub ▸ analyticBound_le hn,
      Nat.mul_le_mul_left 8 hl, fun k hk => ?power⟩
    case below => exact Nat.lt_of_not_le fun hle => Nat.not_le.2 hv ((hleast v).2 hle)
    case bounded => exact hw ▸ hub ▸ paddedWidth_le_analyticBound hn
    case power =>
      rw [hk] at hn hw hub
      exact BitVec.eq_of_toNat_eq (hw.trans ((paddedWidth_two_pow hn).trans hub.symm))
  · obtain ⟨hw₁, -⟩ := execPwidth_widths hinv₁ ha₁ h₁
    obtain ⟨hw₂, -⟩ := execPwidth_widths hinv₂ ha₂ h₂
    exact BitVec.eq_of_toNat_eq (by rw [hw₁, hw₂, hl, hn])

end Sys2Proof.Machine.Length

/-! PROOFS. The hazards of the command port (70_reset_and_hazards.md): a command that needs an alphabet looks at AVALID
before its operand and before it changes anything. Settles MissingAlphabetFails. -/

namespace Sys2Proof.Machine.Hazards

/-- The alphabet test guards the whole body of a command that needs it, the operand check included (R101, R235). -/
theorem exec_eq_withAlphabet {i : Instr} (hi : needsAlphabet i = true) (s : State) :
    ∃ body, exec i s = conclude (withAlphabet s body) := by
  cases i with
  | einj | dinj | dmap | pwidth | encf | encm | decf | decm => exact ⟨_, rfl⟩
  | nop | setl | abuild | dclr | bclr | drev | brev => cases hi

/-- Settles O23: with AVALID = 0 the alphabet test fails the command, whatever body it guards. -/
theorem missingAlphabetFails : Obligations.MissingAlphabetFails := by
  intro i s hi ha
  obtain ⟨body, hexec⟩ := exec_eq_withAlphabet hi s
  exact hexec.trans (conclude_eq_next.2 (withAlphabet_ok.2 (.inr ⟨ha, rfl⟩)))

end Sys2Proof.Machine.Hazards

/-! PROOFS. Encoder and decoder against each other (30_encoding.md sections 1, 3 and 6): both sides are the one
equation number = operand × 65536 + opcode, and a command is well formed exactly when its operand fits 16 bits.
Settles EncodedCommandDecodesToItself, DecodedWordIsItsEncoding, WrittenOutWordsDecode and
CommandWriteRunsDecodedCommand. -/

namespace Sys2Proof.Machine.RoundTrip

open Sys2Proof.Machine.Encoding Sys2Proof.Machine.Configuration

/-- Format Z holds operand 0, so the bound says something of format I alone (R98). -/
theorem wellFormed_iff_operand_le {i : Instr} : i.WellFormed ↔ i.operand ≤ 0xFFFF := by
  cases i with
  | setl v | abuild v | einj v | dinj v => exact decide_eq_true_iff
  | _ => exact ⟨fun _ => Nat.zero_le _, fun _ => rfl⟩

theorem encode_toNat_of_wellFormed {i : Instr} (h : i.WellFormed) :
    (encode i).toNat = i.operand * 65536 + i.opcode :=
  encode_toNat (wellFormed_iff_operand_le.1 h)

/-- Settles O1: the word of a command has the number its decoding asks for. -/
theorem encodedCommandDecodesToItself : Obligations.EncodedCommandDecodesToItself := fun _ h =>
  decode_eq_ok_iff.2 (encode_toNat_of_wellFormed h)

/-- Settles O2: a 32-bit number leaves 16 bits for the operand, and fixes the word. -/
theorem decodedWordIsItsEncoding : Obligations.DecodedWordIsItsEncoding := by
  intro w i h
  have hnum := decode_eq_ok_iff.1 h
  have hw := w.isLt
  have hwf : i.WellFormed := wellFormed_iff_operand_le.2 (by omega)
  exact ⟨hwf, BitVec.eq_of_toNat_eq (by rw [encode_toNat_of_wellFormed hwf, hnum])⟩

/-- Settles O4: each number is operand × 65536 + opcode. -/
theorem writtenOutWordsDecode : Obligations.WrittenOutWordsDecode :=
  ⟨decode_eq_ok_iff.2 rfl, decode_eq_ok_iff.2 rfl, decode_eq_ok_iff.2 rfl, decode_eq_ok_iff.2 rfl,
    decode_eq_ok_iff.2 rfl, decode_eq_ok_iff.2 rfl, decode_eq_ok_iff.2 rfl⟩

/-- Settles O6: the port hands the word to `runWord`, and a word that decodes to `exec`. -/
theorem commandWriteRunsDecodedCommand : Obligations.CommandWriteRunsDecodedCommand := by
  intro s w rest i hpending hdecode
  rw [step_command hpending, runWord, hdecode]

end Sys2Proof.Machine.RoundTrip

/-! PROOFS. What each command can write: its registers, its buffers and its codes (10_state.md sections 2 and 3,
60_exceptions.md section 1). A command changes the memory by element writes and restores inside a few buffers
(`Rewrites`), and `CommandEffect` says for each command which registers, which buffers and which codes; the proofs
follow the command's phases. Settles RegistersWrittenOnlyByNamedCommands, BuffersWrittenOnlyByNamedCommands and
CommandsRaiseOnlyTheirCodes. -/

namespace Sys2Proof.Machine.Effects

open Sys2Proof.Machine.HostPort Sys2Proof.Machine.Configuration

/-! ### Changes of the memory inside some buffers -/

/-- `m'` comes from `m` by element writes to, and restores of, the buffers in `bs`. -/
inductive Rewrites (c : Config) (bs : List Buf) (m : Memory) : Memory → Prop
  | refl : Rewrites c bs m m
  | write {m' : Memory} {b : Buf} {i : Nat} (v : Byte) (h : Rewrites c bs m m') (hb : b ∈ bs) (hi : i < b.size c) :
      Rewrites c bs m (m'.write (b.base + i) v)
  | restore {m' : Memory} {b : Buf} (h : Rewrites c bs m m') (hb : b ∈ bs) :
      Rewrites c bs m (m'.restore b.base (b.size c))

section
variable {c : Config} {bs bs' : List Buf} {m m' m'' : Memory}

theorem Rewrites.trans (h : Rewrites c bs m m') (h' : Rewrites c bs m' m'') : Rewrites c bs m m'' := by
  induction h' with
  | refl => exact h
  | write v _ hb hi ih => exact .write v ih hb hi
  | restore _ hb ih => exact .restore ih hb

theorem Rewrites.mono (hsub : bs ⊆ bs') (h : Rewrites c bs m m') : Rewrites c bs' m m' := by
  induction h with
  | refl => exact .refl
  | write v _ hb hi ih => exact .write v ih (hsub hb) hi
  | restore _ hb ih => exact .restore ih (hsub hb)

/-- A block store is a run of element writes. -/
theorem Rewrites.store_from {b : Buf} {vs : List Byte} {i : Nat} (h : Rewrites c bs m m') (hb : b ∈ bs)
    (hi : i + vs.length ≤ b.size c) : Rewrites c bs m (m'.store (b.base + i) vs) := by
  induction vs generalizing i m' with
  | nil => exact h
  | cons v vs ih =>
    rw [List.length_cons] at hi
    exact ih (i := i + 1) (h.write v hb (by omega)) (by omega)

theorem rewrites_store {b : Buf} {vs : List Byte} (hb : b ∈ bs) (hvs : vs.length ≤ b.size c) :
    Rewrites c bs m (m.store b.base vs) :=
  Rewrites.refl.store_from (i := 0) hb (by omega)

theorem Rewrites.read (h : Rewrites c bs m m') {a : Nat} (ha : ∀ b ∈ bs, ¬ b.Within (b.size c) a) :
    m'.read a = m.read a := by
  induction h with
  | refl => rfl
  | @write m' b i v _ hb hi ih =>
    have hne : a ≠ b.base + i := fun he => ha b hb (by omega)
    rw [read_write, if_neg hne, ih]
  | restore _ hb ih => rw [read_restore, if_neg (ha _ hb), ih]

theorem Rewrites.wf (h : Rewrites c bs m m') (hm : m.wf) : m'.wf := by
  induction h with
  | refl => exact hm
  | write v _ _ _ ih => exact wf_write ih _ v
  | restore _ _ ih => exact wf_restore ih _ _

/-- An element of a buffer that is not among those rewritten keeps its value (R37). -/
theorem Rewrites.elem {s t : State} (h : Rewrites c bs s.mem t.mem) {b : Buf} (hb : b ∉ bs) {i : Nat}
    (hi : i < b.size c) : t.elem b i = s.elem b i := by
  refine h.read fun b' hb' hin => hb ?_
  have heq : b' = b := holds_unique (c := c) (a := b.base + i) (holds_iff.2 hin) (holds_iff.2 (by omega))
  exact heq ▸ hb'

end

/-! ### The shared operations -/

section
variable {s t : State} {b : Buf}

theorem rewrites_restoreBuf : Rewrites s.cfg [b] s.mem (restoreBuf b s).mem := .restore .refl (by simp)

theorem rewrites_clearDigits : Rewrites s.cfg [.db] s.mem (clearDigits s).mem := rewrites_restoreBuf

theorem reverseElems_rewrites {k : Nat} (h : reverseElems b k s = .ok t) : Rewrites s.cfg [b] s.mem t.mem := by
  obtain ⟨hk, rfl⟩ := reverseElems_ok.1 h
  exact rewrites_store (by simp) (by simpa using hk)

theorem reverseElems_registers {k : Nat} (h : reverseElems b k s = .ok t) : t = { s with mem := t.mem } := by
  obtain ⟨-, rfl⟩ := reverseElems_ok.1 h
  rfl

theorem zeroBytes_rewrites (h : zeroBytes s = .ok t) : Rewrites s.cfg [.bb] s.mem t.mem := by
  obtain ⟨hl, rfl⟩ := zeroBytes_ok.1 h
  exact rewrites_store (b := .bb) (by simp) (by simpa [Buf.size] using hl)

theorem mapDigits_rewrites {k : Half} (h : mapDigits k s = .ok t) : Rewrites s.cfg [.sb] s.mem t.mem := by
  obtain ⟨hk, -, rfl⟩ := mapDigits_ok.1 h
  exact rewrites_store (b := .sb) (by simp) (by simpa [Buf.size] using hk)

theorem mapDigits_registers {k : Half} (h : mapDigits k s = .ok t) : t = { s with slen := t.slen, mem := t.mem } := by
  obtain ⟨-, -, rfl⟩ := mapDigits_ok.1 h
  rfl

theorem encInject_rewrites {v : Byte} (h : encInject v s = .ok t) : Rewrites s.cfg [.db] s.mem t.mem := by
  obtain ⟨hk, ds, c, hd, rfl⟩ := encInject_ok.1 h
  have hlen := encDigits_length hd
  simp only [elems_length] at hlen
  exact rewrites_store (b := .db) (by simp) (by simp only [Buf.size]; omega)

theorem encInjectAll_rewrites {vs : List Byte} (h : encInjectAll vs s = .ok t) :
    Rewrites s.cfg [.db] s.mem t.mem := by
  induction vs generalizing s with
  | nil => cases h; exact .refl
  | cons v vs ih =>
    obtain ⟨u, hu, ht⟩ := encInjectAll_cons.1 h
    have hrest := ih ht
    rw [(encInject_frame hu).cfg] at hrest
    exact (encInject_rewrites hu).trans hrest

theorem accumulateBytes_effect (h : accumulateBytes s = .ok t) :
    t = { s with dlen := t.dlen, carry := t.carry, mem := t.mem } ∧ Rewrites s.cfg [.db] s.mem t.mem := by
  obtain ⟨-, h⟩ := accumulateBytes_ok.1 h
  have hrun := encInjectAll_rewrites h
  exact ⟨(encInjectAll_frame h).1, (rewrites_clearDigits (s := { s with carry := 0 })).trans hrun⟩

theorem widthCompute_effect (h : widthCompute s = .ok t) :
    t = { s with wvalid := t.wvalid, w := t.w, ub := t.ub, dlen := t.dlen, carry := t.carry, mem := t.mem }
      ∧ Rewrites s.cfg [.db] s.mem t.mem := by
  obtain ⟨u, v, -, hrun, rfl⟩ := widthCompute_ok.1 h
  have hmem := encInjectAll_rewrites hrun
  refine ⟨?_, (rewrites_clearDigits (s := { s with ub := u, carry := 0 })).trans hmem⟩
  rw [(encInjectAll_frame hrun).1]
  rfl

theorem ensureWidth_effect (h : ensureWidth s = .ok t) :
    t = { s with wvalid := t.wvalid, w := t.w, ub := t.ub, dlen := t.dlen, carry := t.carry, mem := t.mem }
      ∧ Rewrites s.cfg [.db] s.mem t.mem := by
  obtain ⟨-, rfl⟩ | ⟨-, h⟩ := ensureWidth_ok.1 h
  · exact ⟨rfl, .refl⟩
  · exact widthCompute_effect h

theorem decInject_rewrites {d : Byte} (h : decInject d s = .ok t) : Rewrites s.cfg [.bb] s.mem t.mem := by
  obtain ⟨hl, rfl⟩ := decInject_ok.1 h
  exact rewrites_store (b := .bb) (by simp) (by simpa [Buf.size] using hl)

theorem decodeChars_rewrites {cs : List Byte} (h : decodeChars cs s = .ok t) :
    Rewrites s.cfg [.bb] s.mem t.mem := by
  induction cs generalizing s with
  | nil =>
    obtain ⟨u, hu, rfl⟩ := decodeChars_nil.1 h
    have hmem := reverseElems_rewrites hu
    exact hmem
  | cons c cs ih =>
    obtain ⟨-, u, hu, rfl⟩ | ⟨d, u, -, hu, hend⟩ := decodeChars_cons.1 h
    · have hmem := zeroBytes_rewrites hu
      exact hmem
    · obtain ⟨hcfg, -, -⟩ := sameHost_of_decodeFrame (decInject_frame hu)
      refine (decInject_rewrites hu).trans (hcfg ▸ ?_)
      obtain ⟨-, v, hv, rfl⟩ | ⟨-, hrest⟩ := hend
      · have hmem := zeroBytes_rewrites hv
        exact hmem
      · exact ih hrest

theorem enterChars_rewrites {i : Nat} {cs : List Byte} (h : enterChars i cs s = some t) :
    Rewrites s.cfg [.rev] s.mem t.mem := by
  induction cs generalizing i s with
  | nil => cases h; exact .refl
  | cons c cs ih =>
    obtain ⟨hc, -, hrest⟩ := enterChars_cons.1 h
    exact (Rewrites.refl.write (b := .rev) _ (by simp) hc).trans (ih hrest)

end

/-! ### The commands -/

/-- The buffers a command may write (R32 to R36). -/
def writtenBuffers : Instr → List Buf
  | .nop | .setl _ => []
  | .abuild _ => [.db, .rev]
  | .dclr | .einj _ | .drev | .pwidth => [.db]
  | .bclr | .dinj _ | .brev | .decm => [.bb]
  | .dmap => [.sb]
  | .encf | .encm => [.db, .sb]
  | .decf => [.db, .bb]

/-- The command took `s` to `t`, which is `u`: `s` with the registers the command writes as `t` has them. Beside them it
wrote its buffers alone, and it ended with 0 or one of its codes. -/
structure CommandEffect (i : Instr) (s u t : State) : Prop where
  registers : t = u
  memory : Rewrites s.cfg (writtenBuffers i) s.mem t.mem
  code : t.err = .ok ∨ t.err ∈ mayRaise i

section
variable {s t : State}

theorem exec_nop_effect (h : exec .nop s = .next t) : CommandEffect .nop s { s with err := t.err } t := by
  cases h
  exact ⟨rfl, .refl, .inl rfl⟩

theorem exec_setl_effect {l : Nat} (h : exec (.setl l) s = .next t) :
    CommandEffect (.setl l) s { s with err := t.err, l := t.l, wvalid := t.wvalid, w := t.w, ub := t.ub } t := by
  obtain hl | hl := Nat.lt_or_ge s.cfg.lmax l
  · cases (exec_setl_of_gt hl).symm.trans h
    exact ⟨rfl, .refl, .inr (by simp [mayRaise])⟩
  · cases (exec_setl_of_le hl).symm.trans h
    exact ⟨rfl, .refl, .inl rfl⟩

theorem rewrites_cleared : Rewrites s.cfg [.db, .rev] s.mem (cleared s).mem :=
  (rewrites_clearDigits.mono (by simp)).trans ((rewrites_restoreBuf (b := .rev) (s := clearDigits s)).mono (by simp))

theorem exec_abuild_effect {n : Nat} (h : exec (.abuild n) s = .next t) :
    CommandEffect (.abuild n) s { s with
      err := t.err, avalid := t.avalid, n := t.n, wvalid := t.wvalid, w := t.w, ub := t.ub, dlen := t.dlen
      mem := t.mem } t := by
  by_cases hvalid : s.ValidAlphabet n
  · obtain ⟨v, hv, hexec⟩ := exec_abuild_valid hvalid
    cases hexec.symm.trans h
    refine ⟨?_, rewrites_cleared.trans ((enterChars_rewrites hv).mono (by simp)), .inl rfl⟩
    rw [(enterChars_frame hv).1]
    rfl
  · cases (exec_abuild_invalid hvalid).symm.trans h
    have hdrop : Rewrites s.cfg [.rev] (cleared s).mem (dropAlphabet (cleared s)).mem :=
      rewrites_restoreBuf (s := cleared s)
    exact ⟨rfl, rewrites_cleared.trans (hdrop.mono (by simp)), .inr (by simp [mayRaise])⟩

theorem exec_dclr_effect (h : exec .dclr s = .next t) :
    CommandEffect .dclr s { s with err := t.err, dlen := t.dlen, mem := t.mem } t := by
  cases h
  exact ⟨rfl, rewrites_clearDigits, .inl rfl⟩

theorem exec_bclr_effect (h : exec .bclr s = .next t) :
    CommandEffect .bclr s { s with err := t.err, mem := t.mem } t := by
  cases h
  exact ⟨rfl, rewrites_restoreBuf, .inl rfl⟩

theorem exec_einj_effect {b : Nat} (h : exec (.einj b) s = .next t) :
    CommandEffect (.einj b) s { s with err := t.err, dlen := t.dlen, carry := t.carry, mem := t.mem } t := by
  obtain ⟨-, rfl⟩ | ⟨-, -, rfl⟩ | ⟨-, -, u, hu, rfl⟩ := execEinj_next.1 h
  · exact ⟨rfl, .refl, .inr (by simp [mayRaise])⟩
  · exact ⟨rfl, .refl, .inr (by simp [mayRaise])⟩
  · have hframe := (encInject_frame hu).1
    have hmem := encInject_rewrites hu
    split
    · exact ⟨by rw [fail, hframe], hmem, .inr (by simp [mayRaise])⟩
    · exact ⟨by rw [finish, hframe], hmem, .inl rfl⟩

theorem exec_dinj_effect {d : Nat} (h : exec (.dinj d) s = .next t) :
    CommandEffect (.dinj d) s { s with err := t.err, carry := t.carry, mem := t.mem } t := by
  obtain ⟨-, rfl⟩ | ⟨-, -, rfl⟩ | ⟨-, -, u, hu, rfl⟩ := execDinj_next.1 h
  · exact ⟨rfl, .refl, .inr (by simp [mayRaise])⟩
  · exact ⟨rfl, .refl, .inr (by simp [mayRaise])⟩
  · have hframe := (decInject_frame hu).1
    have hmem := decInject_rewrites hu
    split
    · exact ⟨by rw [fail, hframe], hmem, .inr (by simp [mayRaise])⟩
    · exact ⟨by rw [finish, hframe], hmem, .inl rfl⟩

theorem exec_drev_effect (h : exec .drev s = .next t) :
    CommandEffect .drev s { s with err := t.err, mem := t.mem } t := by
  obtain ⟨u, hu, h⟩ := run_bind_ok.1 (conclude_eq_next.1 h)
  obtain rfl := run_pure_ok.1 h
  have hmem := reverseElems_rewrites hu
  exact ⟨by rw [finish, reverseElems_registers hu], hmem, .inl rfl⟩

theorem exec_brev_effect (h : exec .brev s = .next t) :
    CommandEffect .brev s { s with err := t.err, mem := t.mem } t := by
  obtain ⟨u, hu, h⟩ := run_bind_ok.1 (conclude_eq_next.1 h)
  obtain rfl := run_pure_ok.1 h
  have hmem := reverseElems_rewrites hu
  exact ⟨by rw [finish, reverseElems_registers hu], hmem, .inl rfl⟩

theorem exec_dmap_effect (h : exec .dmap s = .next t) :
    CommandEffect .dmap s { s with err := t.err, slen := t.slen, mem := t.mem } t := by
  obtain ⟨-, u, hu, rfl⟩ | ⟨-, rfl⟩ := execDmap_next.1 h
  · have hmem := mapDigits_rewrites hu
    exact ⟨by rw [finish, mapDigits_registers hu], hmem, .inl rfl⟩
  · exact ⟨rfl, .refl, .inr (by simp [mayRaise])⟩

theorem exec_pwidth_effect (h : exec .pwidth s = .next t) :
    CommandEffect .pwidth s { s with
      err := t.err, wvalid := t.wvalid, w := t.w, ub := t.ub, dlen := t.dlen, carry := t.carry, mem := t.mem } t := by
  obtain ⟨-, u, hu, rfl⟩ | ⟨-, rfl⟩ := execPwidth_next.1 h
  · obtain ⟨hregs, hmem⟩ := widthCompute_effect hu
    exact ⟨by rw [finish, hregs], hmem, .inl rfl⟩
  · exact ⟨rfl, .refl, .inr (by simp [mayRaise])⟩

theorem exec_encf_effect (h : exec .encf s = .next t) :
    CommandEffect .encf s { s with
      err := t.err, wvalid := t.wvalid, w := t.w, ub := t.ub, dlen := t.dlen, slen := t.slen, carry := t.carry
      mem := t.mem } t := by
  obtain ⟨-, a, ha, b, hb, c, hc, d, hd, rfl⟩ | ⟨-, rfl⟩ := execEncf_next.1 h
  · obtain ⟨hregsA, hmemA⟩ := ensureWidth_effect ha
    obtain ⟨hregsB, hmemB⟩ := accumulateBytes_effect hb
    have hmemC := reverseElems_rewrites hc
    have hmemD := mapDigits_rewrites hd
    have hcfgA : a.cfg = s.cfg := by rw [hregsA]
    have hcfgB : b.cfg = s.cfg := by rw [hregsB]; exact hcfgA
    have hcfgC : c.cfg = s.cfg := by rw [reverseElems_registers hc]; exact hcfgB
    rw [hcfgA] at hmemB
    rw [hcfgC] at hmemD
    replace hmemC : Rewrites s.cfg [.db] b.mem c.mem := hcfgB ▸ hmemC
    refine ⟨?_, (((hmemA.trans hmemB).trans hmemC).mono (by simp [writtenBuffers])).trans
      (hmemD.mono (by simp [writtenBuffers])), .inl rfl⟩
    rw [finish, mapDigits_registers hd, reverseElems_registers hc, hregsB, hregsA]
  · exact ⟨rfl, .refl, .inr (by simp [mayRaise])⟩

theorem exec_encm_effect (h : exec .encm s = .next t) :
    CommandEffect .encm s { s with
      err := t.err, dlen := t.dlen, slen := t.slen, carry := t.carry, mem := t.mem } t := by
  obtain ⟨-, b, hb, c, hc, d, hd, rfl⟩ | ⟨-, rfl⟩ := execEncm_next.1 h
  · obtain ⟨hregsB, hmemB⟩ := accumulateBytes_effect hb
    have hmemC := reverseElems_rewrites hc
    have hmemD := mapDigits_rewrites hd
    have hcfgB : b.cfg = s.cfg := by rw [hregsB]
    have hcfgC : c.cfg = s.cfg := by rw [reverseElems_registers hc]; exact hcfgB
    rw [hcfgB] at hmemC
    rw [hcfgC] at hmemD
    refine ⟨?_, ((hmemB.trans hmemC).mono (by simp [writtenBuffers])).trans
      (hmemD.mono (by simp [writtenBuffers])), .inl rfl⟩
    rw [finish, mapDigits_registers hd, reverseElems_registers hc, hregsB]
  · exact ⟨rfl, .refl, .inr (by simp [mayRaise])⟩

theorem exec_decf_effect (h : exec .decf s = .next t) :
    CommandEffect .decf s { s with
      err := t.err, wvalid := t.wvalid, w := t.w, ub := t.ub, dlen := t.dlen, carry := t.carry, mem := t.mem } t := by
  obtain ⟨-, a, ha, b, hb, hend⟩ | ⟨-, rfl⟩ := execDecf_next.1 h
  · obtain ⟨hregsA, hmemA⟩ := ensureWidth_effect ha
    have hregsB := (zeroBytes_frame hb).1
    have hmemB := zeroBytes_rewrites hb
    have hcfgA : a.cfg = s.cfg := by rw [hregsA]
    have hcfgB : b.cfg = s.cfg := by rw [hregsB]; exact hcfgA
    replace hmemB : Rewrites s.cfg [.bb] a.mem b.mem := hcfgA ▸ hmemB
    have hstart := (hmemA.mono (bs' := writtenBuffers .decf) (by simp [writtenBuffers])).trans
      (hmemB.mono (by simp [writtenBuffers]))
    obtain ⟨-, rfl⟩ | ⟨-, -, hchars⟩ := hend
    · refine ⟨?_, hstart, .inr (by simp [mayRaise])⟩
      rw [fail, hregsB, hregsA]
    · obtain ⟨hregsC, -, hcode⟩ := decodeChars_frame hchars
      have hmemC := decodeChars_rewrites hchars
      rw [hcfgB] at hmemC
      refine ⟨?_, hstart.trans (hmemC.mono (by simp [writtenBuffers])), hcode.imp_right fun h => ?_⟩
      · rw [hregsC, hregsB, hregsA]
      · obtain h | h := h <;> simp [h, mayRaise]
  · exact ⟨rfl, .refl, .inr (by simp [mayRaise])⟩

theorem exec_decm_effect (h : exec .decm s = .next t) :
    CommandEffect .decm s { s with err := t.err, carry := t.carry, mem := t.mem } t := by
  obtain ⟨-, b, hb, -, hchars⟩ | ⟨-, rfl⟩ := execDecm_next.1 h
  · have hregsB := (zeroBytes_frame hb).1
    have hmemB := zeroBytes_rewrites hb
    have hcfgB : b.cfg = s.cfg := by rw [hregsB]
    obtain ⟨hregsC, -, hcode⟩ := decodeChars_frame hchars
    have hmemC := decodeChars_rewrites hchars
    rw [hcfgB] at hmemC
    refine ⟨?_, hmemB.trans hmemC, hcode.imp_right fun h => ?_⟩
    · rw [hregsC, hregsB]
    · obtain h | h := h <;> simp [h, mayRaise]
  · exact ⟨rfl, .refl, .inr (by simp [mayRaise])⟩

/-- Every command has the effect of its own lemma. -/
theorem exec_effect {i : Instr} (h : exec i s = .next t) : ∃ u, CommandEffect i s u t := by
  cases i with
  | nop => exact ⟨_, exec_nop_effect h⟩
  | setl l => exact ⟨_, exec_setl_effect h⟩
  | abuild n => exact ⟨_, exec_abuild_effect h⟩
  | dclr => exact ⟨_, exec_dclr_effect h⟩
  | bclr => exact ⟨_, exec_bclr_effect h⟩
  | einj b => exact ⟨_, exec_einj_effect h⟩
  | dinj d => exact ⟨_, exec_dinj_effect h⟩
  | drev => exact ⟨_, exec_drev_effect h⟩
  | brev => exact ⟨_, exec_brev_effect h⟩
  | dmap => exact ⟨_, exec_dmap_effect h⟩
  | pwidth => exact ⟨_, exec_pwidth_effect h⟩
  | encf => exact ⟨_, exec_encf_effect h⟩
  | encm => exact ⟨_, exec_encm_effect h⟩
  | decf => exact ⟨_, exec_decf_effect h⟩
  | decm => exact ⟨_, exec_decm_effect h⟩

end

/-! ### The obligations -/

/-- Settles O20: the registers of each command's effect are those of the lists. -/
theorem registersWrittenOnlyByNamedCommands : Obligations.RegistersWrittenOnlyByNamedCommands := by
  intro i s t h
  cases i with
  | nop => rw [(exec_nop_effect h).registers]; simp [Instr.mnemonic]
  | setl l => rw [(exec_setl_effect h).registers]; simp [Instr.mnemonic]
  | abuild n => rw [(exec_abuild_effect h).registers]; simp [Instr.mnemonic]
  | dclr => rw [(exec_dclr_effect h).registers]; simp [Instr.mnemonic]
  | bclr => rw [(exec_bclr_effect h).registers]; simp [Instr.mnemonic]
  | einj b => rw [(exec_einj_effect h).registers]; simp [Instr.mnemonic]
  | dinj d => rw [(exec_dinj_effect h).registers]; simp [Instr.mnemonic]
  | drev => rw [(exec_drev_effect h).registers]; simp [Instr.mnemonic]
  | brev => rw [(exec_brev_effect h).registers]; simp [Instr.mnemonic]
  | dmap => rw [(exec_dmap_effect h).registers]; simp [Instr.mnemonic]
  | pwidth => rw [(exec_pwidth_effect h).registers]; simp [Instr.mnemonic]
  | encf => rw [(exec_encf_effect h).registers]; simp [Instr.mnemonic]
  | encm => rw [(exec_encm_effect h).registers]; simp [Instr.mnemonic]
  | decf => rw [(exec_decf_effect h).registers]; simp [Instr.mnemonic]
  | decm => rw [(exec_decm_effect h).registers]; simp [Instr.mnemonic]

/-- No command writes FWD, and the others have their writers (R32 to R36). -/
theorem mnemonic_of_mem_writtenBuffers {i : Instr} {b : Buf} (h : b ∈ writtenBuffers i) :
    (b = .bb ∧ i.mnemonic ∈ ["BCLR", "DINJ", "BREV", "DECF", "DECM"])
      ∨ (b = .db ∧ i.mnemonic ∈ ["DCLR", "EINJ", "DREV", "ENCF", "ENCM", "PWIDTH", "ABUILD", "DECF"])
      ∨ (b = .sb ∧ i.mnemonic ∈ ["DMAP", "ENCF", "ENCM"]) ∨ (b = .rev ∧ i.mnemonic = "ABUILD") := by
  cases i <;> simp only [writtenBuffers, List.mem_cons, List.not_mem_nil, or_false] at h
  case abuild | encf | encm | decf => obtain rfl | rfl := h <;> simp [Instr.mnemonic]
  all_goals subst h; simp [Instr.mnemonic]

/-- Settles O21: an address outside the buffers a command may write keeps its element. -/
theorem buffersWrittenOnlyByNamedCommands : Obligations.BuffersWrittenOnlyByNamedCommands := by
  intro i s t h a hne
  obtain ⟨u, heffect⟩ := exec_effect h
  obtain ⟨b, hb, hin⟩ : ∃ b ∈ writtenBuffers i, b.Within (b.size s.cfg) a := by
    by_contra! hout
    exact hne (heffect.memory.read hout)
  obtain ⟨rfl, hi⟩ | ⟨rfl, hi⟩ | ⟨rfl, hi⟩ | ⟨rfl, hi⟩ := mnemonic_of_mem_writtenBuffers hb
  · exact .inl ⟨hin, hi⟩
  · exact .inr (.inl ⟨hin, hi⟩)
  · exact .inr (.inr (.inl ⟨hin, hi⟩))
  · exact .inr (.inr (.inr ⟨hin, hi⟩))

/-- Settles O22: the code is part of each command's effect. -/
theorem commandsRaiseOnlyTheirCodes : Obligations.CommandsRaiseOnlyTheirCodes := by
  intro i s t h
  obtain ⟨u, heffect⟩ := exec_effect h
  exact heffect.code

end Sys2Proof.Machine.Effects

/-! PROOFS. What every step keeps (10_state.md section 6, 20_memory.md sections 2 and 3, 70_reset_and_hazards.md
section 1). `KeptByEvents` lists once the ways a step can change the state; a predicate kept by each of them is kept
by every step. The memory's form and its addresses follow from the effects of the commands, and the alphabet's tables
because ABUILD alone writes them. Settles IdleStepKeepsState, ByteWriteStoresOneElement, ResetGivesTableValues,
ResetMeetsInvariants, StepKeepsAlphabetTables, StepKeepsMemoryCanonical and StepKeepsMemoryMapped. -/

namespace Sys2Proof.Machine.Steps

open Sys2Proof.Machine.HostPort Sys2Proof.Machine.Configuration Sys2Proof.Machine.Effects

/-! ### The ways a step changes the state -/

/-- The predicate holds after reset, and is kept by what the port writes for itself, by every command, and by every host
write the engine admits (R62, R65 to R67). -/
structure KeptByEvents (P : State → Prop) : Prop where
  reset : ∀ c, P (State.resetWith c)
  port : ∀ {s} e pending reply, P s → P { s with err := e, pending := pending, reply := reply }
  command : ∀ {i s t}, P s → exec i s = .next t → P t
  slen : ∀ {s} {v : Half}, P s → v.toNat ≤ s.cfg.cmax → P { s with slen := v }
  bytes : ∀ {s} {b : Buf} {i} v, P s → b = .bb ∨ b = .sb → i < b.size s.cfg →
    P { s with mem := s.mem.write (b.base + i) v }
  fwd : ∀ {s} {i} v, P s → i < 255 → P (invalidateAlphabet { s with mem := s.mem.write (0x4000 + i) v })

section
variable {P : State → Prop} {s t : State}

theorem KeptByEvents.runWord (hP : KeptByEvents P) {w : Word} (hs : P s) (h : runWord exec w s = .next t) : P t := by
  rw [Machine.runWord] at h
  split at h
  · exact hP.command hs h
  · cases h
    exact hP.port .illcmd s.pending s.reply hs

theorem KeptByEvents.writeLocation (hP : KeptByEvents P) {addr : Half} {data : Word} (hs : P s)
    (h : writeLocation data s (locate s.cfg addr) = some t) : P t := by
  obtain ⟨-, hdata, rfl⟩ | ⟨b, i, hloc, hwritable, -, rfl⟩ := writeLocation_ok.1 h
  · have hcmax := cmax_le s.cfg
    exact hP.slen hs (by rw [BitVec.toNat_setWidth, Nat.mod_eq_of_lt (by omega)]; exact hdata)
  · obtain ⟨-, hi⟩ := locate_elem.1 hloc
    cases b with
    | bb => exact hP.bytes _ hs (.inl rfl) hi
    | sb => exact hP.bytes _ hs (.inr rfl) hi
    | fwd => exact hP.fwd _ hs hi
    | db | rev => cases hwritable

theorem KeptByEvents.hostWrite (hP : KeptByEvents P) {addr : Half} {data : Word} (hs : P s)
    (h : hostWrite exec addr data s = .next t) : P t := by
  rw [Machine.hostWrite] at h
  split at h
  · exact hP.runWord (hP.port s.err s.pending (some (.write .okay)) hs) h
  · split at h
    · next u hu =>
      cases h
      exact hP.port u.err u.pending (some (.write .okay)) (hP.writeLocation hs hu)
    · cases h
      exact hP.port s.err s.pending (some (.write .slverr)) hs

theorem KeptByEvents.step (hP : KeptByEvents P) (hs : P s) (h : step s = .next t) : P t := by
  cases hpending : s.pending with
  | nil =>
    cases (step_idle hpending).symm.trans h
    exact hs
  | cons e rest =>
    rw [step_event hpending] at h
    have hs' := hP.port s.err rest s.reply hs
    cases e with
    | hostRead addr =>
      cases h
      rw [hostRead_frame]
      exact hP.port s.err rest _ hs'
    | hostWrite addr data => exact hP.hostWrite hs' h
    | reset =>
      cases h
      exact hP.port .ok rest none (hP.reset s.cfg)

end

/-- An admitted write to FWD stores one element and restores REV and DB (R67). -/
theorem rewrites_fwdWrite {s : State} {i : Nat} (v : Byte) (hi : i < 255) :
    Rewrites s.cfg [.fwd, .rev, .db] s.mem
      (invalidateAlphabet { s with mem := s.mem.write (0x4000 + i) v }).mem := by
  have hwrite : Rewrites s.cfg [.fwd, .rev, .db] s.mem (s.mem.write (0x4000 + i) v) :=
    Rewrites.refl.write (b := .fwd) v (by simp) hi
  exact (hwrite.restore (b := .rev) (by simp)).restore (b := .db) (by simp)

/-! ### The reset state (R42) -/

theorem resetWith_elem (c : Config) (b : Buf) {i : Nat} (hi : i < b.size c) :
    (State.resetWith c).elem b i = if b = .rev then invalidMark else 0#8 :=
  unlisted_elem b (hi.trans_le (size_le_window c b))

theorem inv_resetWith (c : Config) : (State.resetWith c).Inv := by
  refine ⟨nofun, fun i hi _ => resetWith_elem c .db hi, fun _ => ⟨rfl, rfl, ?db, ?rev, rfl⟩, nofun,
    ⟨nofun, fun _ => ⟨rfl, rfl⟩⟩, Nat.zero_le _, Nat.zero_le _, Nat.zero_le _⟩
  case db => exact fun i hi => resetWith_elem c .db hi
  case rev => exact fun i hi => resetWith_elem c .rev hi

/-! ### Mapped addresses -/

/-- Every address the memory lists is that of an element: `State.MemoryMapped`, of the memory alone. -/
def Mapped (c : Config) (m : Memory) : Prop :=
  ∀ x ∈ m, ∃ b ∈ [Buf.bb, Buf.db, Buf.sb, Buf.fwd, Buf.rev], b.holds c x.1 = true

theorem memoryMapped_iff {s : State} : s.MemoryMapped ↔ Mapped s.cfg s.mem := Iff.rfl

theorem mem_write {m : Memory} {a : Nat} {v : Byte} {x : Host.Cell} (h : x ∈ m.write a v) : x.1 = a ∨ x ∈ m := by
  simp only [Memory.write] at h
  split at h
  · exact .inr (List.mem_of_mem_filter h)
  · obtain rfl | h := mem_insert.1 h
    · exact .inl rfl
    · exact .inr (List.mem_of_mem_filter h)

theorem Mapped.rewrites {c : Config} {bs : List Buf} {m m' : Memory} (hm : Mapped c m) (h : Rewrites c bs m m') :
    Mapped c m' := by
  induction h with
  | refl => exact hm
  | @write m' b i v _ _ hi ih =>
    intro x hx
    obtain hx | hx := mem_write hx
    · exact ⟨b, by cases b <;> simp, holds_iff.2 (by omega)⟩
    · exact ih x hx
  | restore _ _ ih => exact fun x hx => ih x (List.mem_of_mem_filter hx)

theorem keptByEvents_wf : KeptByEvents fun s => s.mem.wf where
  reset _ := wf_nil
  port _ _ _ hs := hs
  command hs h := by
    obtain ⟨u, heffect⟩ := exec_effect h
    exact heffect.memory.wf hs
  slen hs _ := hs
  bytes v hs _ _ := wf_write hs _ v
  fwd v hs hi := (rewrites_fwdWrite v hi).wf hs

theorem keptByEvents_mapped : KeptByEvents State.MemoryMapped where
  reset _ := nofun
  port _ _ _ hs := hs
  command {i s t} hs h := by
    obtain ⟨hcfg, -, -⟩ := exec_sameHost h
    obtain ⟨u, heffect⟩ := exec_effect h
    rw [memoryMapped_iff, hcfg]
    exact Mapped.rewrites hs heffect.memory
  slen hs _ := hs
  bytes {s b i} v hs _ hi :=
    Mapped.rewrites (c := s.cfg) hs (Rewrites.refl.write (bs := [b]) v (by simp) hi)
  fwd {s i} v hs hi := Mapped.rewrites (c := s.cfg) hs (rewrites_fwdWrite v hi)

/-! ### The alphabet's tables (R41 I4) -/

/-- Distinct characters below DOMAIN are at most DOMAIN. -/
theorem validAlphabet_le_domain {s : State} {n : Nat} (h : s.ValidAlphabet n) : n ≤ s.cfg.domain := by
  obtain ⟨-, hdomain, hdistinct⟩ := h
  have hinj : Set.InjOn (fun i => (s.elem .fwd i).toNat) (Finset.range n) := by
    intro i hi j hj hij
    simp only [Finset.coe_range, Set.mem_Iio] at hi hj
    obtain hlt | heq | hlt := Nat.lt_trichotomy i j
    · exact absurd (BitVec.eq_of_toNat_eq hij) (hdistinct j hj i hlt)
    · exact heq
    · exact absurd (BitVec.eq_of_toNat_eq hij).symm (hdistinct i hi j hlt)
  have hmaps : ∀ i ∈ Finset.range n, (s.elem .fwd i).toNat ∈ Finset.range s.cfg.domain := by
    simpa using hdomain
  simpa using Finset.card_le_card_of_injOn _ hmaps hinj

section
variable {s t : State}

/-- The alphabet's invariant looks at the parameters, AVALID, N, FWD and REV alone. -/
theorem alphabetInv_congr (hs : s.AlphabetInv) (hcfg : t.cfg = s.cfg) (ha : t.avalid = s.avalid) (hn : t.n = s.n)
    (hfwd : ∀ i < 255, t.elem .fwd i = s.elem .fwd i) (hrev : ∀ c < s.cfg.domain, t.elem .rev c = s.elem .rev c) :
    t.AlphabetInv := by
  obtain ⟨hheld, hnone⟩ := hs
  rw [State.AlphabetInv, State.AlphabetHeld, hcfg, ha, hn]
  refine ⟨fun h => ?_, fun h => ?_⟩
  · obtain ⟨hle, ⟨hrange, hdomain, hdistinct⟩, hdigit, hother⟩ := hheld h
    have hfwd' : ∀ i < s.n.toNat, t.elem .fwd i = s.elem .fwd i := fun i hi => hfwd i (by omega)
    refine ⟨hle, ⟨hrange, fun i hi => ?_, fun j hj i hij => ?_⟩, fun d hd => ?_, fun c hc hnot => ?_⟩
    · rw [hfwd' i hi, hcfg]; exact hdomain i hi
    · rw [hfwd' i (by omega), hfwd' j hj]; exact hdistinct j hj i hij
    · rw [hfwd' d hd, hrev _ (hdomain d hd)]; exact hdigit d hd
    · rw [hcfg] at hc
      rw [hrev c hc]
      exact hother c hc fun d hd => hfwd' d hd ▸ hnot d hd
  · obtain ⟨hzero, hinvalid⟩ := hnone h
    exact ⟨hzero, fun c hc => (hrev c hc).trans (hinvalid c hc)⟩

theorem alphabetInv_of_none (ha : t.avalid = false) (hn : t.n = 0#8)
    (hrev : ∀ c < t.cfg.domain, t.elem .rev c = invalidMark) : t.AlphabetInv :=
  ⟨fun h => by simp [ha] at h, fun _ => ⟨hn, hrev⟩⟩

/-- ABUILD leaves a valid alphabet with its reverse, or none (R113). -/
theorem abuild_alphabetInv {n : Nat} (h : exec (.abuild n) s = .next t) : t.AlphabetInv := by
  obtain ⟨-, hbuild⟩ := abuildSucceedsExactlyOnValidAlphabets
  obtain ⟨hyes, hno⟩ := hbuild n s
  by_cases hvalid : s.ValidAlphabet n
  · obtain ⟨m, hexec, -, hdigit, hother, hsame⟩ := hyes hvalid
    cases hexec.symm.trans h
    have hle := validAlphabet_le_domain hvalid
    obtain ⟨⟨hn2, hn255⟩, hdomain, hdistinct⟩ := hvalid
    have hn : (BitVec.ofNat 8 n).toNat = n := by rw [BitVec.toNat_ofNat, Nat.mod_eq_of_lt (by omega)]
    have hcmax := cmax_le s.cfg
    have hfwd : ∀ i < n, m.read (0x4000 + i) = s.elem .fwd i := fun i hi =>
      hsame _ (by rw [db_within_iff]; omega) (by rw [rev_within_iff]; omega)
    refine ⟨fun _ => ?_, nofun⟩
    simp only [hn]
    refine ⟨hle, ⟨⟨hn2, hn255⟩, fun i hi => ?_, fun j hj i hij => ?_⟩, fun d hd => ?_, fun c hc hnot => ?_⟩
    · exact (congrArg _ (hfwd i hi)).trans_lt (hdomain i hi)
    · have hne := hdistinct j hj i hij
      rw [← hfwd i (by omega), ← hfwd j hj] at hne
      exact hne
    · have hread := hdigit d hd
      rw [← hfwd d hd] at hread
      exact hread
    · exact hother c hc fun d hd => hfwd d hd ▸ hnot d hd
  · obtain ⟨m, hexec, -, hrev, -⟩ := hno hvalid
    cases hexec.symm.trans h
    exact alphabetInv_of_none rfl rfl hrev

/-- A command other than ABUILD writes none of what the alphabet's invariant looks at (R22, R23, R35, R36). -/
theorem exec_keeps_alphabetInv {i : Instr} (hs : s.AlphabetInv) (h : exec i s = .next t) : t.AlphabetInv := by
  by_cases hi : i.mnemonic = "ABUILD"
  · obtain ⟨n, rfl⟩ : ∃ n, i = .abuild n := by
      cases i <;> simp [Instr.mnemonic] at hi ⊢
    exact abuild_alphabetInv h
  · obtain ⟨u, heffect⟩ := exec_effect h
    obtain ⟨hcfg, -, -, -, hkept, -⟩ := registersWrittenOnlyByNamedCommands i s t h
    obtain ⟨hn, ha⟩ := hkept hi
    have hfwd : Buf.fwd ∉ writtenBuffers i := fun hb => by simpa using mnemonic_of_mem_writtenBuffers hb
    have hrev : Buf.rev ∉ writtenBuffers i := fun hb => by simpa [hi] using mnemonic_of_mem_writtenBuffers hb
    exact alphabetInv_congr hs hcfg ha hn (fun _ => heffect.memory.elem hfwd) fun _ => heffect.memory.elem hrev

end

theorem keptByEvents_alphabetInv : KeptByEvents State.AlphabetInv where
  reset c := alphabetInv_of_none rfl rfl fun _ hi => resetWith_elem c .rev hi
  port _ _ _ hs := hs
  command := exec_keeps_alphabetInv
  slen hs _ := hs
  bytes {s b i} v hs hb hi := by
    have hmem : Rewrites s.cfg [b] s.mem (s.mem.write (b.base + i) v) := Rewrites.refl.write v (by simp) hi
    refine alphabetInv_congr hs rfl rfl rfl (fun j hj => hmem.elem ?_ hj) fun j hj => hmem.elem ?_ hj
    all_goals obtain rfl | rfl := hb <;> simp
  fwd {s i} v _ _ := alphabetInv_of_none rfl rfl fun c hc => by
    rw [State.elem, read_invalidateAlphabet, if_pos]
    exact ⟨Nat.le_add_right _ _, Nat.add_lt_add_left hc _⟩

/-! ### The obligations -/

/-- Settles O7: `step_idle`. -/
theorem idleStepKeepsState : Obligations.IdleStepKeepsState := fun _ => step_idle

/-- Settles O11: the element's location takes bytes, and a byte keeps its number. -/
theorem byteWriteStoresOneElement : Obligations.ByteWriteStoresOneElement := by
  intro s b i addr data rest hb hi ha h
  have hwritable : b.hostWritable = true := by obtain rfl | rfl := hb <;> rfl
  have hne : b ≠ .fwd := by obtain rfl | rfl := hb <;> nofun
  refine ⟨fun hd => ?_, fun hd => ?_⟩
  · have hstep := step_write_elem h hwritable hi ha hd rfl
    rw [if_neg hne] at hstep
    refine ⟨_, hstep, ?_, fun a hother => ?_⟩
    · rw [read_write, if_pos rfl, BitVec.toNat_setWidth, Nat.mod_eq_of_lt (by omega)]
    · rw [read_write, if_neg hother]
  · refine step_write_refused h (.inr (.inr (.inl ⟨?_, hd⟩)))
    have hin : b.Within (b.size s.cfg) addr.toNat := by rw [ha]; exact ⟨by omega, by omega⟩
    obtain rfl | rfl := hb
    · exact .inl hin
    · exact .inr (.inl hin)

/-- Settles O13: the registers by definition, the elements as what the empty memory reads. -/
theorem resetGivesTableValues : Obligations.ResetGivesTableValues := by
  refine ⟨fun c => ⟨rfl, rfl, rfl, rfl, rfl, rfl, rfl, rfl, rfl, rfl, rfl, fun _ => resetWith_elem c .bb,
    fun _ => resetWith_elem c .db, fun _ => resetWith_elem c .sb, fun _ => resetWith_elem c .fwd,
    fun _ => resetWith_elem c .rev⟩, rfl, fun s rest h => ?_⟩
  rw [step_event h, takeEvent, resetEvent]

/-- Settles O14: nothing is held, and the memory lists nothing. -/
theorem resetMeetsInvariants : Obligations.ResetMeetsInvariants := fun c => ⟨inv_resetWith c, wf_nil, nofun⟩

/-- Settles O17: no event but ABUILD, a write to FWD and reset touches the alphabet, and each leaves it consistent. -/
theorem stepKeepsAlphabetTables : Obligations.StepKeepsAlphabetTables := fun _ _ => keptByEvents_alphabetInv.step

/-- Settles O18: element writes and restores keep the canonical form. -/
theorem stepKeepsMemoryCanonical : Obligations.StepKeepsMemoryCanonical := fun _ _ => keptByEvents_wf.step

/-- Settles O19: element writes list addresses of elements alone. -/
theorem stepKeepsMemoryMapped : Obligations.StepKeepsMemoryMapped := fun _ _ => keptByEvents_mapped.step

end Sys2Proof.Machine.Steps

/-! PROOFS. The encode inject (41_encode.md sections 2 and 3): its laws on a list of digits, the position loop over a
padded buffer, and EINJ. Digits below the radix are fixed by their number and their value, which makes the padded loop
give the digits of the growing one; and a carry is left exactly when the value needs more digits than there is room
for. Settles EncodeInjectLaws, PresizedBufferGivesSameDigits and EinjInjectsByte. -/

namespace Sys2Proof.Machine.EncodeInject

open Sys2Proof.Machine.ByteToDigit

/-! ### Digits and their value (R14) -/

section
variable {base : Nat} {ds es : List Byte}

theorem valueLE_lt (hbase : 2 ≤ base) (hds : ∀ d ∈ ds, d.toNat < base) : valueLE base ds < base ^ ds.length := by
  have h := Nat.ofDigits_lt_base_pow_length (b := base) (l := ds.map BitVec.toNat) hbase (by simpa using hds)
  rwa [← valueLE_eq_ofDigits, List.length_map] at h

/-- As many digits with the same value are the same digits. -/
theorem digits_ext (hbase : 2 ≤ base) (hlen : ds.length = es.length) (hds : ∀ d ∈ ds, d.toNat < base)
    (hes : ∀ d ∈ es, d.toNat < base) (hval : valueLE base ds = valueLE base es) : ds = es := by
  rw [valueLE_eq_ofDigits, valueLE_eq_ofDigits] at hval
  have hmap : ds.map BitVec.toNat = es.map BitVec.toNat :=
    Nat.ofDigits_inj_of_len_eq hbase (by simpa using hlen) (by simpa using hds) (by simpa using hes) hval
  exact (List.map_injective_iff.2 fun _ _ => BitVec.eq_of_toNat_eq) hmap

/-- A carry above as many digits as hold the value is 0. -/
theorem carry_eq_zero_of_value (hbase : 2 ≤ base) (hes : ∀ d ∈ es, d.toNat < base) (hlen : ds.length = es.length)
    {c : Nat} (hval : valueLE base ds + c * base ^ ds.length = valueLE base es) : c = 0 := by
  have hlt := valueLE_lt hbase hes
  rw [← hlen] at hlt
  by_contra hc
  have hge := Nat.mul_le_mul_right (base ^ ds.length) (Nat.one_le_iff_ne_zero.2 hc)
  omega

theorem forall_mem_append_zeros (hbase : 2 ≤ base) (hds : ∀ d ∈ ds, d.toNat < base) (k : Nat) :
    ∀ d ∈ ds ++ List.replicate k 0#8, d.toNat < base := by
  refine List.forall_mem_append.2 ⟨hds, fun d hd => ?_⟩
  rw [List.eq_of_mem_replicate hd, BitVec.toNat_zero]
  omega

end

/-! ### The inject on a list of digits (R132, R133) -/

section
variable {n b : Byte} {room : Nat} {ds ds' : List Byte}

/-- R133 (a) and (b) of an inject that leaves no carry. -/
theorem encDigits_exact (hn : 2 ≤ n.toNat) (hds : ∀ d ∈ ds, d.toNat < n.toNat)
    (h : encDigits n b room ds = some (ds', 0#8)) :
    valueLE n.toNat ds' = 256 * valueLE n.toNat ds + b.toNat ∧ ∀ d ∈ ds', d.toNat < n.toNat := by
  obtain ⟨es, c, henc, hval, hlt, -, -⟩ := encDigits_value hn b room ds hds
  rw [h, Option.some.injEq, Prod.mk.injEq] at henc
  obtain ⟨rfl, rfl⟩ := henc
  rw [BitVec.toNat_zero, Nat.zero_mul, Nat.add_zero] at hval
  exact ⟨hval, hlt⟩

/-- An inject that leaves no carry gives as many digits as it had, or as the new value needs, whichever is more. -/
theorem encDigits_length_eq_max (hn : 2 ≤ n.toNat) (hds : ∀ d ∈ ds, d.toNat < n.toNat)
    (h : encDigits n b room ds = some (ds', 0#8)) :
    ds'.length = max ds.length (Nat.digits n.toNat (256 * valueLE n.toNat ds + b.toNat)).length := by
  obtain ⟨hval, hlt⟩ := encDigits_exact hn hds h
  have hfits : (Nat.digits n.toNat (256 * valueLE n.toNat ds + b.toNat)).length ≤ ds'.length := by
    rw [Nat.digits_length_le_iff hn, ← hval]
    exact valueLE_lt hn hlt
  have hgrown : ds.length ≤ ds'.length := (encDigits_length h).1
  obtain ⟨rs, q, as, c, hpos, happ, hpair⟩ := encDigits_eq_some.1 h
  obtain ⟨rfl, rfl⟩ := Prod.mk.inj hpair
  obtain ⟨es, c, happ', -, -, -, htop⟩ := encAppend_value hn room q
  rw [happ, Option.some.injEq, Prod.mk.injEq] at happ'
  obtain ⟨rfl, rfl⟩ := happ'
  by_cases has : as = []
  · have hlen : (rs ++ as).length = ds.length := by rw [has, List.append_nil, encPositions_length hpos]
    omega
  · have hmin := minimalDigits_of_topNonzero hn hlt ((topNonzero_append has).2 (htop rfl))
    rw [hval] at hmin
    have hlen := hmin.length
    omega

/-- Settles O32: the laws of the value with the lengths of the passes. -/
theorem encodeInjectLaws : Obligations.EncodeInjectLaws := by
  intro n b room ds hn hds
  obtain ⟨ds', c, henc, hval, hlt, hfull, htop⟩ := encDigits_value hn b room ds hds
  obtain ⟨hge, hle⟩ := encDigits_length henc
  exact ⟨ds', c, henc, hval, hlt, hge, hle, hfull, htop⟩

/-- Settles O33: both loops leave the same value in as many digits. -/
theorem presizedBufferGivesSameDigits : Obligations.PresizedBufferGivesSameDigits := by
  intro n b room k ds ds' hn hds h hk
  obtain ⟨hval, hlt⟩ := encDigits_exact hn hds h
  rw [← valueLE_append_zeros _ k ds, ← valueLE_append_zeros _ (ds.length + k - ds'.length) ds'] at hval
  obtain ⟨rs, c, hpos, hrval, hrs, -⟩ :=
    encPositions_value hn b (ds ++ List.replicate k 0#8) (forall_mem_append_zeros hn hds k)
  have hlen : rs.length = (ds' ++ List.replicate (ds.length + k - ds'.length) 0#8).length := by
    rw [encPositions_length hpos]
    simp only [List.length_append, List.length_replicate]
    omega
  have hlt' := forall_mem_append_zeros hn hlt (ds.length + k - ds'.length)
  rw [← encPositions_length hpos, ← hval] at hrval
  have hc := carry_eq_zero_of_value hn hlt' hlen hrval
  rw [hc, Nat.zero_mul, Nat.add_zero] at hrval
  rw [hpos, digits_ext hn hlen hrs hlt' hrval, BitVec.eq_of_toNat_eq (y := 0#8) hc]

end

/-! ### The inject on the state (R132, R135) -/

/-- What an encode inject leaves in the digit buffer, DLEN and the carry. -/
structure InjectLeaves (s : State) (b : Byte) (m : Memory) (len : Half) (c : Byte) : Prop where
  value : ({ s with dlen := len, mem := m } : State).digitsLE + c.toNat * s.n.toNat ^ len.toNat
    = 256 * s.digitsLE + b.toNat
  room : len.toNat ≤ s.cfg.cmax
  digit_lt : ∀ i < len.toNat, (m.read (0x2000 + i)).toNat < s.n.toNat
  grown : s.dlen.toNat ≤ len.toNat
  full : c ≠ 0#8 → len.toNat = s.cfg.cmax
  length : c = 0#8 → len.toNat = max s.dlen.toNat (Nat.digits s.n.toNat (256 * s.digitsLE + b.toNat)).length
  frame : SameOutside .db len.toNat s.mem m

section
variable {s : State} {b : Byte} {m : Memory} {len : Half} {c : Byte}

theorem encInject_leaves (hn : 2 ≤ s.n.toNat) (hdlen : s.dlen.toNat ≤ s.cfg.cmax)
    (hdigits : ∀ i < s.dlen.toNat, (s.elem .db i).toNat < s.n.toNat) (b : Byte) :
    ∃ m len c, encInject b s = .ok { s with dlen := len, carry := c, mem := m } ∧ InjectLeaves s b m len c := by
  have hds : ∀ d ∈ s.elems .db s.dlen.toNat, d.toNat < s.n.toNat := fun d hd => by
    obtain ⟨i, hi, rfl⟩ := mem_elems.1 hd
    exact hdigits i hi
  obtain ⟨ds, c, henc, hval, hlt, hfull, -⟩ := encDigits_value hn b (s.cfg.cmax - s.dlen.toNat) _ hds
  obtain ⟨hgrown, hroom⟩ := encDigits_length henc
  simp only [elems_length] at hfull hgrown hroom
  have hcmax := cmax_le s.cfg
  have hlen : (BitVec.ofNat 16 ds.length).toNat = ds.length := by
    rw [BitVec.toNat_ofNat, Nat.mod_eq_of_lt (by omega)]
  have hback : ({ s with mem := s.mem.store 0x2000 ds } : State).elems .db ds.length = ds := elems_store s .db ds
  refine ⟨s.mem.store 0x2000 ds, BitVec.ofNat 16 ds.length, c, encInject_ok.2 ⟨hdlen, ds, c, henc, rfl⟩, ?_⟩
  constructor <;> simp only [hlen]
  case value =>
    rw [State.digitsLE, hlen]
    exact hback.symm ▸ hval
  case room => omega
  case digit_lt =>
    intro i hi
    rw [read_store_inside hi]
    exact hlt _ (List.getElem_mem hi)
  case grown => exact hgrown
  case full => exact fun hc => (hfull hc).trans (by omega)
  case length =>
    rintro rfl
    have hmax := encDigits_length_eq_max hn hds henc
    rwa [elems_length] at hmax
  case frame => exact fun a ha => read_store_outside ha

/-- Digits below the radix have a value below its power. -/
theorem digitsLE_lt (hn : 2 ≤ s.n.toNat) (hdigits : ∀ i < s.dlen.toNat, (s.elem .db i).toNat < s.n.toNat) :
    s.digitsLE < s.n.toNat ^ s.dlen.toNat := by
  have h := valueLE_lt hn (ds := s.elems .db s.dlen.toNat) fun d hd => by
    obtain ⟨i, hi, rfl⟩ := mem_elems.1 hd
    exact hdigits i hi
  rwa [elems_length] at h

theorem InjectLeaves.value_lt (h : InjectLeaves s b m len c) (hn : 2 ≤ s.n.toNat) :
    ({ s with dlen := len, mem := m } : State).digitsLE < s.n.toNat ^ len.toNat :=
  digitsLE_lt (s := { s with dlen := len, mem := m }) hn h.digit_lt

/-- A carry is left exactly when the new value needs more than CMAX digits. -/
theorem InjectLeaves.carry_eq_zero_iff (h : InjectLeaves s b m len c) (hn : 2 ≤ s.n.toNat) :
    c = 0#8 ↔ 256 * s.digitsLE + b.toNat < s.n.toNat ^ s.cfg.cmax := by
  have hval := h.value
  constructor
  · rintro rfl
    rw [BitVec.toNat_zero, Nat.zero_mul, Nat.add_zero] at hval
    rw [← hval]
    exact (h.value_lt hn).trans_le (Nat.pow_le_pow_right (by omega) h.room)
  · intro hfits
    by_contra hc
    have hpos : 1 ≤ c.toNat := Nat.one_le_iff_ne_zero.2 fun h0 => hc (BitVec.eq_of_toNat_eq h0)
    have hge := Nat.mul_le_mul_right (s.n.toNat ^ s.cfg.cmax) hpos
    rw [h.full hc] at hval
    omega

end

/-- Settles O37: the carry decides the outcome, and the digits and the carry are remainder and quotient by N^CMAX. -/
theorem einjInjectsByte : Obligations.EinjInjectsByte := by
  intro b s hbelow halpha ⟨_, hdlen, _⟩ ha hb
  obtain ⟨-, ⟨⟨hn, -⟩, -⟩, -⟩ := halpha ha
  have hbyte : (BitVec.ofNat 8 b).toNat = b := by rw [BitVec.toNat_ofNat, Nat.mod_eq_of_lt (by omega)]
  obtain ⟨m, len, c, hinject, hleaves⟩ :=
    encInject_leaves hn hdlen (fun i hi => hbelow ha i (by omega)) (BitVec.ofNat 8 b)
  have hexec : exec (.einj b) s = .next _ := execEinj_next.2 (.inr (.inr ⟨ha, hb, _, hinject, rfl⟩))
  have hiff := hleaves.carry_eq_zero_iff hn
  have hval := hleaves.value
  have hlength := hleaves.length
  rw [hbyte] at hiff hval hlength
  refine ⟨fun hfits => ?fits, fun hexceeds => ?exceeds⟩
  case fits =>
    obtain rfl := hiff.2 hfits
    rw [BitVec.toNat_zero, Nat.zero_mul, Nat.add_zero] at hval
    exact ⟨m, len, hexec, hlength rfl, hleaves.room, hleaves.digit_lt, hval, hleaves.frame⟩
  case exceeds =>
    have hc : c ≠ 0#8 := fun h0 => Nat.not_le.2 (hiff.1 h0) hexceeds
    have hfull := hleaves.full hc
    have hlt := hleaves.value_lt hn
    rw [if_pos hc] at hexec
    rw [hfull] at hval hlt
    refine ⟨m, len, c, hexec, hfull, hc, hleaves.digit_lt, ?_, ?_, hfull ▸ hleaves.frame⟩
    · rw [← hval, Nat.add_mul_div_right _ _ (by positivity), Nat.div_eq_of_lt hlt, Nat.zero_add]
    · rw [← hval, Nat.add_mul_mod_self_right, Nat.mod_eq_of_lt hlt]

end Sys2Proof.Machine.EncodeInject

/-! PROOFS. The laws of the encoded string (41_encode.md section 5): the string of an encode is the spelling of a list
of digits, most significant first, whose value is that of BB. As many digits with the same value are the same digits,
so the padded string is the minimal one behind zero digits; and as many digits compare from the front as their values
do. Settles PaddedTextExtendsMinimalText and PaddedTextKeepsOrder. -/

namespace Sys2Proof.Machine.EncodedText

open Sys2Proof.Machine.ByteToDigit Sys2Proof.Machine.EncodeInject

/-! ### Digits, most significant first -/

section
variable {base : Nat} {ds es : List Byte}

theorem valueBE_lt (hbase : 2 ≤ base) (hds : ∀ d ∈ ds, d.toNat < base) : valueBE base ds < base ^ ds.length := by
  have h := valueLE_lt hbase (ds := ds.reverse) (by simpa using hds)
  rwa [List.length_reverse] at h

/-- More digits with the same value have zero digits in front. -/
theorem eq_zeros_append (hbase : 2 ≤ base) (hlen : es.length ≤ ds.length) (hds : ∀ d ∈ ds, d.toNat < base)
    (hes : ∀ d ∈ es, d.toNat < base) (hval : valueBE base ds = valueBE base es) :
    ds = List.replicate (ds.length - es.length) 0#8 ++ es := by
  have hval' : valueLE base ds.reverse
      = valueLE base (es.reverse ++ List.replicate (ds.length - es.length) 0#8) := by
    rw [valueLE_append_zeros]
    exact hval
  have hrev := digits_ext hbase (by simp; omega) (by simpa using hds)
    (forall_mem_append_zeros hbase (by simpa using hes) _) hval'
  rw [← List.reverse_inj, hrev]
  simp

/-- Equally long lists of digits have the order of their values, through any map that keeps the order of the digits. -/
theorem map_lt_map_of_valueBE_lt (hbase : 2 ≤ base) {f : Byte → Nat}
    (hf : ∀ d e : Byte, e.toNat < base → d.toNat < e.toNat → f d < f e) (hlen : ds.length = es.length)
    (hds : ∀ d ∈ ds, d.toNat < base) (hes : ∀ e ∈ es, e.toNat < base) (h : valueBE base ds < valueBE base es) :
    ds.map f < es.map f := by
  induction ds generalizing es with
  | nil =>
    obtain rfl : es = [] := List.length_eq_zero_iff.1 hlen.symm
    exact absurd h (Nat.lt_irrefl _)
  | cons d ds ih =>
    obtain _ | ⟨e, es⟩ := es
    · cases hlen
    · obtain ⟨-, hds'⟩ := List.forall_mem_cons.1 hds
      obtain ⟨he, hes'⟩ := List.forall_mem_cons.1 hes
      have hlen' : ds.length = es.length := by simpa using hlen
      rw [valueBE_cons, valueBE_cons, hlen'] at h
      rw [List.map_cons, List.map_cons, List.cons_lt_cons_iff]
      obtain hlt | heq | hgt := Nat.lt_trichotomy d.toNat e.toNat
      · exact .inl (hf d e he hlt)
      · obtain rfl := BitVec.eq_of_toNat_eq heq
        exact .inr ⟨rfl, ih hlen' hds' hes' (by omega)⟩
      · have hbound := valueBE_lt hbase hes'
        have hstep := Nat.mul_le_mul_right (base ^ es.length) hgt
        rw [Nat.succ_mul] at hstep
        omega

end

/-! ### The string of an encode -/

section
variable {s : State} {v : Nat} {k : Half} {m : Memory}

/-- The digits an encode leaves in DB, most significant first. -/
def encodedDigits (s : State) (k : Half) (m : Memory) : List Byte := ({ s with mem := m } : State).elems .db k.toNat

theorem encodedDigits_lt (h : LeavesText s v k m) : ∀ d ∈ encodedDigits s k m, d.toNat < s.n.toNat := by
  intro d hd
  obtain ⟨i, hi, rfl⟩ := mem_elems.1 hd
  exact h.digit_lt i hi

theorem encodedDigits_value (h : LeavesText s v k m) : valueBE s.n.toNat (encodedDigits s k m) = v := h.value

/-- The string spells the digits (R137). -/
theorem text_eq_map_fwd (h : LeavesText s v k m) {t : State} (hslen : t.slen = k) (hmem : t.mem = m) :
    t.text = (encodedDigits s k m).map fun d => s.elem .fwd d.toNat := by
  rw [State.text, hslen]
  refine elems_eq_of_getElem (by simp [encodedDigits]) fun i hi => ?_
  have hik : i < k.toNat := by simpa [encodedDigits] using hi
  simp only [encodedDigits, List.getElem_map, elems_getElem]
  rw [State.elem, hmem]
  exact h.spelled i hik

end

/-! ### The obligations -/

/-- Settles O42: both strings spell the value of BB, and the minimal one is no longer than W. -/
theorem paddedTextExtendsMinimalText : Obligations.PaddedTextExtendsMinimalText := by
  intro s hinv ha
  obtain ⟨hn, -⟩ := radix_bounds hinv ha
  obtain ⟨m, width, bound, hencf, hwidth, -, htext⟩ := execEncf_leavesText hinv ha
  obtain ⟨m', len, hencm, hlen, -, htext', -⟩ := execEncm_leavesText hinv ha
  have hle : len.toNat ≤ width.toNat := by
    rw [hlen, hwidth]
    exact digits_length_le_paddedWidth (bytesBE_lt s)
  have hdigits := eq_zeros_append hn (by simpa [encodedDigits] using hle) (encodedDigits_lt htext)
    (encodedDigits_lt htext') ((encodedDigits_value htext).trans (encodedDigits_value htext').symm)
  refine ⟨_, _, hencf, hencm, hle, ?_⟩
  rw [text_eq_map_fwd htext rfl rfl, text_eq_map_fwd htext' rfl rfl, hdigits]
  simp [encodedDigits]

/-- Settles O43: both strings have W digits, and an increasing FWD keeps the order of the digits. -/
theorem paddedTextKeepsOrder : Obligations.PaddedTextKeepsOrder := by
  intro s₁ s₂ hinv₁ hinv₂ ha₁ ha₂ hl hnn hfwd hincreasing hlt
  obtain ⟨hn, -⟩ := radix_bounds hinv₁ ha₁
  obtain ⟨m₁, width₁, bound₁, hexec₁, hwidth₁, -, htext₁⟩ := execEncf_leavesText hinv₁ ha₁
  obtain ⟨m₂, width₂, bound₂, hexec₂, hwidth₂, -, htext₂⟩ := execEncf_leavesText hinv₂ ha₂
  rw [← hl, ← hnn] at hwidth₂
  refine ⟨_, _, hexec₁, hexec₂, ?_⟩
  have hlt₁ := encodedDigits_lt htext₁
  have hlt₂ := encodedDigits_lt htext₂
  have hval₁ := encodedDigits_value htext₁
  have hval₂ := encodedDigits_value htext₂
  rw [← hnn] at hlt₂ hval₂
  have hchars : (encodedDigits s₂ width₂ m₂).map (fun d => s₂.elem .fwd d.toNat)
      = (encodedDigits s₂ width₂ m₂).map fun d => s₁.elem .fwd d.toNat :=
    List.map_congr_left fun d hd => (hfwd _ (hlt₂ d hd)).symm
  rw [text_eq_map_fwd htext₁ rfl rfl, text_eq_map_fwd htext₂ rfl rfl, hchars, List.map_map, List.map_map]
  exact map_lt_map_of_valueBE_lt hn (fun d e he hde => hincreasing _ he _ hde)
    (by simp [encodedDigits, hwidth₁, hwidth₂]) hlt₁ hlt₂ (by rwa [hval₁, hval₂])

end Sys2Proof.Machine.EncodedText

/-! PROOFS. Two small laws of the commands (30_encoding.md section 2, 41_encode.md section 3, 42_decode.md section 3):
an operand out of range, and a reversal run twice. Settles OperandOutOfRangeFails and ReversalTwiceRestoresBuffer. -/

namespace Sys2Proof.Machine.CommandLaws

open Sys2Proof.Machine.Configuration Sys2Proof.Machine.ByteToDigit Sys2Proof.Machine.DigitToByte

/-- Settles O24: each range check is the first thing after the alphabet test. -/
theorem operandOutOfRangeFails : Obligations.OperandOutOfRangeFails :=
  ⟨fun _ _ => exec_setl_of_gt, fun _ _ ha hb => execEinj_next.2 (.inr (.inl ⟨ha, hb, rfl⟩)),
    fun _ _ ha hd => execDinj_next.2 (.inr (.inl ⟨ha, hd, rfl⟩))⟩

/-- Element i goes to place k − 1 − i and back. -/
theorem read_of_reversed_twice {b : Buf} {k : Nat} {m m' m'' : Memory}
    (h : ∀ i < k, m'.read (b.base + i) = m.read (b.base + (k - 1 - i))) (hsame : SameOutside b k m m')
    (h' : ∀ i < k, m''.read (b.base + i) = m'.read (b.base + (k - 1 - i))) (hsame' : SameOutside b k m' m'')
    (a : Nat) : m''.read a = m.read a := by
  by_cases ha : b.Within k a
  · obtain ⟨i, rfl⟩ := Nat.exists_eq_add_of_le ha.1
    have hi : i < k := by omega
    rw [h' i hi, h _ (by omega), show k - 1 - (k - 1 - i) = i by omega]
  · rw [hsame' a ha, hsame a ha]

/-- Settles O47: neither reversal changes the length it reverses. -/
theorem reversalTwiceRestoresBuffer : Obligations.ReversalTwiceRestoresBuffer := by
  rintro i s (⟨rfl, hlen⟩ | ⟨rfl, hlen⟩)
  · obtain ⟨-, hdrev⟩ := drevReversesDigits
    obtain ⟨m, hexec, hread, hsame⟩ := hdrev s hlen
    obtain ⟨m', hexec', hread', hsame'⟩ := hdrev { s with err := .ok, mem := m } hlen
    exact ⟨_, _, hexec, hexec', read_of_reversed_twice (b := .db) hread hsame hread' hsame'⟩
  · obtain ⟨-, hbrev⟩ := brevReversesBytes
    obtain ⟨m, hexec, hread, hsame⟩ := hbrev s hlen
    obtain ⟨m', hexec', hread', hsame'⟩ := hbrev { s with err := .ok, mem := m } hlen
    exact ⟨_, _, hexec, hexec', read_of_reversed_twice (b := .bb) hread hsame hread' hsame'⟩

end Sys2Proof.Machine.CommandLaws

/-! PROOFS. The two decodes (42_decode.md sections 4 and 5). What the character loop of DECF and DECM ends with is a
function of the radix, the lookup, the bytes it starts from and the string: `decodeResult`. One lemma ties it to the
loop on the state, and one to each command, so a law of the decodes is a law of `decodeResult`: characters that spell
a value that fits are passed over, and the next one decides. Settles DecmDecodesText, DecmFailsAtFirstBadCharacter,
DecfDecodesFullWidthText, DecfRefusesOtherLengths, DecfIsDecmAtFullWidth, LeadingZeroCharacterIgnored and
CarryAfterCommand. -/

namespace Sys2Proof.Machine.Decoding

open Sys2Proof.Machine.HostPort Sys2Proof.Machine.Configuration Sys2Proof.Machine.ByteToDigit
  Sys2Proof.Machine.DigitToByte Sys2Proof.Machine.Length Sys2Proof.Machine.Effects Sys2Proof.Machine.EncodeInject

/-! ### The result of the character loop (R167 to R169) -/

/-- The code, the carry and the bytes a decode ends with. -/
structure DecodeResult where
  err : ErrCode
  carry : Byte
  bytes : List Byte

/-- A decode that ends with the code `e` and the carry `c` clears its `k` bytes (R168). -/
def failedResult (e : ErrCode) (c : Byte) (k : Nat) : DecodeResult := ⟨e, c, List.replicate k 0#8⟩

/-- The result of the character loop on the bytes `bs`, least significant first. -/
def decodeResult (n : Byte) (digit : Byte → Option Byte) : List Byte → List Byte → DecodeResult
  | bs, [] => ⟨.ok, 0#8, bs.reverse⟩
  | bs, c :: cs =>
    match digit c with
    | none => failedResult .invchar 0#8 bs.length
    | some d =>
      if (decBytes n d bs).2 = 0#8 then decodeResult n digit (decBytes n d bs).1 cs
      else failedResult .overflow (decBytes n d bs).2 bs.length

section
variable {n : Byte} {digit : Byte → Option Byte} {bs cs : List Byte} {c d : Byte}

@[simp] theorem decodeResult_nil : decodeResult n digit bs [] = ⟨.ok, 0#8, bs.reverse⟩ := rfl

theorem decodeResult_invalid (h : digit c = none) :
    decodeResult n digit bs (c :: cs) = failedResult .invchar 0#8 bs.length := by
  rw [decodeResult, h]

theorem decodeResult_fits (h : digit c = some d) (hc : (decBytes n d bs).2 = 0#8) :
    decodeResult n digit bs (c :: cs) = decodeResult n digit (decBytes n d bs).1 cs := by
  simp only [decodeResult, h, if_pos hc]

theorem decodeResult_overflows (h : digit c = some d) (hc : (decBytes n d bs).2 ≠ 0#8) :
    decodeResult n digit bs (c :: cs) = failedResult .overflow (decBytes n d bs).2 bs.length := by
  simp only [decodeResult, h, if_neg hc]

/-- Success leaves no carry, and no carry reaches the radix (R41 I7). -/
theorem decodeResult_carry (hn : 0 < n.toNat) (hdigit : ∀ {c d}, digit c = some d → d.toNat < n.toNat) :
    ((decodeResult n digit bs cs).err = .ok → (decodeResult n digit bs cs).carry = 0#8)
      ∧ (decodeResult n digit bs cs).carry.toNat < n.toNat := by
  induction cs generalizing bs with
  | nil => exact ⟨fun _ => rfl, hn⟩
  | cons c cs ih =>
    cases hc : digit c with
    | none =>
      rw [decodeResult_invalid hc]
      exact ⟨nofun, hn⟩
    | some d =>
      by_cases hfits : (decBytes n d bs).2 = 0#8
      · rw [decodeResult_fits hc hfits]
        exact ih
      · rw [decodeResult_overflows hc hfits]
        exact ⟨nofun, decBytes_carry_lt bs (hdigit hc)⟩

/-- Characters that spell digits whose value, behind that of the bytes, fits the bytes are passed over. -/
theorem decodeResult_append {before ds : List Byte} (hn : 0 < n.toNat)
    (hspells : before.map digit = ds.map some)
    (hfits : valueLE 256 bs * n.toNat ^ ds.length + valueBE n.toNat ds < 256 ^ bs.length) :
    ∃ bs', bs'.length = bs.length
      ∧ valueLE 256 bs' = valueLE 256 bs * n.toNat ^ ds.length + valueBE n.toNat ds
      ∧ ∀ rest, decodeResult n digit bs (before ++ rest) = decodeResult n digit bs' rest := by
  induction before generalizing bs ds with
  | nil =>
    obtain rfl : ds = [] := by simpa using hspells.symm
    exact ⟨bs, rfl, by simp [valueBE, valueLE], fun _ => rfl⟩
  | cons c before ih =>
    obtain _ | ⟨d, ds⟩ := ds
    · cases hspells
    obtain ⟨hc, hspells'⟩ := List.cons.inj hspells
    have hvalue : valueLE 256 bs * n.toNat ^ (d :: ds).length + valueBE n.toNat (d :: ds)
        = (valueLE 256 bs * n.toNat + d.toNat) * n.toNat ^ ds.length + valueBE n.toNat ds := by
      rw [valueBE_cons, List.length_cons, pow_succ]; ring
    rw [hvalue] at hfits ⊢
    have hstep : valueLE 256 bs * n.toNat + d.toNat ≤ (valueLE 256 bs * n.toNat + d.toNat) * n.toNat ^ ds.length :=
      Nat.le_mul_of_pos_right _ (by positivity)
    have hone : valueLE 256 bs * n.toNat + d.toNat < 256 ^ bs.length := by omega
    have hbytes := decBytes_bytes_eq_mod n d bs
    rw [Nat.mod_eq_of_lt hone] at hbytes
    rw [← hbytes] at hfits ⊢
    obtain ⟨bs', hlen, hval, hrest⟩ := ih hspells' (bs := (decBytes n d bs).1) (by rwa [decBytes_length])
    refine ⟨bs', hlen.trans (decBytes_length ..), hval, fun rest => ?_⟩
    rw [List.cons_append, decodeResult_fits hc ((decBytes_carry_eq_zero_iff n d bs).2 hone), hrest]

theorem valueLE_zeros (base k : Nat) : valueLE base (List.replicate k 0#8) = 0 :=
  valueLE_append_zeros base k []

theorem valueBE_concat (base : Nat) (ds : List Byte) (d : Byte) :
    valueBE base (ds ++ [d]) = valueBE base ds * base + d.toNat := by
  rw [valueBE, List.reverse_append, List.reverse_singleton, List.singleton_append, valueLE, valueBE]
  ring

variable {k : Nat} {before after ds : List Byte}

/-- R169: characters that spell a value that fits give the value, big-endian. -/
theorem decodeResult_of_spells (hn : 0 < n.toNat) (hspells : cs.map digit = ds.map some)
    (hfits : valueBE n.toNat ds < 256 ^ k) :
    ∃ bs, decodeResult n digit (List.replicate k 0#8) cs = ⟨.ok, 0#8, bs⟩ ∧ valueBE 256 bs = valueBE n.toNat ds := by
  obtain ⟨bs, -, hval, hrest⟩ := decodeResult_append (bs := List.replicate k 0#8) hn hspells
    (by simpa [valueLE_zeros] using hfits)
  refine ⟨bs.reverse, by simpa using hrest [], ?_⟩
  rw [valueBE, List.reverse_reverse, hval, valueLE_zeros, Nat.zero_mul, Nat.zero_add]

/-- R169, R204: behind such characters one that is no character of the alphabet ends the decode. -/
theorem decodeResult_of_invalid (hn : 0 < n.toNat) (hspells : before.map digit = ds.map some)
    (hfits : valueBE n.toNat ds < 256 ^ k) (hc : digit c = none) :
    decodeResult n digit (List.replicate k 0#8) (before ++ c :: after) = failedResult .invchar 0#8 k := by
  obtain ⟨bs, hlen, -, hrest⟩ := decodeResult_append (bs := List.replicate k 0#8) hn hspells
    (by simpa [valueLE_zeros] using hfits)
  rw [hrest, decodeResult_invalid hc, hlen, List.length_replicate]

/-- R169, R204: behind such characters one with which the value no longer fits ends the decode. -/
theorem decodeResult_of_overflow (hn : 0 < n.toNat) (hspells : before.map digit = ds.map some)
    (hfits : valueBE n.toNat ds < 256 ^ k) (hc : digit c = some d)
    (hover : 256 ^ k ≤ valueBE n.toNat (ds ++ [d])) :
    ∃ carry, decodeResult n digit (List.replicate k 0#8) (before ++ c :: after) = failedResult .overflow carry k
      ∧ carry.toNat = valueBE n.toNat (ds ++ [d]) / 256 ^ k := by
  obtain ⟨bs, hlen, hval, hrest⟩ := decodeResult_append (bs := List.replicate k 0#8) hn hspells
    (by simpa [valueLE_zeros] using hfits)
  rw [valueLE_zeros, Nat.zero_mul, Nat.zero_add] at hval
  rw [List.length_replicate] at hlen
  rw [valueBE_concat, ← hval] at hover ⊢
  have hcarry := decBytes_carry_eq_div n d bs
  have hzero := decBytes_carry_eq_zero_iff n d bs
  rw [hlen] at hcarry hzero
  refine ⟨_, ?_, hcarry⟩
  rw [hrest, decodeResult_overflows hc fun h0 => Nat.not_le.2 (hzero.1 h0) hover, hlen]

/-- A zero digit injected into cleared bytes changes nothing. -/
theorem decBytes_zeros (n : Byte) (k : Nat) :
    decBytes n 0#8 (List.replicate k 0#8) = (List.replicate k 0#8, 0#8) := by
  have hunit : mac 0#8 n 0#8 = (0#8, 0#8) := by simp [mac]
  induction k with
  | zero => rfl
  | succ k ih => rw [List.replicate_succ, decBytes_cons, hunit, ih]

theorem decodeResult_leadingZero (hc : digit c = some 0#8) :
    decodeResult n digit (List.replicate k 0#8) (c :: cs) = decodeResult n digit (List.replicate k 0#8) cs := by
  have hzeros := decBytes_zeros n k
  rw [decodeResult_fits hc (by rw [hzeros]), hzeros]

end

/-! ### The loop on the state -/

/-- The memory `m` is that of `s` but for BB[0..L−1], which holds the bytes of the result. -/
structure LeavesBytes (s : State) (r : DecodeResult) (m : Memory) : Prop where
  bytes : ({ s with mem := m } : State).elems .bb s.l.toNat = r.bytes
  frame : SameOutside .bb s.l.toNat s.mem m

section
variable {s t : State} {r : DecodeResult} {m m' : Memory}

theorem elem_of_elems {b : Buf} {k : Nat} {vs : List Byte} (h : s.elems b k = vs) {i : Nat} (hi : i < vs.length) :
    s.elem b i = vs[i] := by
  subst h
  exact (elems_getElem s b k i hi).symm

theorem elem_eq_of_elems_eq {b : Buf} {k : Nat} (h : s.elems b k = t.elems b k) {i : Nat} (hi : i < k) :
    s.elem b i = t.elem b i :=
  (elem_of_elems h (by simpa using hi)).trans (elems_getElem t b k i _)

/-- Bytes written to BB change no element of another buffer (R37). -/
theorem elem_of_sameOutside_bytes {k : Nat} (hk : k ≤ s.cfg.lmax) (h : SameOutside .bb k s.mem m) {b : Buf}
    (hb : b ≠ .bb) {i : Nat} (hi : i < b.size s.cfg) : m.read (b.base + i) = s.elem b i := by
  refine h _ fun ⟨hlo, hhi⟩ => hb ?_
  exact holds_unique (c := s.cfg) (a := b.base + i) (holds_iff.2 (by omega))
    (holds_iff.2 ⟨hlo, by simp only [Buf.size]; omega⟩)

/-- The verdict looks at REV and DOMAIN alone (R114). -/
theorem lookup_congr (hcfg : t.cfg = s.cfg) (hrev : ∀ c < s.cfg.domain, t.elem .rev c = s.elem .rev c) :
    lookup t = lookup s := by
  funext c
  simp only [lookup, hcfg]
  split
  · rfl
  · rw [hrev _ (by omega)]

theorem lookup_of_sameOutside (hl : s.l.toNat ≤ s.cfg.lmax) (hcfg : t.cfg = s.cfg)
    (h : SameOutside .bb s.l.toNat s.mem t.mem) : lookup t = lookup s :=
  lookup_congr hcfg fun _ hc => elem_of_sameOutside_bytes hl h (b := .rev) nofun hc

theorem zeroBytes_leaves (hl : s.l.toNat ≤ s.cfg.lmax) :
    ∃ m, zeroBytes s = .ok { s with mem := m }
      ∧ ∀ e c, LeavesBytes s (failedResult e c s.l.toNat) m := by
  have hback := elems_store s .bb (List.replicate s.l.toNat 0#8)
  rw [List.length_replicate] at hback
  refine ⟨_, zeroBytes_ok.2 ⟨hl, rfl⟩, fun e c => ⟨hback, fun a ha => ?_⟩⟩
  exact read_store_outside (by simpa [Buf.base] using ha)

/-- A decode inject is one pass of `decBytes` over BB[0..L−1] (R162). -/
theorem decInject_bytes (d : Byte) (hl : s.l.toNat ≤ s.cfg.lmax) :
    ∃ m, decInject d s = .ok { s with mem := m, carry := (decBytes s.n d (s.elems .bb s.l.toNat)).2 }
      ∧ ({ s with mem := m, carry := (decBytes s.n d (s.elems .bb s.l.toNat)).2 } : State).elems .bb s.l.toNat
        = (decBytes s.n d (s.elems .bb s.l.toNat)).1
      ∧ SameOutside .bb s.l.toNat s.mem m := by
  have hback := elems_store s .bb (decBytes s.n d (s.elems .bb s.l.toNat)).1
  rw [decBytes_length, elems_length] at hback
  exact ⟨_, decInject_ok.2 ⟨hl, rfl⟩, hback, fun a ha => read_store_outside (by simpa [Buf.base] using ha)⟩

/-- The character loop ends as `decodeResult` says, with its bytes in BB[0..L−1]. -/
theorem decodeChars_leaves {cs : List Byte} (hl : s.l.toNat ≤ s.cfg.lmax) (hc : s.carry = 0#8)
    (hr : r = decodeResult s.n (lookup s) (s.elems .bb s.l.toNat) cs) :
    ∃ m, decodeChars cs s = .ok { s with err := r.err, carry := r.carry, mem := m } ∧ LeavesBytes s r m := by
  subst hr
  induction cs generalizing s with
  | nil =>
    obtain ⟨m, hrev, hread, hsame⟩ := reverseElems_leaves (b := .bb) hl
    refine ⟨m, decodeChars_nil.2 ⟨_, hrev, ?_⟩, elems_eq_reverse hread, hsame⟩
    simp [finish, hc]
  | cons c cs ih =>
    cases hlook : lookup s c with
    | none =>
      obtain ⟨m, hzero, hleaves⟩ := zeroBytes_leaves hl
      rw [decodeResult_invalid hlook, elems_length]
      refine ⟨m, decodeChars_cons.2 (.inl ⟨hlook, _, hzero, ?_⟩), hleaves _ _⟩
      simp [fail, failedResult, hc]
    | some d =>
      obtain ⟨m₀, hu, hbytes, hframe⟩ := decInject_bytes d hl
      generalize hcarry : (decBytes s.n d (s.elems .bb s.l.toNat)).2 = carry at hu hbytes
      have hlookup := lookup_of_sameOutside (t := { s with mem := m₀, carry := carry }) hl rfl hframe
      by_cases hzero : carry = 0#8
      · rw [decodeResult_fits hlook (hcarry.trans hzero)]
        obtain ⟨m, hrun, hmem, hsame⟩ := ih (s := { s with mem := m₀, carry := carry }) hl hzero
        rw [hlookup, hbytes] at hrun hmem
        exact ⟨m, decodeChars_cons.2 (.inr ⟨d, _, hlook, hu, .inr ⟨hzero, hrun⟩⟩), hmem, fun a ha =>
          (hsame a ha).trans (hframe a ha)⟩
      · rw [decodeResult_overflows hlook (hcarry ▸ hzero), elems_length, hcarry]
        obtain ⟨m, hclear, hleaves⟩ := zeroBytes_leaves (s := { s with mem := m₀, carry := carry }) hl
        obtain ⟨hmem, hsame⟩ := hleaves .overflow carry
        exact ⟨m, decodeChars_cons.2 (.inr ⟨d, _, hlook, hu, .inl ⟨hzero, _, hclear, rfl⟩⟩), hmem, fun a ha =>
          (hsame a ha).trans (hframe a ha)⟩

/-! ### The two commands -/

/-- What a decode of the string gives, whatever BB and CARRY hold before it (R168, R169). -/
def decoded (s : State) : DecodeResult :=
  decodeResult s.n (lookup s) (List.replicate s.l.toNat 0#8) s.text

/-- DECF's result where W is `width`: the length test comes before any character (R167). -/
def decodedFixed (s : State) (width : Half) : DecodeResult :=
  if s.slen = width then decoded s else failedResult .invlen 0#8 s.l.toNat

theorem text_congr (hslen : t.slen = s.slen) (hle : s.slen.toNat ≤ s.cfg.cmax)
    (hsb : ∀ i < s.cfg.cmax, t.elem .sb i = s.elem .sb i) : t.text = s.text := by
  rw [State.text, State.text, hslen]
  exact elems_congr fun i hi => hsb i (by omega)

/-- Both decodes clear BB[0..L−1] and then run the character loop on SB. -/
theorem zeroBytes_decodeChars (hl : s.l.toNat ≤ s.cfg.lmax) (hslen : s.slen.toNat ≤ s.cfg.cmax) :
    ∃ m₀ m, zeroBytes { s with carry := 0 } = .ok { s with carry := 0, mem := m₀ }
      ∧ (∀ e c, LeavesBytes s (failedResult e c s.l.toNat) m₀)
      ∧ decodeChars (({ s with carry := 0, mem := m₀ } : State).elems .sb s.slen.toNat)
          { s with carry := 0, mem := m₀ }
        = .ok { s with err := (decoded s).err, carry := (decoded s).carry, mem := m }
      ∧ LeavesBytes s (decoded s) m := by
  obtain ⟨m₀, hzero, hleaves⟩ := zeroBytes_leaves (s := { s with carry := 0 }) hl
  obtain ⟨hbytes, hsame⟩ := hleaves .ok 0#8
  have hlookup : lookup { s with carry := 0, mem := m₀ } = lookup s := lookup_of_sameOutside hl rfl hsame
  have htext : ({ s with carry := 0, mem := m₀ } : State).elems .sb s.slen.toNat = s.text :=
    text_congr (t := { s with carry := 0, mem := m₀ }) rfl hslen fun _ hi =>
      elem_of_sameOutside_bytes hl hsame (b := .sb) nofun hi
  have hr : decoded s = decodeResult s.n (lookup { s with carry := 0, mem := m₀ })
      (({ s with carry := 0, mem := m₀ } : State).elems .bb s.l.toNat) s.text := by
    rw [hlookup]
    exact (congrArg (decodeResult s.n (lookup s) · s.text) hbytes).symm
  obtain ⟨m, hrun, hfinal, hsame'⟩ := decodeChars_leaves (s := { s with carry := 0, mem := m₀ }) hl rfl hr
  refine ⟨m₀, m, hzero, fun e c => ⟨hbytes, hsame⟩, htext ▸ hrun, hfinal, fun a ha => ?_⟩
  rw [hsame' a ha]
  exact hsame a ha

theorem execDecm_leaves (ha : s.avalid = true) (hl : s.l.toNat ≤ s.cfg.lmax) (hslen : s.slen.toNat ≤ s.cfg.cmax) :
    ∃ m, execDecm s = .next { s with carry := (decoded s).carry, err := (decoded s).err, mem := m }
      ∧ LeavesBytes s (decoded s) m := by
  obtain ⟨m₀, m, hzero, -, hrun, hleaves⟩ := zeroBytes_decodeChars hl hslen
  exact ⟨m, execDecm_next.2 (.inl ⟨ha, _, hzero, hslen, hrun⟩), hleaves⟩

end

/-! ### The width DECF ensures (R167) -/

section
variable {s : State} {width len : Half} {m m' : Memory}

/-- Writing BB[0..L−1] after the width computation leaves what it left in DB. -/
theorem decfLeaves_of_sameOutside (hl : s.l.toNat ≤ s.cfg.lmax) (hwidth : width.toNat ≤ s.cfg.cmax)
    (h : s.DecfLeaves width len m) (hsame : SameOutside .bb s.l.toNat m m') : s.DecfLeaves width len m' := by
  obtain ⟨hcached, hcomputed⟩ := h
  refine ⟨fun hv => ?_, fun hv => ?_⟩
  · obtain ⟨hlen, hkeep⟩ := hcached hv
    exact ⟨hlen, fun a ha => (hsame a ha).trans (hkeep a ha)⟩
  · obtain ⟨hlen, ⟨hvalue, hlt, hzeros⟩, hkeep⟩ := hcomputed hv
    have hdb : ∀ i < s.cfg.cmax, m'.read (0x2000 + i) = m.read (0x2000 + i) := fun i hi =>
      elem_of_sameOutside_bytes (s := { s with mem := m }) hl hsame (b := .db) nofun hi
    have helems : ({ s with mem := m' } : State).elems .db width.toNat
        = ({ s with mem := m } : State).elems .db width.toNat :=
      elems_congr fun i hi => hdb i (by omega)
    refine ⟨hlen, ⟨?_, fun i hi => ?_, fun i hi hi' => ?_⟩, fun a hbb hdba => ?_⟩
    · exact (congrArg (valueLE s.n.toNat) helems).trans hvalue
    · rw [hdb i (by omega)]; exact hlt i hi
    · rw [hdb i hi']; exact hzeros i hi hi'
    · rw [hsame a hbb, hkeep a hbb hdba]

/-- The bytes beyond L are as they were. -/
theorem read_beyond_of_decfLeaves (h : s.DecfLeaves width len m) {i : Nat} (hi : i < s.cfg.lmax)
    (hil : s.l.toNat ≤ i) : m.read (0x1000 + i) = s.mem.read (0x1000 + i) := by
  have hlmax := s.cfg.lmax_le
  have hbb : ¬ Buf.bb.Within s.l.toNat (0x1000 + i) := by simp only [Buf.Within, Buf.base]; omega
  have hdb : ¬ Buf.db.Within s.cfg.cmax (0x1000 + i) := by simp only [Buf.Within, Buf.base]; omega
  obtain ⟨hcached, hcomputed⟩ := h
  cases hv : s.wvalid with
  | true => exact (hcached hv).2 _ hbb
  | false =>
    obtain ⟨-, -, hkeep⟩ := hcomputed hv
    exact hkeep _ hbb hdb

end

section
variable {s : State} (hinv : s.Inv) (ha : s.avalid = true)
include hinv ha

/-- With the width cached the state is the same; without it DB and DLEN are the width computation's. -/
theorem ensureWidth_decfLeaves : ∃ a, ensureWidth s = .ok a
      ∧ a = { s with wvalid := true, w := a.w, ub := a.ub, dlen := a.dlen, carry := a.carry, mem := a.mem }
      ∧ a.w.toNat = paddedWidth s.l.toNat s.n.toNat ∧ a.ub.toNat = analyticBound s.l.toNat s.n.toNat
      ∧ s.DecfLeaves a.w a.dlen a.mem := by
  cases hv : s.wvalid with
  | true =>
    obtain ⟨-, -, -, -, ⟨hcache, -⟩, -⟩ := hinv
    obtain ⟨-, hw, hub, -⟩ := hcache hv
    exact ⟨s, ensureWidth_ok.2 (.inl ⟨hv, rfl⟩), by rw [← hv], hw, hub, fun _ => ⟨rfl, fun _ _ => rfl⟩,
      fun hf => by simp [hv] at hf⟩
  | false =>
    obtain ⟨m, width, bound, hexec, hw, hub, hdigits, hsame⟩ := execPwidth_leavesWidth hinv ha
    obtain ⟨-, u, hu, hfinish⟩ | ⟨hno, -⟩ := execPwidth_next.1 hexec
    · have herr : u.err = s.err := by rw [(widthCompute_effect hu).1]
      have hstate : u = { finish u with err := s.err } := by rw [← herr]; rfl
      rw [hstate, ← hfinish] at hu
      exact ⟨_, ensureWidth_ok.2 (.inr ⟨hv, hu⟩), rfl, hw, hub, fun ht => by simp [hv] at ht,
        fun _ => ⟨rfl, hdigits, fun a _ hdb => hsame a hdb⟩⟩
    · simp [ha] at hno

/-- DECF ensures the width, and then decodes as DECM does if the string has W characters (R167). -/
theorem execDecf_leaves : ∃ m width bound len, execDecf s = .next { s with
        wvalid := true, w := width, ub := bound, dlen := len, carry := (decodedFixed s width).carry
        err := (decodedFixed s width).err, mem := m }
      ∧ width.toNat = paddedWidth s.l.toNat s.n.toNat ∧ bound.toNat = analyticBound s.l.toNat s.n.toNat
      ∧ ({ s with mem := m } : State).elems .bb s.l.toNat = (decodedFixed s width).bytes
      ∧ s.DecfLeaves width len m := by
  obtain ⟨hn, -⟩ := radix_bounds hinv ha
  obtain ⟨a, hensure, hstate, hw, hub, hdecf⟩ := ensureWidth_decfLeaves hinv ha
  obtain ⟨-, -, -, -, -, hl, -, hslen⟩ := hinv
  have hdb := (ensureWidth_effect hensure).2
  have hcfg : a.cfg = s.cfg := by rw [hstate]
  have hal : a.l = s.l := by rw [hstate]
  have haslen : a.slen = s.slen := by rw [hstate]
  have hdecoded : decoded a = decoded s := by
    rw [decoded, lookup_congr hcfg fun _ => hdb.elem (b := .rev) (by simp),
      text_congr haslen hslen fun _ => hdb.elem (b := .sb) (by simp), hal, show a.n = s.n by rw [hstate], decoded]
  obtain ⟨m₀, m, hzero, hclear, hrun, hleaves⟩ :=
    zeroBytes_decodeChars (s := a) (by rwa [hal, hcfg]) (by rwa [haslen, hcfg])
  obtain ⟨m', hexec, hbytes, hsame⟩ : ∃ m', execDecf s = .next { a with
      err := (decodedFixed s a.w).err, carry := (decodedFixed s a.w).carry, mem := m' }
      ∧ LeavesBytes a (decodedFixed s a.w) m' := by
    by_cases hlen : s.slen = a.w
    · rw [decodedFixed, if_pos hlen, ← hdecoded]
      exact ⟨m, execDecf_next.2 (.inl ⟨ha, a, hensure, _, hzero,
        .inr ⟨haslen.trans hlen, by rwa [haslen, hcfg], hrun⟩⟩), hleaves⟩
    · rw [decodedFixed, if_neg hlen, ← hal]
      exact ⟨m₀, execDecf_next.2 (.inl ⟨ha, a, hensure, _, hzero, .inl ⟨fun h => hlen (haslen.symm.trans h), rfl⟩⟩),
        hclear _ _⟩
  rw [hal] at hbytes hsame
  refine ⟨m', a.w, a.ub, a.dlen, hexec.trans ?_, hw, hub, hbytes,
    decfLeaves_of_sameOutside hl (hw ▸ paddedWidth_le_cmax hn hl) hdecf hsame⟩
  rw [hstate]

end

/-! ### The obligations -/

section
variable {s t : State} {r : DecodeResult} {m : Memory}

theorem LeavesBytes.bytesBE (h : LeavesBytes s r m) :
    ({ s with mem := m } : State).bytesBE = valueBE 256 r.bytes :=
  congrArg (valueBE 256) h.bytes

/-- A failed decode leaves BB[0..L−1] cleared. -/
theorem read_of_failedResult {e : ErrCode} {c : Byte}
    (h : ({ s with mem := m } : State).elems .bb s.l.toNat = (failedResult e c s.l.toNat).bytes) {i : Nat}
    (hi : i < s.l.toNat) : m.read (0x1000 + i) = 0#8 :=
  (elem_of_elems h (i := i) (by simpa [failedResult] using hi)).trans (by simp [failedResult])

/-- The string spells a value that fits, so it is the value of the decode. -/
theorem decoded_of_spells (hn : 0 < s.n.toNat) {ds : List Byte} (hspells : s.Spells s.text ds)
    (hfits : valueBE s.n.toNat ds < s.byteLimit) :
    ∃ bs, decoded s = ⟨.ok, 0#8, bs⟩ ∧ valueBE 256 bs = valueBE s.n.toNat ds :=
  decodeResult_of_spells hn hspells hfits

end

/-- Settles O48: the string's digits are passed over, and none is left. -/
theorem decmDecodesText : Obligations.DecmDecodesText := by
  intro s ds hinv ha hspells hfits
  obtain ⟨hn, -⟩ := radix_bounds hinv ha
  obtain ⟨-, -, -, -, -, hl, -, hslen⟩ := hinv
  obtain ⟨m, hexec, hleaves⟩ := execDecm_leaves ha hl hslen
  obtain ⟨bs, hr, hval⟩ := decoded_of_spells (by omega) hspells hfits
  rw [hr] at hexec hleaves
  exact ⟨m, hexec, hleaves.bytesBE.trans hval, hleaves.frame⟩

/-- Settles O49: the characters before are passed over, and the next one ends the loop. -/
theorem decmFailsAtFirstBadCharacter : Obligations.DecmFailsAtFirstBadCharacter := by
  intro s before c after ds hinv ha htext hspells hfits
  obtain ⟨hn, -⟩ := radix_bounds hinv ha
  obtain ⟨-, -, -, -, -, hl, -, hslen⟩ := hinv
  obtain ⟨m, hexec, hleaves⟩ := execDecm_leaves ha hl hslen
  rw [decoded, htext] at hexec hleaves
  refine ⟨fun hc => ?_, fun d hc hover => ?_⟩
  · rw [decodeResult_of_invalid (by omega) hspells hfits hc] at hexec hleaves
    exact ⟨m, hexec, fun i => read_of_failedResult hleaves.bytes, hleaves.frame⟩
  · obtain ⟨carry, hr, hcarry⟩ := decodeResult_of_overflow (after := after) (by omega) hspells hfits hc hover
    rw [hr] at hexec hleaves
    refine ⟨m, carry, hexec, hcarry, ?_, fun i => read_of_failedResult hleaves.bytes, hleaves.frame⟩
    rw [hcarry]
    exact Nat.div_pos hover (by positivity)

/-- Settles O50: with W characters DECF decodes as DECM does. -/
theorem decfDecodesFullWidthText : Obligations.DecfDecodesFullWidthText := by
  intro s ds hinv ha hlen hspells hfits
  obtain ⟨hn, -⟩ := radix_bounds hinv ha
  obtain ⟨m, width, bound, len, hexec, hw, hub, hbytes, hdecf⟩ := execDecf_leaves hinv ha
  have hwidth : s.slen = width := BitVec.eq_of_toNat_eq (hlen.trans hw.symm)
  obtain ⟨bs, hr, hval⟩ := decoded_of_spells (by omega) hspells hfits
  rw [decodedFixed, if_pos hwidth, hr] at hexec hbytes
  exact ⟨m, width, bound, len, hexec, hwidth.symm, hub, (congrArg (valueBE 256) hbytes).trans hval, hdecf⟩

/-- Settles O51: the length test fails before the loop. -/
theorem decfRefusesOtherLengths : Obligations.DecfRefusesOtherLengths := by
  intro s hinv ha hlen
  obtain ⟨m, width, bound, len, hexec, hw, hub, hbytes, hdecf⟩ := execDecf_leaves hinv ha
  have hwidth : s.slen ≠ width := fun h => hlen (by rw [h, hw])
  rw [decodedFixed, if_neg hwidth] at hexec hbytes
  exact ⟨m, width, bound, len, hexec, hw, hub, fun i => read_of_failedResult hbytes, hdecf⟩

/-- Settles O52: with W characters both commands end as `decoded s` says. -/
theorem decfIsDecmAtFullWidth : Obligations.DecfIsDecmAtFullWidth := by
  intro s hinv ha hlen
  obtain ⟨m, width, bound, len, hexec, hw, hub, hbytes, hdecf⟩ := execDecf_leaves hinv ha
  have hwidth : s.slen = width := BitVec.eq_of_toNat_eq (hlen.trans hw.symm)
  rw [decodedFixed, if_pos hwidth] at hexec hbytes
  obtain ⟨-, -, -, -, -, hl, -, hslen⟩ := hinv
  obtain ⟨m', hexec', hleaves⟩ := execDecm_leaves ha hl hslen
  refine ⟨m, m', width, bound, len, _, _, hexec, hexec', hwidth.symm, hub, fun i hi => ?_, hdecf, hleaves.frame⟩
  by_cases hil : i < s.l.toNat
  · exact elem_eq_of_elems_eq (hbytes.trans hleaves.bytes.symm) hil
  · rw [read_beyond_of_decfLeaves hdecf hi (by omega), hleaves.frame _ (by simp only [Buf.Within, Buf.base]; omega)]

/-- With an alphabet held the verdict is the inverse of FWD, so FWD and N decide it (R116). -/
theorem lookup_eq_some_iff_fwd {s : State} (h : s.AlphabetHeld) (ha : s.avalid = true) {c d : Byte} :
    lookup s c = some d ↔ d.toNat < s.n.toNat ∧ s.elem .fwd d.toNat = c :=
  ⟨fwd_lookup h ha, fun ⟨hd, hc⟩ => hc ▸ lookup_fwd h ha hd⟩

/-- Settles O55: the zero digit leaves the cleared bytes as they are. -/
theorem leadingZeroCharacterIgnored : Obligations.LeadingZeroCharacterIgnored := by
  intro s₁ s₂ hinv₁ hinv₂ ha₁ ha₂ hcfg hl hnn hfwd htext
  obtain ⟨hn, -⟩ := radix_bounds hinv₁ ha₁
  obtain ⟨-, -, -, halpha₁, -, hl₁, -, hslen₁⟩ := hinv₁
  obtain ⟨-, -, -, halpha₂, -, hl₂, -, hslen₂⟩ := hinv₂
  have hlookup : lookup s₂ = lookup s₁ := by
    funext c
    refine Option.ext fun d => ?_
    rw [lookup_eq_some_iff_fwd halpha₁ ha₁, lookup_eq_some_iff_fwd halpha₂ ha₂, ← hnn]
    exact and_congr_right fun hd => by rw [hfwd _ hd]
  have hzero : lookup s₁ (s₁.elem .fwd 0) = some 0#8 :=
    lookup_fwd halpha₁ ha₁ (d := 0#8) (by rw [BitVec.toNat_zero]; omega)
  have hdecoded : decoded s₂ = decoded s₁ := by
    rw [decoded, htext, hlookup, ← hnn, ← hl, decodeResult_leadingZero hzero, decoded]
  obtain ⟨m₁, hexec₁, hleaves₁⟩ := execDecm_leaves ha₁ hl₁ hslen₁
  obtain ⟨m₂, hexec₂, hleaves₂⟩ := execDecm_leaves ha₂ hl₂ hslen₂
  rw [hdecoded] at hexec₂ hleaves₂
  refine ⟨_, _, hexec₁, hexec₂, rfl, rfl, fun i => ?_⟩
  have hbytes₂ := hleaves₂.bytes
  rw [← hl] at hbytes₂
  exact elem_eq_of_elems_eq (hleaves₁.bytes.trans hbytes₂.symm)

/-! ### CARRY after a command (R41 I7) -/

section
variable {s t : State}

theorem decoded_carry (h : s.AlphabetHeld) (ha : s.avalid = true) (hn : 0 < s.n.toNat) :
    ((decoded s).err = .ok → (decoded s).carry = 0#8) ∧ (decoded s).carry.toNat < s.n.toNat :=
  decodeResult_carry hn fun hd => (fwd_lookup h ha hd).1

theorem decodedFixed_carry (h : s.AlphabetHeld) (ha : s.avalid = true) (hn : 0 < s.n.toNat) (width : Half) :
    ((decodedFixed s width).err = .ok → (decodedFixed s width).carry = 0#8)
      ∧ (decodedFixed s width).carry.toNat < s.n.toNat := by
  rw [decodedFixed]
  split
  · exact decoded_carry h ha hn
  · exact ⟨nofun, hn⟩

theorem einj_carry {b : Nat} (ha : s.avalid = true) (h : exec (.einj b) s = .next t) (hok : t.err = .ok) :
    t.carry = 0#8 := by
  obtain ⟨hno, -⟩ | ⟨-, -, rfl⟩ | ⟨-, -, u, -, rfl⟩ := execEinj_next.1 h
  · simp [ha] at hno
  · cases hok
  · split at hok
    · cases hok
    · next hc =>
      rw [if_neg hc]
      exact not_not.1 hc

theorem dinj_carry {d : Nat} (ha : s.avalid = true) (h : exec (.dinj d) s = .next t) (herr : t.err ≠ .badarg) :
    t.carry.toNat < t.n.toNat := by
  obtain ⟨hno, -⟩ | ⟨-, -, rfl⟩ | ⟨-, hd, u, hu, rfl⟩ := execDinj_next.1 h
  · simp [ha] at hno
  · exact absurd rfl herr
  · obtain ⟨-, rfl⟩ := decInject_ok.1 hu
    have hdigit : (BitVec.ofNat 8 d).toNat < s.n.toNat := by
      rw [BitVec.toNat_ofNat]
      exact (Nat.mod_le _ _).trans_lt hd
    have hlt := decBytes_carry_lt (s.elems .bb s.l.toNat) hdigit
    split <;> exact hlt

end

/-- Settles O25: an encode within capacity leaves no carry, and a decode's carry is one of the pass. -/
theorem carryAfterCommand : Obligations.CarryAfterCommand := by
  intro i s t hinv ha h
  obtain ⟨hn, -⟩ := radix_bounds hinv ha
  have ⟨_, _, _, halpha, _, hl, _, hslen⟩ := hinv
  cases i with
  | nop | setl | abuild | dclr | bclr | drev | brev | dmap => simp [Instr.mnemonic]
  | einj b => exact ⟨fun hok _ => einj_carry ha h hok, by simp [Instr.mnemonic], by simp [Instr.mnemonic]⟩
  | dinj d => exact ⟨by simp [Instr.mnemonic], fun _ => dinj_carry ha h, by simp [Instr.mnemonic]⟩
  | pwidth =>
    obtain ⟨m, width, bound, hexec, -⟩ := execPwidth_leavesWidth hinv ha
    cases hexec.symm.trans h
    exact ⟨fun _ _ => rfl, by simp [Instr.mnemonic], by simp [Instr.mnemonic]⟩
  | encf =>
    obtain ⟨m, width, bound, hexec, -⟩ := execEncf_leavesText hinv ha
    cases hexec.symm.trans h
    exact ⟨fun _ _ => rfl, by simp [Instr.mnemonic], by simp [Instr.mnemonic]⟩
  | encm =>
    obtain ⟨m, len, hexec, -⟩ := execEncm_leavesText hinv ha
    cases hexec.symm.trans h
    exact ⟨fun _ _ => rfl, by simp [Instr.mnemonic], by simp [Instr.mnemonic]⟩
  | decf =>
    obtain ⟨m, width, bound, len, hexec, -⟩ := execDecf_leaves hinv ha
    cases hexec.symm.trans h
    obtain ⟨hzero, hlt⟩ := decodedFixed_carry halpha ha (by omega) width
    exact ⟨fun hok _ => hzero hok, by simp [Instr.mnemonic], fun _ => hlt⟩
  | decm =>
    obtain ⟨m, hexec, -⟩ := execDecm_leaves ha hl hslen
    cases hexec.symm.trans h
    obtain ⟨hzero, hlt⟩ := decoded_carry halpha ha (by omega)
    exact ⟨fun hok _ => hzero hok, by simp [Instr.mnemonic], fun _ => hlt⟩

end Sys2Proof.Machine.Decoding

/-! PROOFS. The invariants of the whole machine (10_state.md section 6, 60_exceptions.md section 1). I1 to I6 are four
independent parts: the alphabet's tables, the digits held, the width cache and the lengths. A command that does not
write what a part looks at keeps it, by the command's effect; one that does leaves it in the form its own law gives.
The same laws say that every command completes. Settles StepKeepsInvariants and StepNeverStops. -/

namespace Sys2Proof.Machine.Invariants

open Sys2Proof.Machine.HostPort Sys2Proof.Machine.Encoding Sys2Proof.Machine.Configuration
  Sys2Proof.Machine.ByteToDigit Sys2Proof.Machine.DigitToByte Sys2Proof.Machine.Length Sys2Proof.Machine.Hazards
  Sys2Proof.Machine.Effects Sys2Proof.Machine.Steps Sys2Proof.Machine.EncodeInject Sys2Proof.Machine.Decoding

/-! ### The parts of the invariant (R41) -/

/-- I1, I2 and what I3 and I6 say of DB and DLEN, with I1 for the digits held alone: beyond them DB is 0. -/
structure DigitsHeld (s : State) : Prop where
  room : s.dlen.toNat ≤ s.cfg.cmax
  padded : s.DigitsPadded
  empty : s.avalid = false → s.dlen = 0#16
  below : s.avalid = true → ∀ i < s.dlen.toNat, (s.elem .db i).toNat < s.n.toNat

section
variable {s t : State}

theorem inv_iff : s.Inv ↔ s.AlphabetInv ∧ DigitsHeld s ∧ s.WidthCacheExact
    ∧ s.l.toNat ≤ s.cfg.lmax ∧ s.slen.toNat ≤ s.cfg.cmax := by
  constructor
  · rintro ⟨hbelow, hpadded, hnone, halpha, hcache, hl, hdlen, hslen⟩
    refine ⟨⟨halpha, fun ha => ?_⟩, ⟨hdlen, hpadded, fun ha => (hnone ha).2.1, fun ha i hi => ?_⟩, hcache, hl, hslen⟩
    · obtain ⟨hn, -, -, hrev, -⟩ := hnone ha
      exact ⟨hn, hrev⟩
    · exact hbelow ha i (by omega)
  · rintro ⟨⟨halpha, hnone⟩, hdigits, hcache, hl, hslen⟩
    refine ⟨fun ha i hi => ?below, hdigits.padded, fun ha => ?none, halpha, hcache, hl, hdigits.room, hslen⟩
    case below =>
      obtain ⟨-, ⟨⟨hn, -⟩, -⟩, -⟩ := halpha ha
      by_cases hlen : i < s.dlen.toNat
      · exact hdigits.below ha i hlen
      · rw [hdigits.padded i hi (by omega), BitVec.toNat_zero]
        omega
    case none =>
      obtain ⟨hn, hrev⟩ := hnone ha
      have hdlen := hdigits.empty ha
      refine ⟨hn, hdlen, fun i hi => hdigits.padded i hi (by simp [hdlen]), hrev, ?_⟩
      cases hv : s.wvalid with
      | false => rfl
      | true => exact absurd (hcache.1 hv).1 (by simp [ha])

theorem digitsHeld_congr (hs : DigitsHeld s) (hcfg : t.cfg = s.cfg) (ha : t.avalid = s.avalid) (hn : t.n = s.n)
    (hdlen : t.dlen = s.dlen) (hdb : ∀ i < s.cfg.cmax, t.elem .db i = s.elem .db i) : DigitsHeld t where
  room := by rw [hdlen, hcfg]; exact hs.room
  padded i hi hi' := by
    rw [hcfg] at hi
    rw [hdlen] at hi'
    rw [hdb i hi, hs.padded i hi hi']
  empty h := by rw [hdlen]; exact hs.empty (ha ▸ h)
  below h i hi := by
    rw [hdlen] at hi
    rw [hn, hdb i (hi.trans_le hs.room)]
    exact hs.below (ha ▸ h) i hi

theorem DigitsHeld.withErr (hs : DigitsHeld s) (e : ErrCode) : DigitsHeld { s with err := e } :=
  digitsHeld_congr hs rfl rfl rfl rfl fun _ _ => rfl

/-- With an alphabet held the part is about the digits alone. -/
theorem digitsHeld_of_alphabet (ha : t.avalid = true) (hroom : t.dlen.toNat ≤ t.cfg.cmax)
    (hbelow : ∀ i < t.dlen.toNat, (t.elem .db i).toNat < t.n.toNat)
    (hzeros : ∀ i, t.dlen.toNat ≤ i → i < t.cfg.cmax → t.elem .db i = 0#8) : DigitsHeld t where
  room := hroom
  padded i hi hi' := hzeros i hi' hi
  empty h := by simp [ha] at h
  below _ := hbelow

theorem digitsHeld_of_cleared (hdlen : t.dlen = 0#16) (hdb : ∀ i < t.cfg.cmax, t.elem .db i = 0#8) : DigitsHeld t where
  room := by simp [hdlen]
  padded i hi _ := hdb i hi
  empty _ := hdlen
  below _ i hi := by simp [hdlen] at hi

theorem widthCacheExact_congr (hs : s.WidthCacheExact) (hcfg : t.cfg = s.cfg) (ha : t.avalid = s.avalid)
    (hn : t.n = s.n) (hl : t.l = s.l) (hv : t.wvalid = s.wvalid) (hw : t.w = s.w) (hub : t.ub = s.ub) :
    t.WidthCacheExact := by
  rw [State.WidthCacheExact, hcfg, ha, hn, hl, hv, hw, hub]
  exact hs

theorem widthCacheExact_of_empty (hv : t.wvalid = false) (hw : t.w = 0#16) (hub : t.ub = 0#16) : t.WidthCacheExact :=
  ⟨fun h => by simp [hv] at h, fun _ => ⟨hw, hub⟩⟩

/-- The inequalities of I5 follow from the two values (R194). -/
theorem widthCacheExact_of_widths (ha : t.avalid = true) (hn : 2 ≤ t.n.toNat) (hl : t.l.toNat ≤ t.cfg.lmax)
    (hv : t.wvalid = true) (hw : t.w.toNat = paddedWidth t.l.toNat t.n.toNat)
    (hub : t.ub.toNat = analyticBound t.l.toNat t.n.toNat) : t.WidthCacheExact := by
  refine ⟨fun _ => ⟨ha, hw, hub, ?_, ?_, Nat.mul_le_mul_left 8 hl⟩, fun h => by simp [hv] at h⟩
  · rw [hw, hub]
    exact paddedWidth_le_analyticBound hn
  · rw [hub]
    exact analyticBound_le hn

end

/-! ### The digits after a command -/

section
variable {s t : State}

/-- A command that is not named as writing DLEN writes none of what the part looks at. -/
theorem digitsHeld_of_not_named {i : Instr} (hs : DigitsHeld s) (h : exec i s = .next t)
    (hi : i.mnemonic ∉ ["DCLR", "EINJ", "ENCF", "ENCM", "PWIDTH", "ABUILD", "DECF"]) (hdrev : i.mnemonic ≠ "DREV") :
    DigitsHeld t := by
  obtain ⟨u, heffect⟩ := exec_effect h
  obtain ⟨hcfg, -, -, -, halpha, -, hdlen, -⟩ := registersWrittenOnlyByNamedCommands i s t h
  obtain ⟨hn, ha⟩ := halpha fun he => hi (by simp [he])
  have hdb : Buf.db ∉ writtenBuffers i := by
    intro hb
    have hnamed := mnemonic_of_mem_writtenBuffers hb
    simp only [reduceCtorEq, false_and, true_and, or_false, false_or, List.mem_cons, List.not_mem_nil] at hnamed hi
    tauto
  exact digitsHeld_congr hs hcfg ha hn (hdlen hi) fun _ => heffect.memory.elem hdb

theorem read_db_beyond {m m' : Memory} {k i : Nat} (h : SameOutside .db k m m') (hi : k ≤ i) :
    m'.read (0x2000 + i) = m.read (0x2000 + i) :=
  h _ fun hin => Nat.not_lt.2 hi (Nat.lt_of_add_lt_add_left hin.2)

theorem einj_digitsHeld {b : Nat} (hinv : s.Inv) (h : exec (.einj b) s = .next t) : DigitsHeld t := by
  obtain ⟨-, hs, -⟩ := inv_iff.1 hinv
  obtain ⟨-, rfl⟩ | ⟨-, -, rfl⟩ | ⟨ha, -, u, hu, rfl⟩ := execEinj_next.1 h
  · exact hs.withErr _
  · exact hs.withErr _
  · obtain ⟨hn, -⟩ := radix_bounds hinv ha
    obtain ⟨m, len, c, hinject, hleaves⟩ := encInject_leaves hn hs.room (hs.below ha) (BitVec.ofNat 8 b)
    cases hinject.symm.trans hu
    have hdigits : DigitsHeld { s with dlen := len, carry := c, mem := m } :=
      digitsHeld_of_alphabet ha hleaves.room hleaves.digit_lt fun i hi hi' =>
        (read_db_beyond hleaves.frame hi).trans (hs.padded i hi' (hleaves.grown.trans hi))
    split <;> exact hdigits.withErr _

theorem drev_digitsHeld (hs : DigitsHeld s) (h : exec .drev s = .next t) : DigitsHeld t := by
  obtain ⟨-, hdrev⟩ := drevReversesDigits
  obtain ⟨m, hexec, hread, hsame⟩ := hdrev s hs.room
  cases hexec.symm.trans h
  exact
    { room := hs.room
      padded := fun i hi hi' => (read_db_beyond hsame hi').trans (hs.padded i hi hi')
      empty := hs.empty
      below := fun ha i hi => by
        have hi' : i < s.dlen.toNat := hi
        have hdigit := hs.below ha (s.dlen.toNat - 1 - i) (by omega)
        rw [← hread i hi'] at hdigit
        exact hdigit }

theorem decf_digitsHeld (hinv : s.Inv) (ha : s.avalid = true) (h : exec .decf s = .next t) : DigitsHeld t := by
  obtain ⟨-, hs, -, hl, -⟩ := inv_iff.1 hinv
  obtain ⟨hn, -⟩ := radix_bounds hinv ha
  obtain ⟨m, width, bound, len, hexec, hw, -, -, hcached, hcomputed⟩ := execDecf_leaves hinv ha
  cases hexec.symm.trans h
  cases hv : s.wvalid with
  | true =>
    obtain ⟨rfl, hsame⟩ := hcached hv
    exact digitsHeld_congr hs rfl rfl rfl rfl fun _ hi => elem_of_sameOutside_bytes hl hsame (b := .db) nofun hi
  | false =>
    obtain ⟨rfl, ⟨-, hlt, hzeros⟩, -⟩ := hcomputed hv
    exact digitsHeld_of_alphabet ha (hw ▸ paddedWidth_le_cmax hn hl) hlt hzeros

/-- ABUILD clears the digits and drops the width cache, with the alphabet built or not (R113). -/
theorem abuild_drops {n : Nat} (h : exec (.abuild n) s = .next t) : DigitsHeld t ∧ t.WidthCacheExact := by
  obtain ⟨-, hbuild⟩ := abuildSucceedsExactlyOnValidAlphabets
  obtain ⟨hyes, hno⟩ := hbuild n s
  by_cases hvalid : s.ValidAlphabet n
  · obtain ⟨m, hexec, hzero, -⟩ := hyes hvalid
    cases hexec.symm.trans h
    exact ⟨digitsHeld_of_cleared rfl hzero, widthCacheExact_of_empty rfl rfl rfl⟩
  · obtain ⟨m, hexec, hzero, -⟩ := hno hvalid
    cases hexec.symm.trans h
    exact ⟨digitsHeld_of_cleared rfl hzero, widthCacheExact_of_empty rfl rfl rfl⟩

/-- An alphabet is held, if the command needs one: otherwise it fails and changes nothing but ERR (R235). -/
def AlphabetAsNeeded (i : Instr) (s : State) : Prop := needsAlphabet i = true → s.avalid = true

theorem exec_keeps_digitsHeld {i : Instr} (hinv : s.Inv) (hneeds : AlphabetAsNeeded i s) (h : exec i s = .next t) :
    DigitsHeld t := by
  obtain ⟨-, hs, -, hl, -⟩ := inv_iff.1 hinv
  cases i with
  | nop | setl | bclr | dinj | brev | dmap | decm =>
    exact digitsHeld_of_not_named hs h (by simp [Instr.mnemonic]) (by simp [Instr.mnemonic])
  | dclr =>
    obtain ⟨-, hdclr⟩ := dclrClearsDigits
    obtain ⟨m, hexec, hzero, -⟩ := hdclr s
    cases hexec.symm.trans h
    exact digitsHeld_of_cleared rfl hzero
  | abuild n => exact (abuild_drops h).1
  | einj b => exact einj_digitsHeld hinv h
  | drev => exact drev_digitsHeld hs h
  | pwidth =>
    have ha := hneeds rfl
    obtain ⟨hn, -⟩ := radix_bounds hinv ha
    obtain ⟨m, width, bound, hexec, hw, -, ⟨-, hlt, hzeros⟩, -⟩ := execPwidth_leavesWidth hinv ha
    cases hexec.symm.trans h
    exact digitsHeld_of_alphabet ha (hw ▸ paddedWidth_le_cmax hn hl) hlt hzeros
  | encf =>
    have ha := hneeds rfl
    obtain ⟨hn, -⟩ := radix_bounds hinv ha
    obtain ⟨m, width, bound, hexec, hw, -, htext⟩ := execEncf_leavesText hinv ha
    cases hexec.symm.trans h
    exact digitsHeld_of_alphabet ha (hw ▸ paddedWidth_le_cmax hn hl) htext.digit_lt htext.zeros
  | encm =>
    have ha := hneeds rfl
    obtain ⟨m, len, hexec, -, hroom, htext, -⟩ := execEncm_leavesText hinv ha
    cases hexec.symm.trans h
    exact digitsHeld_of_alphabet ha hroom htext.digit_lt htext.zeros
  | decf => exact decf_digitsHeld hinv (hneeds rfl) h

/-! ### The width cache and the lengths after a command -/

theorem exec_keeps_widthCacheExact {i : Instr} (hinv : s.Inv) (hneeds : AlphabetAsNeeded i s)
    (h : exec i s = .next t) : t.WidthCacheExact := by
  obtain ⟨-, -, hcache, hl, -⟩ := inv_iff.1 hinv
  obtain ⟨hcfg, -, -, hlen, halpha, -, -, hkept, -⟩ := registersWrittenOnlyByNamedCommands i s t h
  cases i with
  | nop | dclr | bclr | einj | dinj | drev | brev | dmap | encm | decm =>
    obtain ⟨hn, ha⟩ := halpha (by simp [Instr.mnemonic])
    obtain ⟨hv, hw, hub⟩ := hkept (by simp [Instr.mnemonic])
    exact widthCacheExact_congr hcache hcfg ha hn (hlen (by simp [Instr.mnemonic])) hv hw hub
  | setl l =>
    obtain hlt | hle := Nat.lt_or_ge s.cfg.lmax l
    · cases (exec_setl_of_gt hlt).symm.trans h
      exact hcache
    · cases (exec_setl_of_le hle).symm.trans h
      exact widthCacheExact_of_empty rfl rfl rfl
  | abuild n => exact (abuild_drops h).2
  | pwidth =>
    have ha := hneeds rfl
    obtain ⟨hn, -⟩ := radix_bounds hinv ha
    obtain ⟨m, width, bound, hexec, hw, hub, -⟩ := execPwidth_leavesWidth hinv ha
    cases hexec.symm.trans h
    exact widthCacheExact_of_widths ha hn hl rfl hw hub
  | encf =>
    have ha := hneeds rfl
    obtain ⟨hn, -⟩ := radix_bounds hinv ha
    obtain ⟨m, width, bound, hexec, hw, hub, -⟩ := execEncf_leavesText hinv ha
    cases hexec.symm.trans h
    exact widthCacheExact_of_widths ha hn hl rfl hw hub
  | decf =>
    have ha := hneeds rfl
    obtain ⟨hn, -⟩ := radix_bounds hinv ha
    obtain ⟨m, width, bound, len, hexec, hw, hub, -⟩ := execDecf_leaves hinv ha
    cases hexec.symm.trans h
    exact widthCacheExact_of_widths ha hn hl rfl hw hub

theorem exec_keeps_byteLength {i : Instr} (hl : s.l.toNat ≤ s.cfg.lmax) (h : exec i s = .next t) :
    t.l.toNat ≤ t.cfg.lmax := by
  by_cases hi : i.mnemonic = "SETL"
  · obtain ⟨l, rfl⟩ : ∃ l, i = .setl l := by
      cases i <;> simp [Instr.mnemonic] at hi ⊢
    obtain hlt | hle := Nat.lt_or_ge s.cfg.lmax l
    · cases (exec_setl_of_gt hlt).symm.trans h
      exact hl
    · cases (exec_setl_of_le hle).symm.trans h
      rw [finish_l, invalidateWidth_l, BitVec.toNat_ofNat]
      exact (Nat.mod_le _ _).trans hle
  · obtain ⟨hcfg, -, -, hlen, -⟩ := registersWrittenOnlyByNamedCommands i s t h
    rw [hlen hi, hcfg]
    exact hl

theorem exec_keeps_textLength {i : Instr} (hinv : s.Inv) (hneeds : AlphabetAsNeeded i s) (h : exec i s = .next t) :
    t.slen.toNat ≤ t.cfg.cmax := by
  obtain ⟨-, hs, -, hl, hslen⟩ := inv_iff.1 hinv
  obtain ⟨hcfg, -, -, -, -, hkept, -⟩ := registersWrittenOnlyByNamedCommands i s t h
  cases i with
  | dmap =>
    obtain ⟨-, u, hu, rfl⟩ | ⟨-, rfl⟩ := execDmap_next.1 h
    · obtain ⟨hroom, -, rfl⟩ := mapDigits_ok.1 hu
      exact hroom
    · exact hslen
  | encf =>
    have ha := hneeds rfl
    obtain ⟨hn, -⟩ := radix_bounds hinv ha
    obtain ⟨m, width, bound, hexec, hw, -⟩ := execEncf_leavesText hinv ha
    cases hexec.symm.trans h
    exact hw ▸ paddedWidth_le_cmax hn hl
  | encm =>
    have ha := hneeds rfl
    obtain ⟨m, len, hexec, -, hroom, -⟩ := execEncm_leavesText hinv ha
    cases hexec.symm.trans h
    exact hroom
  | _ =>
    rw [hkept (by simp [Instr.mnemonic]), hcfg]
    exact hslen

theorem exec_keeps_inv {i : Instr} (hinv : s.Inv) (h : exec i s = .next t) : t.Inv := by
  by_cases hneeds : AlphabetAsNeeded i s
  · obtain ⟨halpha, -, -, hl, -⟩ := inv_iff.1 hinv
    exact inv_iff.2 ⟨exec_keeps_alphabetInv halpha h, exec_keeps_digitsHeld hinv hneeds h,
      exec_keeps_widthCacheExact hinv hneeds h, exec_keeps_byteLength hl h, exec_keeps_textLength hinv hneeds h⟩
  · obtain ⟨hi, ha⟩ := Classical.not_imp.1 hneeds
    cases (missingAlphabetFails i s hi (Bool.eq_false_iff.2 ha)).symm.trans h
    exact hinv

/-! ### Every command completes (R78, R131, R203) -/

theorem einj_completes (hinv : s.Inv) (ha : s.avalid = true) (b : Nat) : Completes (exec (.einj b) s) := by
  obtain ⟨-, hs, -⟩ := inv_iff.1 hinv
  obtain ⟨hn, -⟩ := radix_bounds hinv ha
  obtain hover | hb := Nat.lt_or_ge 255 b
  · exact ⟨_, execEinj_next.2 (.inr (.inl ⟨ha, hover, rfl⟩))⟩
  · obtain ⟨m, len, c, hinject, -⟩ := encInject_leaves hn hs.room (hs.below ha) (BitVec.ofNat 8 b)
    exact ⟨_, execEinj_next.2 (.inr (.inr ⟨ha, hb, _, hinject, rfl⟩))⟩

theorem dinj_completes (hl : s.l.toNat ≤ s.cfg.lmax) (ha : s.avalid = true) (d : Nat) :
    Completes (exec (.dinj d) s) := by
  obtain hd | hd := Nat.lt_or_ge d s.n.toNat
  · exact ⟨_, execDinj_next.2 (.inr (.inr ⟨ha, hd, _, decInject_ok.2 ⟨hl, rfl⟩, rfl⟩))⟩
  · exact ⟨_, execDinj_next.2 (.inr (.inl ⟨ha, hd, rfl⟩))⟩

/-- The commands that need no alphabet. -/
theorem exec_completes_of_free {i : Instr} (hinv : s.Inv) (hi : needsAlphabet i = false) : Completes (exec i s) := by
  obtain ⟨-, hs, -, hl, -⟩ := inv_iff.1 hinv
  cases i with
  | nop | dclr | bclr | setl => exact ⟨_, rfl⟩
  | abuild n =>
    by_cases hvalid : s.ValidAlphabet n
    · obtain ⟨v, -, hexec⟩ := exec_abuild_valid hvalid
      exact ⟨_, hexec⟩
    · exact ⟨_, exec_abuild_invalid hvalid⟩
  | drev =>
    obtain ⟨-, hdrev⟩ := drevReversesDigits
    obtain ⟨m, hexec, -⟩ := hdrev s hs.room
    exact ⟨_, hexec⟩
  | brev =>
    obtain ⟨-, hbrev⟩ := brevReversesBytes
    obtain ⟨m, hexec, -⟩ := hbrev s hl
    exact ⟨_, hexec⟩
  | einj | dinj | dmap | pwidth | encf | encm | decf | decm => cases hi

/-- The commands that need one, with an alphabet held. -/
theorem exec_completes_of_alphabet {i : Instr} (hinv : s.Inv) (ha : s.avalid = true) (hi : needsAlphabet i = true) :
    Completes (exec i s) := by
  have ⟨hbelow, _, _, _, _, hl, hdlen, hslen⟩ := hinv
  cases i with
  | einj b => exact einj_completes hinv ha b
  | dinj d => exact dinj_completes hl ha d
  | dmap =>
    obtain ⟨-, -, hdmap⟩ := dmapMapsDigits
    obtain ⟨m, hexec, -⟩ := hdmap s hbelow ⟨hl, hdlen, hslen⟩ ha
    exact ⟨_, hexec⟩
  | pwidth =>
    obtain ⟨m, width, bound, hexec, -⟩ := execPwidth_leavesWidth hinv ha
    exact ⟨_, hexec⟩
  | encf =>
    obtain ⟨m, width, bound, hexec, -⟩ := execEncf_leavesText hinv ha
    exact ⟨_, hexec⟩
  | encm =>
    obtain ⟨m, len, hexec, -⟩ := execEncm_leavesText hinv ha
    exact ⟨_, hexec⟩
  | decf =>
    obtain ⟨m, width, bound, len, hexec, -⟩ := execDecf_leaves hinv ha
    exact ⟨_, hexec⟩
  | decm =>
    obtain ⟨m, hexec, -⟩ := execDecm_leaves ha hl hslen
    exact ⟨_, hexec⟩
  | nop | setl | abuild | dclr | bclr | drev | brev => cases hi

theorem exec_completes (hinv : s.Inv) (i : Instr) : Completes (exec i s) := by
  cases hi : needsAlphabet i with
  | false => exact exec_completes_of_free hinv hi
  | true =>
    cases ha : s.avalid with
    | false => exact ⟨_, missingAlphabetFails i s hi ha⟩
    | true => exact exec_completes_of_alphabet hinv ha hi

end

/-! ### The events -/

theorem keptByEvents_inv : KeptByEvents State.Inv where
  reset := inv_resetWith
  port _ _ _ hs := hs
  command := exec_keeps_inv
  slen hs hv := by
    obtain ⟨halpha, hdigits, hcache, hl, -⟩ := inv_iff.1 hs
    exact inv_iff.2 ⟨halpha, digitsHeld_congr hdigits rfl rfl rfl rfl fun _ _ => rfl, hcache, hl, hv⟩
  bytes {s b i} v hs hb hi := by
    obtain ⟨halpha, hdigits, hcache, hl, hslen⟩ := inv_iff.1 hs
    have hmem : Rewrites s.cfg [b] s.mem (s.mem.write (b.base + i) v) := Rewrites.refl.write v (by simp) hi
    have hdb : Buf.db ∉ [b] := by obtain rfl | rfl := hb <;> simp
    exact inv_iff.2 ⟨keptByEvents_alphabetInv.bytes v halpha hb hi,
      digitsHeld_congr hdigits rfl rfl rfl rfl fun _ => hmem.elem hdb, hcache, hl, hslen⟩
  fwd {s i} v hs hi := by
    obtain ⟨halpha, -, -, hl, hslen⟩ := inv_iff.1 hs
    have hdb : ∀ j < s.cfg.cmax,
        (invalidateAlphabet { s with mem := s.mem.write (0x4000 + i) v }).elem .db j = 0#8 := by
      intro j hj
      have hcmax := cmax_le s.cfg
      rw [State.elem, read_invalidateAlphabet, if_neg (by rw [rev_within_iff, Buf.base]; omega), if_pos]
      exact ⟨Nat.le_add_right _ _, Nat.add_lt_add_left hj _⟩
    exact inv_iff.2 ⟨keptByEvents_alphabetInv.fwd v halpha hi, digitsHeld_of_cleared rfl hdb,
      widthCacheExact_of_empty rfl rfl rfl, hl, hslen⟩

theorem hostWrite_completes {s : State} (hinv : s.Inv) (addr : Half) (data : Word) :
    Completes (hostWrite exec addr data s) := by
  rw [hostWrite]
  split
  · rw [runWord]
    split
    · exact exec_completes (s := { s with reply := some (.write .okay) }) hinv _
    · exact ⟨_, rfl⟩
  · split <;> exact ⟨_, rfl⟩

/-- Settles O15: every way a step changes the state keeps the four parts. -/
theorem stepKeepsInvariants : Obligations.StepKeepsInvariants := fun _ _ => keptByEvents_inv.step

/-- Settles O16: the port answers every event, and every command completes. -/
theorem stepNeverStops : Obligations.StepNeverStops := by
  intro s hinv
  cases hpending : s.pending with
  | nil => exact ⟨s, step_idle hpending⟩
  | cons e rest =>
    rw [step_event hpending]
    cases e with
    | hostRead addr => exact ⟨_, rfl⟩
    | hostWrite addr data => exact hostWrite_completes (s := { s with pending := rest }) hinv addr data
    | reset => exact ⟨_, rfl⟩

end Sys2Proof.Machine.Invariants

/-! PROOFS. The round trips (42_decode.md section 5): the string an encode leaves spells, by its own alphabet, digits
whose value is that of BB. The decode looks at the string and not at BB, so it gives the value back, and L bytes are
fixed by their value. Settles FixedRoundTrip and MinimalRoundTrip. -/

namespace Sys2Proof.Machine.TextRoundTrip

open Sys2Proof.Machine.Configuration Sys2Proof.Machine.ByteToDigit Sys2Proof.Machine.Steps
  Sys2Proof.Machine.EncodeInject Sys2Proof.Machine.EncodedText Sys2Proof.Machine.Decoding Sys2Proof.Machine.Invariants

section
variable {s t : State} {v : Nat} {k : Half} {m m' : Memory}

/-- The invariants do not look at BB. -/
theorem inv_of_other_bytes (ht : t.Inv) (h : SameOutside .bb t.cfg.lmax t.mem m) :
    ({ t with mem := m } : State).Inv := by
  have hkeep {b : Buf} (hb : b ≠ .bb) : ∀ i < b.size t.cfg, m.read (b.base + i) = t.elem b i := fun _ =>
    elem_of_sameOutside_bytes le_rfl h hb
  obtain ⟨halpha, hdigits, hcache, hl, hslen⟩ := inv_iff.1 ht
  exact inv_iff.2 ⟨alphabetInv_congr halpha rfl rfl rfl (hkeep (b := .fwd) nofun) (hkeep (b := .rev) nofun),
    digitsHeld_congr hdigits rfl rfl rfl rfl (hkeep (b := .db) nofun), hcache, hl, hslen⟩

theorem elem_fwd_of_leavesText (h : LeavesText s v k m) (hk : k.toNat ≤ s.cfg.cmax) {d : Nat} :
    m.read (0x4000 + d) = s.elem .fwd d := by
  have hcmax := cmax_le s.cfg
  exact h.frame _ (by simp only [Buf.Within, Buf.base]; omega) (by simp only [Buf.Within, Buf.base]; omega)

/-- Whatever BB holds, the string an encode left spells its digits. -/
theorem spells_of_leavesText (ht : t.Inv) (ha : t.avalid = true) (h : LeavesText s v k m)
    (hk : k.toNat ≤ s.cfg.cmax) (hmem : t.mem = m) (hslen : t.slen = k) (hcfg : t.cfg = s.cfg) (hn : t.n = s.n)
    (hother : SameOutside .bb t.cfg.lmax t.mem m') :
    ({ t with mem := m' } : State).Spells ({ t with mem := m' } : State).text (encodedDigits s k m) := by
  have ht' := inv_of_other_bytes ht hother
  have htext : ({ t with mem := m' } : State).text = t.text :=
    text_congr (s := t) rfl (by rw [hslen, hcfg]; exact hk) fun _ hi =>
      elem_of_sameOutside_bytes le_rfl hother (b := .sb) nofun hi
  rw [State.Spells, htext, text_eq_map_fwd h hslen hmem, List.map_map]
  refine List.map_congr_left fun d hd => ?_
  have hlt := encodedDigits_lt h d hd
  obtain ⟨-, hn255⟩ := radix_bounds ht ha
  rw [hn] at hn255
  have hfwd : ({ t with mem := m' } : State).elem .fwd d.toNat = s.elem .fwd d.toNat := by
    rw [← elem_fwd_of_leavesText h hk, ← hmem]
    exact elem_of_sameOutside_bytes le_rfl hother (b := .fwd) nofun (hlt.trans_le hn255)
  obtain ⟨-, -, -, halpha, -⟩ := ht'
  rw [Function.comp_apply, ← hfwd]
  exact lookup_fwd halpha ha (hn ▸ hlt)

/-- L bytes are fixed by their value. -/
theorem elem_bb_of_bytesBE (h : t.bytesBE = s.bytesBE) (hl : t.l = s.l) {i : Nat} (hi : i < s.l.toNat) :
    t.elem .bb i = s.elem .bb i := by
  have hbyte : ∀ ds : List Byte, ∀ d ∈ ds.reverse, d.toNat < 256 := fun _ d _ => d.isLt
  rw [State.bytesBE, State.bytesBE, hl] at h
  have hrev := digits_ext (by decide) (by simp) (hbyte _) (hbyte _) h
  exact elem_eq_of_elems_eq (List.reverse_inj.1 hrev) hi

end

/-- Settles O53: the padded string has W characters, so DECF decodes it. -/
theorem fixedRoundTrip : Obligations.FixedRoundTrip := by
  intro s hinv ha
  obtain ⟨hn, -⟩ := radix_bounds hinv ha
  obtain ⟨m, width, bound, hexec, hw, -, htext⟩ := execEncf_leavesText hinv ha
  have ht := exec_keeps_inv (i := .encf) hinv hexec
  obtain ⟨-, -, -, hl, -⟩ := inv_iff.1 hinv
  refine ⟨_, hexec, fun m' hother => ?_⟩
  have hspells := spells_of_leavesText ht ha htext (hw ▸ paddedWidth_le_cmax hn hl) rfl rfl rfl rfl hother
  have hval := encodedDigits_value htext
  obtain ⟨m₂, width₂, bound₂, len₂, hdecf, -, -, hbytes, -⟩ := decfDecodesFullWidthText _ _
    (inv_of_other_bytes ht hother) ha hw hspells (hval.trans_lt (bytesBE_lt s))
  exact ⟨_, hdecf, rfl, fun i => elem_bb_of_bytesBE (s := s) (hbytes.trans hval) rfl⟩

/-- Settles O54: DECM decodes the minimal string, whatever its length. -/
theorem minimalRoundTrip : Obligations.MinimalRoundTrip := by
  intro s hinv ha
  obtain ⟨m, len, hexec, -, hroom, htext, -⟩ := execEncm_leavesText hinv ha
  have ht := exec_keeps_inv (i := .encm) hinv hexec
  refine ⟨_, hexec, fun m' hother => ?_⟩
  have hspells := spells_of_leavesText ht ha htext hroom rfl rfl rfl rfl hother
  have hval := encodedDigits_value htext
  obtain ⟨m₂, hdecm, hbytes, -⟩ := decmDecodesText _ _ (inv_of_other_bytes ht hother) ha hspells
    (hval.trans_lt (bytesBE_lt s))
  exact ⟨_, hdecm, rfl, fun i => elem_bb_of_bytesBE (s := s) (hbytes.trans hval) rfl⟩

end Sys2Proof.Machine.TextRoundTrip
